-- ==== Sys2Proof/Word.lean ====
section
/-! DEFINITION. The plain value types of the EVT3 word decoder: bytes of the input stream, words, type codes and
payloads (00_scope.md R4, R5). Every quantity of the machine is unsigned; bit 0 is the least significant bit. -/

namespace Sys2Proof

/-- One byte of the input space `IN` (20_memory.md R60). -/
abbrev Byte := BitVec 8

/-- One EVT 3.0 word, `w[15:0]` (00_scope.md R4 `WORD_BITS`). -/
abbrev Word := BitVec 16

/-- A type code, `w[15:12]` (00_scope.md R4 `TYPE_BITS`). -/
abbrev TypeCode := BitVec 4

/-- A payload, `w[11:0]` (00_scope.md R4 `PAYLOAD_BITS`). -/
abbrev Payload := BitVec 12

/-- A reconstructed microsecond timestamp (00_scope.md R4, 64 bits). -/
abbrev Timestamp := BitVec 64

end Sys2Proof
end

