-- ==== Sys2Proof/Syntax.lean ====
section
/-! DEFINITION. The sixteen word types of EVT 3.0, one constructor per row of spec/opcode_table.json
(30_encoding.md R92). The operands are the fields of R93 to R100 and R105, the ignored ones among them (R102), so that
no bit of a word is lost between decoding and encoding. -/

namespace Sys2Proof

/-- A decoded word (30_encoding.md R105). -/
inductive Instr where
  /-- ADDR_Y, code 0x0: origin flag (ignored) and row (R93). -/
  | addrY (orig : BitVec 1) (y : BitVec 11)
  /-- Reserved code 0x1 (R103). -/
  | reserved1 (payload : Payload)
  /-- ADDR_X, code 0x2: polarity and column (R94). -/
  | addrX (p : BitVec 1) (x : BitVec 11)
  /-- VECT_BASE_X, code 0x3: polarity and base column (R95). -/
  | vectBaseX (p : BitVec 1) (x : BitVec 11)
  /-- VECT_12, code 0x4: twelve lanes (R96). -/
  | vect12 (mask : BitVec 12)
  /-- VECT_8, code 0x5: four ignored bits and eight lanes (R97). -/
  | vect8 (ign : BitVec 4) (mask : BitVec 8)
  /-- TIME_LOW, code 0x6 (R98). -/
  | timeLow (t : BitVec 12)
  /-- Reserved code 0x7 (R103). -/
  | reserved7 (payload : Payload)
  /-- TIME_HIGH, code 0x8 (R99). -/
  | timeHigh (t : BitVec 12)
  /-- Reserved code 0x9 (R103). -/
  | reserved9 (payload : Payload)
  /-- EXT_TRIGGER, code 0xA: id, seven ignored padding bits, value (R100). -/
  | extTrigger (id : BitVec 4) (pad : BitVec 7) (v : BitVec 1)
  /-- Reserved code 0xB (R103). -/
  | reservedB (payload : Payload)
  /-- Reserved code 0xC (R103). -/
  | reservedC (payload : Payload)
  /-- Reserved code 0xD (R103). -/
  | reservedD (payload : Payload)
  /-- Reserved code 0xE (R103). -/
  | reservedE (payload : Payload)
  /-- Reserved code 0xF (R103). -/
  | reservedF (payload : Payload)
  deriving DecidableEq, Repr

end Sys2Proof
end

