-- ==== Sys2Proof/WellFormed.lean ====
section
/-! DEFINITION. The written form of words (30_encoding.md R106, R107) and the check of its operand ranges.
A decoded word `Instr` needs no check: the widths of its operands are in their types and every value of every field,
ignored bits included, is legal (R102, R103, R105). What can be ill-formed is a statement of the assembler syntax, whose
operands are numbers: "An operand out of range is an assembly error, not a truncation" (R106). -/

namespace Sys2Proof

/-- A statement of the spec's assembler syntax: R106, then the pseudo-statements of R107. -/
inductive Stmt where
  /-- `ADDR_Y y` -/
  | addrY (y : Nat)
  /-- `ADDR_Y y, orig` -/
  | addrYOrig (y orig : Nat)
  /-- `ADDR_X x, p` -/
  | addrX (x p : Nat)
  /-- `VECT_BASE_X x, p` -/
  | vectBaseX (x p : Nat)
  /-- `VECT_12 mask` -/
  | vect12 (mask : Nat)
  /-- `VECT_8 mask` -/
  | vect8 (mask : Nat)
  /-- `TIME_LOW t` -/
  | timeLow (t : Nat)
  /-- `TIME_HIGH t` -/
  | timeHigh (t : Nat)
  /-- `EXT_TRIGGER id, v` -/
  | extTrigger (id v : Nat)
  /-- `.word n` -/
  | word (n : Nat)
  /-- `.byte n` -/
  | byte (n : Nat)
  /-- `.end` -/
  | endOfStream
  /-- `.iofail`, with the value the source reports -/
  | ioFail (e : Nat)
  deriving DecidableEq, Repr

/-- The operand ranges of R106 and R107. -/
def Stmt.wellFormed : Stmt → Bool
  | .addrY y => decide (y ≤ 2047)
  | .addrYOrig y orig => decide (y ≤ 2047) && decide (orig ≤ 1)
  | .addrX x p => decide (x ≤ 2047) && decide (p ≤ 1)
  | .vectBaseX x p => decide (x ≤ 2047) && decide (p ≤ 1)
  | .vect12 mask => decide (mask ≤ 0xFFF)
  | .vect8 mask => decide (mask ≤ 0xFF)
  | .timeLow t => decide (t ≤ 4095)
  | .timeHigh t => decide (t ≤ 4095)
  | .extTrigger id v => decide (id ≤ 15) && decide (v ≤ 1)
  | .word n => decide (n ≤ 0xFFFF)
  | .byte n => decide (n ≤ 0xFF)
  | .endOfStream => true
  | .ioFail _ => true

end Sys2Proof
end

