-- ==== Sys2Proof/Decode.lean ====
section
/-! DEFINITION. Reading a word from its bytes, the decoder and the encoder (30_encoding.md R90 to R108,
20_memory.md R62). -/

namespace Sys2Proof

/-! ## Bytes and words (20_memory.md R62) -/

/-- `w = (b1 << 8) | b0`: the first byte of a pair is the low one. -/
def wordOfBytes (b0 b1 : Byte) : Word := b1 ++ b0

/-- The byte at the even position of a word: bits 7:0. -/
def lowByte (w : Word) : Byte := w.extractLsb' 0 8

/-- The byte at the odd position of a word: bits 15:8. -/
def highByte (w : Word) : Byte := w.extractLsb' 8 8

/-- The two bytes of a word in stream order. -/
def bytesOfWord (w : Word) : List Byte := [lowByte w, highByte w]

/-! ## Decoding (R91, R105) -/

/-- `code(w) = w[15:12]`. -/
def codeOf (w : Word) : TypeCode := w.extractLsb' 12 4

/-- `payload(w) = w[11:0]`. -/
def payloadOf (w : Word) : Payload := w.extractLsb' 0 12

/-- `payload[10:0]`, the coordinate of ADDR_Y, ADDR_X and VECT_BASE_X (R93 to R95). -/
def coordField (pl : Payload) : BitVec 11 := pl.extractLsb' 0 11

/-- `payload[11]`, the origin flag or the polarity (R93 to R95). -/
def topField (pl : Payload) : BitVec 1 := pl.extractLsb' 11 1

/-- `payload[7:0]`, the mask of VECT_8 (R97). -/
def mask8Field (pl : Payload) : BitVec 8 := pl.extractLsb' 0 8

/-- `payload[11:8]`, the ignored bits of VECT_8 (R97) and the id of EXT_TRIGGER (R100). -/
def highNibbleField (pl : Payload) : BitVec 4 := pl.extractLsb' 8 4

/-- `payload[7:1]`, the padding of EXT_TRIGGER (R100). -/
def padField (pl : Payload) : BitVec 7 := pl.extractLsb' 1 7

/-- `payload[0]`, the value of EXT_TRIGGER (R100). -/
def valueField (pl : Payload) : BitVec 1 := pl.extractLsb' 0 1

/-- The type-code map (R92, R105) on a code and a payload: total, with one word type for every code. -/
def decodeFields (c : TypeCode) (pl : Payload) : Instr :=
  match c.toNat with
  | 0x0 => .addrY (topField pl) (coordField pl)
  | 0x1 => .reserved1 pl
  | 0x2 => .addrX (topField pl) (coordField pl)
  | 0x3 => .vectBaseX (topField pl) (coordField pl)
  | 0x4 => .vect12 pl
  | 0x5 => .vect8 (highNibbleField pl) (mask8Field pl)
  | 0x6 => .timeLow pl
  | 0x7 => .reserved7 pl
  | 0x8 => .timeHigh pl
  | 0x9 => .reserved9 pl
  | 0xA => .extTrigger (highNibbleField pl) (padField pl) (valueField pl)
  | 0xB => .reservedB pl
  | 0xC => .reservedC pl
  | 0xD => .reservedD pl
  | 0xE => .reservedE pl
  | _ => .reservedF pl

/-- `Decode` (R105): total and stateless. -/
def decode (w : Word) : Instr := decodeFields (codeOf w) (payloadOf w)

/-- Why bytes do not give a word. -/
inductive DecodeError where
  /-- Fewer than two bytes: no complete word (R64, R123). -/
  | truncated
  deriving DecidableEq, Repr

/-- The word at the head of a byte list and what follows it: total on any bytes; every complete word decodes (R103). -/
def decodeBytes : List Byte → Except DecodeError (Instr × List Byte)
  | b0 :: b1 :: rest => .ok (decode (wordOfBytes b0 b1), rest)
  | _ => .error .truncated

/-- What the decoder reads from an instruction of the opcode table whose bits are `w` (the bits from `nbits` up are
zero): the word laid out low byte first and given to `decodeBytes`. -/
def decodeTableWord (nbits w : Nat) : Option Instr :=
  match decodeBytes (bytesOfWord (BitVec.ofNat 16 (w % 2 ^ nbits))) with
  | .ok (i, []) => some i
  | _ => none

/-! ## Encoding (R92 to R100) -/

/-- The type code of a word type (R92). -/
def typeCode : Instr → TypeCode
  | .addrY _ _ => 0x0
  | .reserved1 _ => 0x1
  | .addrX _ _ => 0x2
  | .vectBaseX _ _ => 0x3
  | .vect12 _ => 0x4
  | .vect8 _ _ => 0x5
  | .timeLow _ => 0x6
  | .reserved7 _ => 0x7
  | .timeHigh _ => 0x8
  | .reserved9 _ => 0x9
  | .extTrigger _ _ _ => 0xA
  | .reservedB _ => 0xB
  | .reservedC _ => 0xC
  | .reservedD _ => 0xD
  | .reservedE _ => 0xE
  | .reservedF _ => 0xF

/-- The twelve payload bits of a word type, most significant field first (R93 to R100). -/
def payloadBits : Instr → Payload
  | .addrY orig y => orig ++ y
  | .reserved1 pl => pl
  | .addrX p x => p ++ x
  | .vectBaseX p x => p ++ x
  | .vect12 mask => mask
  | .vect8 ign mask => ign ++ mask
  | .timeLow t => t
  | .reserved7 pl => pl
  | .timeHigh t => t
  | .reserved9 pl => pl
  | .extTrigger id pad v => id ++ pad ++ v
  | .reservedB pl => pl
  | .reservedC pl => pl
  | .reservedD pl => pl
  | .reservedE pl => pl
  | .reservedF pl => pl

/-- The word of an instruction (R91). -/
def encode (i : Instr) : Word := typeCode i ++ payloadBits i

/-- The bytes of an instruction in stream order (R62, R107). -/
def encodeBytes (i : Instr) : List Byte := bytesOfWord (encode i)

/-! ## Assembling and disassembling one word (R106 to R108) -/

/-- The word a statement encodes, its operands in range (R106, `.word` of R107); the other pseudo-statements encode no
word. -/
def stmtWord : Stmt → Option Word
  | .addrY y => some (encode (.addrY 0 (BitVec.ofNat 11 y)))
  | .addrYOrig y orig => some (encode (.addrY (BitVec.ofNat 1 orig) (BitVec.ofNat 11 y)))
  | .addrX x p => some (encode (.addrX (BitVec.ofNat 1 p) (BitVec.ofNat 11 x)))
  | .vectBaseX x p => some (encode (.vectBaseX (BitVec.ofNat 1 p) (BitVec.ofNat 11 x)))
  | .vect12 mask => some (encode (.vect12 (BitVec.ofNat 12 mask)))
  | .vect8 mask => some (encode (.vect8 0 (BitVec.ofNat 8 mask)))
  | .timeLow t => some (encode (.timeLow (BitVec.ofNat 12 t)))
  | .timeHigh t => some (encode (.timeHigh (BitVec.ofNat 12 t)))
  | .extTrigger id v => some (encode (.extTrigger (BitVec.ofNat 4 id) 0 (BitVec.ofNat 1 v)))
  | .word n => some (BitVec.ofNat 16 n)
  | .byte _ => none
  | .endOfStream => none
  | .ioFail _ => none

/-- Assembling a statement to a word: an operand out of range is an error (R106). -/
def assembleWord (st : Stmt) : Option Word := if st.wellFormed then stmtWord st else none

/-- The statement of a word (R108): the one `Decode` selects, and `.word` for a reserved code or non-zero ignored
bits. -/
def disassemble (w : Word) : Stmt :=
  match decode w with
  | .addrY orig y => if orig = 0 then .addrY y.toNat else .word w.toNat
  | .addrX p x => .addrX x.toNat p.toNat
  | .vectBaseX p x => .vectBaseX x.toNat p.toNat
  | .vect12 mask => .vect12 mask.toNat
  | .vect8 ign mask => if ign = 0 then .vect8 mask.toNat else .word w.toNat
  | .timeLow t => .timeLow t.toNat
  | .timeHigh t => .timeHigh t.toNat
  | .extTrigger id pad v => if pad = 0 then .extTrigger id.toNat v.toNat else .word w.toNat
  | .reserved1 _ | .reserved7 _ | .reserved9 _ | .reservedB _ | .reservedC _ | .reservedD _ | .reservedE _
  | .reservedF _ => .word w.toNat

end Sys2Proof
end

