-- ==== Sys2Proof/Config.lean ====
section
/-! DEFINITION. What is fixed for the machine and never changes as it runs: the constants of 00_scope.md R4, and, with
no body, the parameters that R4 leaves OPEN and the values the spec leaves unspecified. Nothing in Lean can evaluate a
constant without a body, so a statement holds whatever it is. -/

namespace Sys2Proof.Config

/-- `LOOP_THRESHOLD` (R4; 92_eei_decisions.md D1). -/
abbrev loopThreshold : Nat := 2048

/-- One past the largest column, `2 ^ COORD_BITS` (R4; 42_vect.md R155). -/
abbrev coordLimit : Nat := 2048

/-- `IGNORABLE_CODES` (R4; 46_reserved.md R231; D2): empty for this hardware. -/
def ignorableCodes : List TypeCode := []

/-- `CD_INIT_CAP` (R4). -/
def cdInitCap : BitVec 64 := 65536

/-- `TRIG_INIT_CAP` (R4). -/
def trigInitCap : BitVec 64 := 65536

/-- `GROWTH_FACTOR` (R4). -/
def growthFactor : BitVec 64 := 2

/-- The physical limit behind `CD_CAP_MAX`, OPEN (45_buffers.md R205): `none` is "unbounded". Log entry 13. -/
opaque cdCapLimit : Option Nat

/-- The physical limit behind `TRIG_CAP_MAX`, OPEN (R205): `none` is "unbounded". Log entry 13. -/
opaque trigCapLimit : Option Nat

/-- `CD_CAP_MAX`, never below 65536 (92_eei_decisions.md, open parameters). -/
def cdCapMax : Option Nat := cdCapLimit.map (max 65536)

/-- `TRIG_CAP_MAX`, never below 65536. -/
def trigCapMax : Option Nat := trigCapLimit.map (max 65536)

/-- What `err_io` holds after a fault other than `IoError`: unspecified (10_state.md R35, 93 V3). The argument is the
state's plain counter of such values. Log entry 9. -/
opaque freeErrIo : Nat → Nat

/-- What an element of `CD_T` that nothing has written holds: unspecified (93 V1), by element index. Log entry 12. -/
opaque unwrittenCdTime : Nat → Timestamp

/-- What an element of `TR_T` that nothing has written holds: unspecified (93 V1), by element index. Log entry 12. -/
opaque unwrittenTrigTime : Nat → Timestamp

/-- `SENSOR_WIDTH_DEFAULT`, OPEN (R4; 40_ingress.md R130). -/
opaque sensorWidthDefault : BitVec 16

/-- `SENSOR_HEIGHT_DEFAULT`, OPEN (R4; R130). -/
opaque sensorHeightDefault : BitVec 16

/-- The geometry half of `ParseHeader` (R129; D21), OPEN, on the header bytes. -/
opaque headerGeometry : List Byte → Option (BitVec 16 × BitVec 16)

/-- The verdict half of `ParseHeader` (R129; D21), OPEN: does a header line declare another format? -/
opaque headerUnsupported : List Byte → Bool

/-- Whether a header geometry wins over the caller's arguments: not stated (R130; 91 N6). -/
opaque headerBeatsCaller : Bool

end Sys2Proof.Config
end

