-- ==== Sys2Proof/Machine/State.lean ====
section
/-! DEFINITION. The whole state of one block (10_state.md R20 to R42) as plain data, the state after reset, and the
reasons a step can stop. -/

namespace Sys2Proof.Machine

/-- `phase` (R34). -/
inductive Phase where
  | run
  | done
  | fault
  deriving DecidableEq, Repr

/-- The 2-bit encoding of `phase` (R34); 3 is never produced. -/
def Phase.code : Phase → BitVec 2
  | .run => 0
  | .done => 1
  | .fault => 2

/-- `err_kind` (R35, 60_exceptions.md R241). -/
inductive ErrKind where
  | none
  | truncatedStream
  | unsupportedFormat
  | unknownEventType
  | ioError
  deriving DecidableEq, Repr

/-- The 3-bit encoding of `err_kind` (R35); 5 to 7 are never produced. -/
def ErrKind.code : ErrKind → BitVec 3
  | .none => 0
  | .truncatedStream => 1
  | .unsupportedFormat => 2
  | .unknownEventType => 3
  | .ioError => 4

/-- `IOERR`, the opaque value a byte source reports (R4, R35): copied, never interpreted. Log entry 10. -/
abbrev IoErr := Nat

/-- One column memory (20_memory.md R60): (element index, element) pairs, indexes strictly rising, addressed by element
and not by byte. An index that is not listed holds no value (R42, 93 V1). Log entry 11. -/
abbrev Column (w : Nat) := List (Nat × BitVec w)

/-- The seven column memories (R60). `Column 8` is a list of `Host.Cell`. -/
structure Memory where
  cdX : Column 16
  cdY : Column 16
  cdP : Column 8
  cdT : Column 64
  trT : Column 64
  trId : Column 8
  trV : Column 8
  deriving DecidableEq, Repr

/-- A token of the byte port (40_ingress.md R121). -/
inductive ByteToken where
  | byte (b : Byte)
  | eof
  | ioFail (e : IoErr)
  deriving DecidableEq, Repr

/-- What the header skipper reports to the block at session start (R131). -/
inductive HeaderVerdict where
  | ok
  | unsupported
  deriving DecidableEq, Repr

/-- Everything the spec gives one block instance, plus the tokens the environment still offers and the model's own
counter of free values. -/
structure State where
  /-- R21 -/
  curY : BitVec 16
  /-- R22 -/
  baseX : BitVec 16
  /-- R23 -/
  vectPolarity : BitVec 8
  /-- R24 -/
  timeLow : BitVec 16
  /-- R25 -/
  timeHigh : BitVec 32
  /-- R26 -/
  timeHighLoops : BitVec 32
  /-- R27; "none" is `haveTimeHigh = false` -/
  lastTimeHighPayload : BitVec 16
  /-- R28 -/
  haveY : Bool
  /-- R29 -/
  haveTimeHigh : Bool
  /-- R30, the program counter: the index of the word about to be consumed -/
  wordIndex : BitVec 64
  /-- R31 -/
  droppedBeforeY : BitVec 64
  /-- R32 -/
  unknownEvents : BitVec 64
  /-- R33 -/
  outOfOrderEvents : BitVec 64
  /-- R34 -/
  phase : Phase
  /-- R35 -/
  errKind : ErrKind
  /-- R35 -/
  errCode : TypeCode
  /-- R35 -/
  errWordIndex : BitVec 64
  /-- R35 -/
  errIo : IoErr
  /-- R36, configuration input -/
  sensorWidth : BitVec 16
  /-- R36, configuration input -/
  sensorHeight : BitVec 16
  /-- R37 -/
  cdLen : BitVec 64
  /-- R37 -/
  trigLen : BitVec 64
  /-- R38 -/
  cdCap : BitVec 64
  /-- R38 -/
  trigCap : BitVec 64
  /-- R39 -/
  byteHold : Byte
  /-- R39 -/
  haveByte : Bool
  /-- R60, the seven column memories -/
  mem : Memory
  /-- R121, the byte-port tokens offered and not yet taken, next one first (log entry 2) -/
  input : List ByteToken
  /-- R131, the header skipper's report, an input (log entry 5) -/
  headerVerdict : HeaderVerdict
  /-- the model's own: the number of fault entries so far, which free values are drawn at (log entry 9) -/
  freeCount : Nat
  deriving DecidableEq, Repr

/-- Why a step stops. -/
inductive Fault where
  /-- Raised by an append of ADDR_X, VECT_12 or VECT_8 that finds `cd_len = cd_cap` where doubling would pass
  `CD_CAP_MAX`: the decoder is stuck, no step is enabled, it is not in `FAULT` and its state is the one before the step
  (45_buffers.md R205). Safe: the machine does not go on either. -/
  | stuckCdBuffer
  /-- Raised by an append of EXT_TRIGGER that finds `trig_len = trig_cap` where doubling would pass `TRIG_CAP_MAX`
  (R205). Safe, as above. -/
  | stuckTrigBuffer
  deriving DecidableEq, Repr

/-- Why an instruction has no meaning. -/
inductive Refusal where
  /-- Raised by no arm of `exec`: all sixteen rows of the opcode table have their meaning. Safe. -/
  | notModelled (mnemonic : String)
  deriving DecidableEq, Repr

/-- What a step answers. -/
abbrev Result := Host.Outcome State Fault Refusal

/-- The column memories after reset: no element is defined (R42). -/
def Memory.empty : Memory :=
  { cdX := [], cdY := [], cdP := [], cdT := [], trT := [], trId := [], trV := [] }

/-- The state right after reset (R42, 70_reset_and_hazards.md R270). The spec states no value for `errIo`, `byteHold`,
`sensorWidth` and `sensorHeight`: log entries 6, 7, 8. No token has been offered yet: log entry 2. -/
def State.reset : State :=
  { curY := 0, baseX := 0, vectPolarity := 0
    timeLow := 0, timeHigh := 0, timeHighLoops := 0, lastTimeHighPayload := 0
    haveY := false, haveTimeHigh := false
    wordIndex := 0
    droppedBeforeY := 0, unknownEvents := 0, outOfOrderEvents := 0
    phase := .run
    errKind := .none, errCode := 0, errWordIndex := 0, errIo := 0
    sensorWidth := 0, sensorHeight := 0
    cdLen := 0, trigLen := 0, cdCap := Config.cdInitCap, trigCap := Config.trigInitCap
    byteHold := 0, haveByte := false
    mem := Memory.empty
    input := [], headerVerdict := .ok, freeCount := 0 }

end Sys2Proof.Machine
end

