-- ==== Sys2Proof/Machine/Flags.lean ====
section
/-! DEFINITION. Every flag of the machine: `have_y` and `have_time_high`, set by ADDR_Y and TIME_HIGH and never
cleared (10_state.md R28, R29), and the gates made of them. There is no other flag (R29). -/

namespace Sys2Proof.Machine

/-- `have_y <- true` (R28). -/
def setHaveY (s : State) : State := { s with haveY := true }

/-- `have_time_high <- true` (R29). -/
def setHaveTimeHigh (s : State) : State := { s with haveTimeHigh := true }

/-- "Primed": both flags (00_scope.md R11), the gate of a CD event (41_addr.md R142). -/
def primed (s : State) : Bool := s.haveY && s.haveTimeHigh

/-- `prev` of the timestamp reconstructor: "none" exactly while `have_time_high` is false (R27, 43_time.md R173). -/
def previousTimeHigh (s : State) : Option (BitVec 16) :=
  if s.haveTimeHigh then some s.lastTimeHighPayload else none

end Sys2Proof.Machine
end

