-- ==== Sys2Proof/Machine/Operands.lean ====
section
/-! DEFINITION. Every operand form: a field zero-extended to its destination (30_encoding.md R101), and the lanes of a
vector mask (42_vect.md R154, R155). -/

namespace Sys2Proof.Machine

/-- `zext_16` of an 11-bit coordinate: `cur_y`, `base_x` or an event's `x`. -/
def coordOperand (v : BitVec 11) : BitVec 16 := v.setWidth 16

/-- `zext_8` of the polarity bit: `vect_polarity` or an event's `polarity`. -/
def polarityOperand (p : BitVec 1) : BitVec 8 := p.setWidth 8

/-- `zext_16` of a 12-bit time field: `time_low`, or the payload of TIME_HIGH. -/
def timeOperand (t : BitVec 12) : BitVec 16 := t.setWidth 16

/-- `zext_8` of a trigger's id. -/
def idOperand (id : BitVec 4) : BitVec 8 := id.setWidth 8

/-- `zext_8` of a trigger's value. -/
def valueOperand (v : BitVec 1) : BitVec 8 := v.setWidth 8

/-- The sum `base_x + k` over the integers (R155). -/
def laneSum (base : BitVec 16) (k : Nat) : Nat := base.toNat + k

/-- Does lane `k` of a mask emit: `mask[k] = 1` and `base_x + k < 2048` (R154, R155)? -/
def laneEmits {n : Nat} (mask : BitVec n) (base : BitVec 16) (k : Nat) : Bool :=
  mask.getLsbD k && decide (laneSum base k < Config.coordLimit)

/-- The column of lane `k`: `zext_16(base_x + k)` (R154). -/
def laneColumn (base : BitVec 16) (k : Nat) : BitVec 16 := BitVec.ofNat 16 (laneSum base k)

/-- The lanes of a mask that emit, in ascending order (R154). -/
def emittingLanes {n : Nat} (mask : BitVec n) (base : BitVec 16) : List Nat :=
  (List.range n).filter (laneEmits mask base)

end Sys2Proof.Machine
end

