-- ==== Sys2Proof/Machine/Ops.lean ====
section
/-! DEFINITION. The named operations over the column memories and the registers: reads and writes of an element, the
updates of State the word rules are made of, the reconstructed time, the appends, the gated emission, fault entry and
reset. -/

namespace Sys2Proof.Machine

/-! ## Column memories (20_memory.md R60, R61) -/

/-- `MemRead(space, i, n)`: the element at index `i`, or no value where nothing has been written. -/
def colRead {w : Nat} : Column w → Nat → Option (BitVec w)
  | [], _ => none
  | (j, v) :: rest, i => if j = i then some v else colRead rest i

/-- `MemWrite(space, i, n, v)`, keeping the indexes strictly rising. -/
def colWrite {w : Nat} : Column w → Nat → BitVec w → Column w
  | [], i, v => [(i, v)]
  | (j, u) :: rest, i, v =>
    if i < j then (i, v) :: (j, u) :: rest
    else if i = j then (i, v) :: rest
    else (j, u) :: colWrite rest i v

/-- The canonical form of a column: indexes strictly rising. -/
def colWf {w : Nat} : Column w → Bool
  | [] => true
  | (i, _) :: rest => rest.all (fun e => decide (i < e.1)) && colWf rest

/-- The canonical form of all seven column memories. -/
def Memory.wf (m : Memory) : Bool :=
  colWf m.cdX && colWf m.cdY && colWf m.cdP && colWf m.cdT && colWf m.trT && colWf m.trId && colWf m.trV

/-! ## Updates of the decoder state -/

/-- ADDR_Y's write of `cur_y` (R140). -/
def setRow (y : BitVec 16) (s : State) : State := { s with curY := y }

/-- VECT_BASE_X's writes (R150). -/
def setVectBase (x : BitVec 16) (p : BitVec 8) (s : State) : State := { s with baseX := x, vectPolarity := p }

/-- The post-increment `base_x <- (base_x + n) mod 2^16` (R156). -/
def advanceBase (n : Nat) (s : State) : State := { s with baseX := s.baseX + BitVec.ofNat 16 n }

/-- TIME_LOW's write (R171). -/
def setTimeLow (t : BitVec 16) (s : State) : State := { s with timeLow := t }

/-- TIME_HIGH's writes but for the flag (R172). -/
def setTimeHigh (high loops : BitVec 32) (last : BitVec 16) (s : State) : State :=
  { s with timeHigh := high, timeHighLoops := loops, lastTimeHighPayload := last }

/-- `word_index <- (word_index + 1) mod 2^64` (R30, R120). -/
def advanceWord (s : State) : State := { s with wordIndex := s.wordIndex + 1 }

/-- A CD event dropped before any ADDR_Y (R142). -/
def countDrop (s : State) : State := { s with droppedBeforeY := s.droppedBeforeY + 1 }

/-- A word with an ignorable reserved code (R231). -/
def countUnknown (s : State) : State := { s with unknownEvents := s.unknownEvents + 1 }

/-- An appended timestamp below its predecessor (R200, R201). -/
def countOutOfOrder (s : State) : State := { s with outOfOrderEvents := s.outOfOrderEvents + 1 }

/-- `phase <- DONE` (45_buffers.md R210). -/
def endSession (s : State) : State := { s with phase := .done }

/-! ## The reconstructed time (43_time.md R170) -/

/-- `now() = (zext_64(time_high) << 12) | zext_64(time_low)`. -/
def now (s : State) : Timestamp := (s.timeHigh.setWidth 64 <<< 12) ||| s.timeLow.setWidth 64

/-! ## Growth and the appends (45_buffers.md R200 to R205) -/

/-- May a buffer grow to `cap` elements under a physical limit (R205)? -/
def capAllowed (limit : Option Nat) (cap : Nat) : Bool :=
  match limit with
  | none => true
  | some m => decide (cap ≤ m)

/-- The capacity an append leaves (R204): doubled where the append finds `len = cap`, kept otherwise; none where the
doubling would pass the limit (R205). -/
def grownCap (limit : Option Nat) (len cap : BitVec 64) : Option (BitVec 64) :=
  if len = cap then
    if capAllowed limit (cap.toNat * Config.growthFactor.toNat) then some (cap * Config.growthFactor) else none
  else some cap

/-- `cd_cap` written by `GrowCD` (R204). -/
def setCdCap (cap : BitVec 64) (s : State) : State := { s with cdCap := cap }

/-- `trig_cap` written by `GrowTrig` (R204). -/
def setTrigCap (cap : BitVec 64) (s : State) : State := { s with trigCap := cap }

/-- `MemRead(CD_T, cd_len - 1, 8)` (R200); a free value where nothing has been written there (log entry 12). -/
def lastCdTime (s : State) : Timestamp :=
  (colRead s.mem.cdT (s.cdLen - 1).toNat).getD (Config.unwrittenCdTime (s.cdLen - 1).toNat)

/-- `MemRead(TR_T, trig_len - 1, 8)` (R201); a free value where nothing has been written there (log entry 12). -/
def lastTrigTime (s : State) : Timestamp :=
  (colRead s.mem.trT (s.trigLen - 1).toNat).getD (Config.unwrittenTrigTime (s.trigLen - 1).toNat)

/-- Is a CD event at `t` below the last one of the CD buffer (R200)? The first element never is. -/
def cdOutOfOrder (t : Timestamp) (s : State) : Bool := s.cdLen != 0 && decide (t < lastCdTime s)

/-- Is a trigger at `t` below the last one of the trigger buffer (R201)? -/
def trigOutOfOrder (t : Timestamp) (s : State) : Bool := s.trigLen != 0 && decide (t < lastTrigTime s)

/-- The index the next CD event is stored at: `cd_len`. -/
def cdSlot (s : State) : Nat := s.cdLen.toNat

/-- The index the next trigger is stored at: `trig_len`. -/
def trigSlot (s : State) : Nat := s.trigLen.toNat

/-- The four writes of `AppendCD` and its length update, together (R67, R200). -/
def storeCd (x y : BitVec 16) (p : BitVec 8) (t : Timestamp) (s : State) : State :=
  { s with
    mem := { s.mem with
      cdX := colWrite s.mem.cdX (cdSlot s) x
      cdY := colWrite s.mem.cdY (cdSlot s) y
      cdP := colWrite s.mem.cdP (cdSlot s) p
      cdT := colWrite s.mem.cdT (cdSlot s) t }
    cdLen := s.cdLen + 1 }

/-- The three writes of `AppendTrig` and its length update, together (R67, R201). -/
def storeTrig (t : Timestamp) (id v : BitVec 8) (s : State) : State :=
  { s with
    mem := { s.mem with
      trT := colWrite s.mem.trT (trigSlot s) t
      trId := colWrite s.mem.trId (trigSlot s) id
      trV := colWrite s.mem.trV (trigSlot s) v }
    trigLen := s.trigLen + 1 }

/-- The out-of-order count of a CD event at `t` (R200). -/
def noteCdOrder (t : Timestamp) (s : State) : State := if cdOutOfOrder t s then countOutOfOrder s else s

/-- The out-of-order count of a trigger at `t` (R201). -/
def noteTrigOrder (t : Timestamp) (s : State) : State := if trigOutOfOrder t s then countOutOfOrder s else s

/-- `AppendCD(x, y, p, t)` (R200) under a limit; none where the buffer cannot grow (R205). -/
def appendCdUnder (limit : Option Nat) (x y : BitVec 16) (p : BitVec 8) (t : Timestamp) (s : State) : Option State :=
  match grownCap limit s.cdLen s.cdCap with
  | some cap => some (storeCd x y p t (noteCdOrder t (setCdCap cap s)))
  | none => none

/-- `AppendTrig(t, id, v)` (R201) under a limit; none where the buffer cannot grow (R205). -/
def appendTrigUnder (limit : Option Nat) (t : Timestamp) (id v : BitVec 8) (s : State) : Option State :=
  match grownCap limit s.trigLen s.trigCap with
  | some cap => some (storeTrig t id v (noteTrigOrder t (setTrigCap cap s)))
  | none => none

/-- `AppendCD` on this hardware. -/
def appendCd (x y : BitVec 16) (p : BitVec 8) (t : Timestamp) (s : State) : Option State :=
  appendCdUnder Config.cdCapMax x y p t s

/-- `AppendTrig` on this hardware. -/
def appendTrig (t : Timestamp) (id v : BitVec 8) (s : State) : Option State :=
  appendTrigUnder Config.trigCapMax t id v s

/-- `EmitCD(x, p)`, the gated emission (41_addr.md R142, R143). -/
def emitCd (x : BitVec 16) (p : BitVec 8) (s : State) : Option State :=
  if s.haveY = false then some (countDrop s)
  else if s.haveTimeHigh = false then some s
  else appendCd x s.curY p (now s) s

/-! ## Running a word rule (40_ingress.md R120) -/

/-- A word rule that always completes: its effect, then `word_index` advanced; outside `RUN` nothing executes
(60_exceptions.md R253). -/
def wordRule (rule : State → State) (s : State) : Result :=
  if s.phase = .run then .next (advanceWord (rule s)) else .next s

/-- A word rule that may need a buffer to grow: as `wordRule`, or stuck by name where it cannot (R205). -/
def wordRuleOrStuck (stuck : Fault) (rule : State → Option State) (s : State) : Result :=
  if s.phase = .run then
    match rule s with
    | some t => .next (advanceWord t)
    | none => .fault stuck
  else .next s

/-! ## Fault entry and reset (60_exceptions.md R246, R249; 70_reset_and_hazards.md R270) -/

/-- A fatal error with what it carries (R240, R241). -/
inductive FatalError where
  | truncatedStream
  | unsupportedFormat
  | unknownEventType (code : TypeCode)
  | ioError (underlying : IoErr)
  deriving DecidableEq, Repr

/-- `err_kind` of a fatal error (R241). -/
def errorKind : FatalError → ErrKind
  | .truncatedStream => .truncatedStream
  | .unsupportedFormat => .unsupportedFormat
  | .unknownEventType _ => .unknownEventType
  | .ioError _ => .ioError

/-- `err_code` of a fatal error (R241, R246). -/
def errorCode : FatalError → TypeCode
  | .unknownEventType code => code
  | _ => 0

/-- `err_io` of a fatal error (R246): the underlying value, or unspecified (a free value, log entry 9). -/
def errorIo (e : FatalError) (s : State) : IoErr :=
  match e with
  | .ioError underlying => underlying
  | _ => Config.freeErrIo s.freeCount

/-- Fault entry, `raise K(info)` (R246). It is the one way into `FAULT`; there is no return from it but reset (R249),
which is `hostReset` below. -/
def raise (e : FatalError) (s : State) : State :=
  { s with
    errKind := errorKind e
    errCode := errorCode e
    errWordIndex := s.wordIndex
    errIo := errorIo e s
    phase := .fault
    freeCount := s.freeCount + 1 }

/-- Reset (R270): every element at its value of R42, whatever the state; what the environment drives (the sensor sizes,
the header's report, the tokens it offers) is not reset (R36, R42). `byte_hold` and `err_io` are unspecified after
reset: they take the values of `State.reset` (log entries 7, 8). -/
def hostReset (s : State) : State :=
  { State.reset with
    sensorWidth := s.sensorWidth
    sensorHeight := s.sensorHeight
    headerVerdict := s.headerVerdict
    input := s.input
    freeCount := s.freeCount }

end Sys2Proof.Machine
end

