-- ==== Sys2Proof/Machine/Address.lean ====
section
/-! DEFINITION. The address words (41_addr.md): ADDR_Y and ADDR_X. -/

namespace Sys2Proof.Machine

/-- ADDR_Y (R140): the origin flag takes no part (R102). -/
def execAddrY (_orig : BitVec 1) (y : BitVec 11) (s : State) : Result :=
  wordRule (fun s => setHaveY (setRow (coordOperand y) s)) s

/-- ADDR_X (R141). -/
def execAddrX (p : BitVec 1) (x : BitVec 11) (s : State) : Result :=
  wordRuleOrStuck .stuckCdBuffer (emitCd (coordOperand x) (polarityOperand p)) s

end Sys2Proof.Machine
end

