-- ==== Sys2Proof/Machine/Reserved.lean ====
section
/-! DEFINITION. The eight reserved type codes (46_reserved.md). -/

namespace Sys2Proof.Machine

/-- A word with a reserved code under a set of ignorable codes: a counted no-op where the code is listed (R231), the
fatal error `UnknownEventType(code, word_index)` where it is not (R230). The payload is not examined. -/
def reservedWord (ignorable : List TypeCode) (code : TypeCode) (s : State) : Result :=
  if s.phase = .run then
    if ignorable.contains code then .next (advanceWord (countUnknown s))
    else .next (raise (.unknownEventType code) s)
  else .next s

/-- Reserved code 0x1 (R230). -/
def execReserved1 (_payload : Payload) (s : State) : Result := reservedWord Config.ignorableCodes 0x1 s

/-- Reserved code 0x7 (R230). -/
def execReserved7 (_payload : Payload) (s : State) : Result := reservedWord Config.ignorableCodes 0x7 s

/-- Reserved code 0x9 (R230). -/
def execReserved9 (_payload : Payload) (s : State) : Result := reservedWord Config.ignorableCodes 0x9 s

/-- Reserved code 0xB (R230). -/
def execReservedB (_payload : Payload) (s : State) : Result := reservedWord Config.ignorableCodes 0xB s

/-- Reserved code 0xC (R230). -/
def execReservedC (_payload : Payload) (s : State) : Result := reservedWord Config.ignorableCodes 0xC s

/-- Reserved code 0xD (R230). -/
def execReservedD (_payload : Payload) (s : State) : Result := reservedWord Config.ignorableCodes 0xD s

/-- Reserved code 0xE (R230). -/
def execReservedE (_payload : Payload) (s : State) : Result := reservedWord Config.ignorableCodes 0xE s

/-- Reserved code 0xF (R230). -/
def execReservedF (_payload : Payload) (s : State) : Result := reservedWord Config.ignorableCodes 0xF s

end Sys2Proof.Machine
end

