-- ==== Sys2Proof/Machine/Time.lean ====
section
/-! DEFINITION. The time words and the timestamp reconstructor with its wraparound detector (43_time.md). -/

namespace Sys2Proof.Machine

/-- The wraparound test of R172 and R173: is payload `p` after `prev` a loop? -/
def loopDetected (prev : Option (BitVec 16)) (p : BitVec 16) : Bool :=
  match prev with
  | some q => decide (p < q) && decide (Config.loopThreshold ≤ q.toNat - p.toNat)
  | none => false

/-- `loops'` of R172: modulo 2^32 (R176). -/
def nextLoops (prev : Option (BitVec 16)) (loops : BitVec 32) (p : BitVec 16) : BitVec 32 :=
  if loopDetected prev p then loops + 1 else loops

/-- `((loops << 12) | p) mod 2^32` (R172, R176). -/
def composeHigh (loops : BitVec 32) (p : BitVec 16) : BitVec 32 := (loops <<< 12) ||| p.setWidth 32

/-- `Reconstruct(prev, loops, p)` (R173): the new high time and the new loop count. -/
def reconstruct (prev : Option (BitVec 16)) (loops : BitVec 32) (p : BitVec 16) : BitVec 32 × BitVec 32 :=
  (composeHigh (nextLoops prev loops p) p, nextLoops prev loops p)

/-- TIME_HIGH's effect on the time registers and its flag (R172). -/
def takeTimeHigh (p : BitVec 16) (s : State) : State :=
  setHaveTimeHigh
    (setTimeHigh (reconstruct (previousTimeHigh s) s.timeHighLoops p).1
      (reconstruct (previousTimeHigh s) s.timeHighLoops p).2 p s)

/-- TIME_LOW (R171). -/
def execTimeLow (t : BitVec 12) (s : State) : Result := wordRule (setTimeLow (timeOperand t)) s

/-- TIME_HIGH (R172). -/
def execTimeHigh (t : BitVec 12) (s : State) : Result := wordRule (takeTimeHigh (timeOperand t)) s

end Sys2Proof.Machine
end

