-- ==== Sys2Proof/Machine/Trigger.lean ====
section
/-! DEFINITION. The external trigger word (44_trigger.md). -/

namespace Sys2Proof.Machine

/-- The trigger path (R190): appended when `have_time_high`, discarded and counted nowhere otherwise (R191). -/
def emitTrig (id v : BitVec 8) (s : State) : Option State :=
  if s.haveTimeHigh then appendTrig (now s) id v s else some s

/-- EXT_TRIGGER (R190): the padding takes no part (R102). -/
def execExtTrigger (id : BitVec 4) (_pad : BitVec 7) (v : BitVec 1) (s : State) : Result :=
  wordRuleOrStuck .stuckTrigBuffer (emitTrig (idOperand id) (valueOperand v)) s

end Sys2Proof.Machine
end

