-- ==== Sys2Proof/Machine/Vector.lean ====
section
/-! DEFINITION. The vector words and the bit-mask expander (42_vect.md). -/

namespace Sys2Proof.Machine

/-- One lane of the expander (R154): emitted when its bit is set and it is in range, passed over otherwise (R155). -/
def expandLane {n : Nat} (mask : BitVec n) (k : Nat) (s : State) : Option State :=
  if laneEmits mask s.baseX k then emitCd (laneColumn s.baseX k) s.vectPolarity s else some s

/-- Lanes in the order of the list; none as soon as an append is stuck (R205). -/
def expandLanes {n : Nat} (mask : BitVec n) : List Nat → State → Option State
  | [], s => some s
  | k :: ks, s =>
    match expandLane mask k s with
    | some t => expandLanes mask ks t
    | none => none

/-- `Expand(mask, n)` (R154): the lanes in ascending order, then the post-increment of the base (R156). -/
def expand {n : Nat} (mask : BitVec n) (s : State) : Option State :=
  match expandLanes mask (List.range n) s with
  | some t => some (advanceBase n t)
  | none => none

/-- VECT_BASE_X (R150). -/
def execVectBaseX (p : BitVec 1) (x : BitVec 11) (s : State) : Result :=
  wordRule (setVectBase (coordOperand x) (polarityOperand p)) s

/-- VECT_12 (R152). -/
def execVect12 (mask : BitVec 12) (s : State) : Result :=
  wordRuleOrStuck .stuckCdBuffer (expand mask) s

/-- VECT_8 (R153): payload bits 11:8 take no part (R102). -/
def execVect8 (_ign : BitVec 4) (mask : BitVec 8) (s : State) : Result :=
  wordRuleOrStuck .stuckCdBuffer (expand mask) s

end Sys2Proof.Machine
end

