-- ==== Sys2Proof/Machine/Dispatch.lean ====
section
/-! DEFINITION. One arm per word type: the dispatch on the decoded word of 40_ingress.md R120. -/

namespace Sys2Proof.Machine

def exec (i : Instr) (s : State) : Host.Outcome State Fault Refusal :=
  match i with
  | .addrY orig y => Sys2Proof.Machine.execAddrY orig y s
  | .reserved1 pl => Sys2Proof.Machine.execReserved1 pl s
  | .addrX p x => Sys2Proof.Machine.execAddrX p x s
  | .vectBaseX p x => Sys2Proof.Machine.execVectBaseX p x s
  | .vect12 mask => Sys2Proof.Machine.execVect12 mask s
  | .vect8 ign mask => Sys2Proof.Machine.execVect8 ign mask s
  | .timeLow t => Sys2Proof.Machine.execTimeLow t s
  | .reserved7 pl => Sys2Proof.Machine.execReserved7 pl s
  | .timeHigh t => Sys2Proof.Machine.execTimeHigh t s
  | .reserved9 pl => Sys2Proof.Machine.execReserved9 pl s
  | .extTrigger id pad v => Sys2Proof.Machine.execExtTrigger id pad v s
  | .reservedB pl => Sys2Proof.Machine.execReservedB pl s
  | .reservedC pl => Sys2Proof.Machine.execReservedC pl s
  | .reservedD pl => Sys2Proof.Machine.execReservedD pl s
  | .reservedE pl => Sys2Proof.Machine.execReservedE pl s
  | .reservedF pl => Sys2Proof.Machine.execReservedF pl s

end Sys2Proof.Machine
end

