-- ==== Sys2Proof/Machine/Ingress.lean ====
section
/-! DEFINITION. The ingress stage (40_ingress.md): the word reader that pairs bytes into words, the decoder's step on one
word-port token, and `Run`, the fold of that step over a token sequence. -/

namespace Sys2Proof.Machine

/-- A token of the word port (R124). -/
inductive WordToken where
  | word (w : Word)
  | endOfStream
  | endTruncated
  | ioFail (e : IoErr)
  deriving DecidableEq, Repr

/-- The first byte of a pair goes into the hold register (R122). -/
def holdByte (b : Byte) (s : State) : State := { s with byteHold := b, haveByte := true }

/-- The second byte of a pair empties the hold register (R122); the held bits stay as they are. -/
def releaseByte (s : State) : State := { s with haveByte := false }

/-- The tokens of the byte port that are left. -/
def setInput (rest : List ByteToken) (s : State) : State := { s with input := rest }

/-- The word reader on `Eof` (R122, R123): truncated exactly when a byte is pending. -/
def eofToken (s : State) : WordToken := if s.haveByte then .endTruncated else .endOfStream

/-- The word reader (R122): it takes byte-port tokens until it emits a word-port token, or until the source has offered
no more. It looks one byte ahead and never further (R127). -/
def takeToken : List ByteToken → State → Option WordToken × State
  | [], s => (none, setInput [] s)
  | .byte b :: rest, s =>
    if s.haveByte then (some (.word (wordOfBytes s.byteHold b)), releaseByte (setInput rest s))
    else takeToken rest (holdByte b s)
  | .eof :: rest, s => (some (eofToken s), setInput rest s)
  | .ioFail e :: rest, s => (some (.ioFail e), setInput rest s)

/-- `Step(token)` of R120 in phase `RUN`. -/
def decoderStep (token : WordToken) (s : State) : Result :=
  match token with
  | .word w => exec (decode w) s
  | .endOfStream => .next (endSession s)
  | .endTruncated => .next (raise .truncatedStream s)
  | .ioFail e => .next (raise (.ioError e) s)

/-- The byte the word reader holds, if one is pending (R39). -/
def pendingByte (s : State) : Option Byte := if s.haveByte then some s.byteHold else none

/-- The word-port tokens that the word reader makes of byte-port tokens, with or without a pending byte (R122, R124):
none after a terminator. -/
def wordPort : Option Byte → List ByteToken → List WordToken
  | _, [] => []
  | none, .byte b :: rest => wordPort (some b) rest
  | some b0, .byte b1 :: rest => .word (wordOfBytes b0 b1) :: wordPort none rest
  | none, .eof :: _ => [.endOfStream]
  | some _, .eof :: _ => [.endTruncated]
  | _, .ioFail e :: _ => [.ioFail e]

/-- `Run(s0, tokens)` (R134): `Step` folded over the word-port tokens, up to the first state that has left `RUN`; the
tokens after it are never consumed (R126). Stuck where a step is stuck (45_buffers.md R205). -/
def runTokens : List WordToken → State → Result
  | [], s => .next s
  | token :: rest, s =>
    if s.phase = .run then
      match decoderStep token s with
      | .next t => runTokens rest t
      | .fault r => .fault r
      | .refused r => .refused r
    else .next s

/-- Has no token been taken yet (R131, R272)? -/
def atSessionStart (s : State) : Bool := s.wordIndex == 0 && !s.haveByte

/-- Does the header skipper's report end the session before its first token (R131, R244)? -/
def formatRejected (s : State) : Bool := atSessionStart s && decide (s.headerVerdict = .unsupported)

/-- One step in phase `RUN` (R120, R131): the header's report first; else one word-port token, or, while the source
offers none, the wait for it (log entry 3). -/
def runStep (s : State) : Result :=
  if formatRejected s then .next (raise .unsupportedFormat s)
  else
    match takeToken s.input s with
    | (some token, t) => decoderStep token t
    | (none, t) => .next t

/-- `s` with the two bytes of a word put at the head of the byte port, where the word reader takes its next pair. -/
def placeWord (w : Word) (s : State) : State :=
  { s with
    input := .byte (lowByte w) :: .byte (highByte w) :: s.input
    haveByte := false
    headerVerdict := .ok }

end Sys2Proof.Machine
end

