-- ==== Sys2Proof/Machine/Step.lean ====
section
/-! DEFINITION. One step of the machine: one word-port token (40_ingress.md R120), and where its next word lies. -/

namespace Sys2Proof.Machine

/-- One step. In `DONE` and `FAULT` nothing is taken and nothing changes (R126; log entry 4). -/
def step (s : State) : Host.Outcome State Fault Refusal := if s.phase = .run then runStep s else .next s

/-- `s` with the word whose bits are `w` (zero from bit `nbits` up) as the next word `step` takes: its two bytes at the
head of the byte port, no byte pending, the header accepted. -/
def State.withFetchWord (s : State) (nbits w : Nat) : State := placeWord (BitVec.ofNat 16 (w % 2 ^ nbits)) s

end Sys2Proof.Machine
end

