-- ==== Sys2Proof/Machine/HostPort.lean ====
section
/-! DEFINITION. What a host may read, and when (10_state.md R41, 20_memory.md R72, 60_exceptions.md R248, R251,
70_reset_and_hazards.md R276). Every read is a function of the state: it has no side effect (R68). -/

namespace Sys2Proof.Machine

/-- The level output `done` (R251). -/
def doneOutput (s : State) : Bool := decide (s.phase = .done)

/-- The level output `fault` (R251). -/
def faultOutput (s : State) : Bool := decide (s.phase = .fault)

/-- `phase` as a host reads it, at any time (R34, R276). -/
def readPhase (s : State) : BitVec 2 := s.phase.code

/-- The elements of a column below a length, in index order (R41, R65). -/
def columnElements {w : Nat} (col : Column w) (len : BitVec 64) : List (BitVec w) :=
  (List.range len.toNat).filterMap (colRead col)

/-- The result container (R41). -/
structure ResultView where
  sensorWidth : BitVec 16
  sensorHeight : BitVec 16
  cdX : List (BitVec 16)
  cdY : List (BitVec 16)
  cdP : List (BitVec 8)
  cdT : List Timestamp
  trT : List Timestamp
  trId : List (BitVec 8)
  trV : List (BitVec 8)
  cdCount : BitVec 64
  trigCount : BitVec 64
  timeHighLoops : BitVec 32
  droppedBeforeY : BitVec 64
  unknownEvents : BitVec 64
  outOfOrderEvents : BitVec 64
  deriving DecidableEq, Repr

/-- The contents of the result container, whatever the phase. -/
def viewOf (s : State) : ResultView :=
  { sensorWidth := s.sensorWidth, sensorHeight := s.sensorHeight
    cdX := columnElements s.mem.cdX s.cdLen, cdY := columnElements s.mem.cdY s.cdLen
    cdP := columnElements s.mem.cdP s.cdLen, cdT := columnElements s.mem.cdT s.cdLen
    trT := columnElements s.mem.trT s.trigLen, trId := columnElements s.mem.trId s.trigLen
    trV := columnElements s.mem.trV s.trigLen
    cdCount := s.cdLen, trigCount := s.trigLen
    timeHighLoops := s.timeHighLoops, droppedBeforeY := s.droppedBeforeY
    unknownEvents := s.unknownEvents, outOfOrderEvents := s.outOfOrderEvents }

/-- Reading the result view: it has a value in `DONE` only (R41, R72). -/
def readResult (s : State) : Option ResultView := if s.phase = .done then some (viewOf s) else none

/-- The fault record (R35). -/
structure FaultRecord where
  kind : BitVec 3
  code : TypeCode
  wordIndex : BitVec 64
  io : IoErr
  deriving DecidableEq, Repr

/-- Reading the fault record: it has a value in `FAULT` only (R276). -/
def readFaultRecord (s : State) : Option FaultRecord :=
  if s.phase = .fault then
    some { kind := s.errKind.code, code := s.errCode, wordIndex := s.errWordIndex, io := s.errIo }
  else none

/-- The decoder-state registers and the position in the stream (R21 to R30). -/
structure DecoderView where
  curY : BitVec 16
  baseX : BitVec 16
  vectPolarity : BitVec 8
  timeLow : BitVec 16
  timeHigh : BitVec 32
  lastTimeHighPayload : Option (BitVec 16)
  haveY : Bool
  haveTimeHigh : Bool
  wordIndex : BitVec 64
  deriving DecidableEq, Repr

/-- The decoder-state registers as they stand. -/
def decoderViewOf (s : State) : DecoderView :=
  { curY := s.curY, baseX := s.baseX, vectPolarity := s.vectPolarity, timeLow := s.timeLow, timeHigh := s.timeHigh
    lastTimeHighPayload := previousTimeHigh s, haveY := s.haveY, haveTimeHigh := s.haveTimeHigh
    wordIndex := s.wordIndex }

/-- Reading the partial view (R248): the columns, lengths, diagnostics and the decoder state, in `FAULT` only. -/
def readPartial (s : State) : Option (ResultView × DecoderView) :=
  if s.phase = .fault then some (viewOf s, decoderViewOf s) else none

end Sys2Proof.Machine
end

