-- ==== Sys2Proof/Machine/Session.lean ====
section
/-! DEFINITION. What the environment does before and during a session: the header skipper's contract (40_ingress.md
R128 to R132), the start of a session (70_reset_and_hazards.md R270 to R273), tokens offered to the byte port, and the
tokens of an assembled program (30_encoding.md R107). -/

namespace Sys2Proof.Machine

/-- Consumed bytes and the bytes left, with one more byte in front of the consumed ones. -/
def consumeByte (b : Byte) (parts : List Byte × List Byte) : List Byte × List Byte := (b :: parts.1, parts.2)

/-- The header skipper's consumption (R128): while a line begins with `%` (0x25) the whole line up to and including
`\n` (0x0A), a last line without `\n` to the end of the input (D25; for a source that fails there, log
entry 16). The flag says whether the next byte is inside a header line. The consumed bytes and the bytes from the first
binary byte on (R130). -/
def skipHeader : Bool → List Byte → List Byte × List Byte
  | _, [] => ([], [])
  | true, b :: rest => consumeByte b (skipHeader (b != 0x0A) rest)
  | false, b :: rest => if b = 0x25 then consumeByte b (skipHeader true rest) else ([], b :: rest)

/-- The verdict half of `ParseHeader` (R129): only a consumed line can declare another format. -/
def headerReport (header : List Byte) : HeaderVerdict :=
  if header.isEmpty then .ok else if Config.headerUnsupported header then .unsupported else .ok

/-- The geometry half of `ParseHeader` (R129): only a consumed line can give one. -/
def headerSize (header : List Byte) : Option (BitVec 16 × BitVec 16) :=
  if header.isEmpty then none else Config.headerGeometry header

/-- One sensor dimension of the session (R130): the header's, the caller's, or the default; which of the first two wins
is not stated (log entry 14). -/
def sensorSize (fromHeader fromCaller : Option (BitVec 16)) (fallback : BitVec 16) : BitVec 16 :=
  match fromHeader, fromCaller with
  | some h, some c => if Config.headerBeatsCaller then h else c
  | some h, none => h
  | none, some c => c
  | none, none => fallback

/-- A byte source: its bytes, and how it ends (R121). -/
structure Source where
  bytes : List Byte
  /-- `none` for `Eof`, `some e` for `IoFail(e)` -/
  failure : Option IoErr
  deriving DecidableEq, Repr

/-- The terminator of a source (R121). -/
def sourceTerminator (failure : Option IoErr) : ByteToken :=
  match failure with
  | none => .eof
  | some e => .ioFail e

/-- The byte-port tokens of the bytes from the first binary byte on, ended by exactly one terminator (R121, R130). -/
def portTokens (binary : List Byte) (failure : Option IoErr) : List ByteToken :=
  binary.map ByteToken.byte ++ [sourceTerminator failure]

/-- The order of a session up to its first step (R132, R273): reset; the header skipper runs once and fixes the report,
the sensor sizes and the first binary byte.

DESIGN CHOICE (log entry 16): for a source that FAILS inside an unterminated `%` line, which no rule speaks of (D25 speaks
of the end of input only), the partial line is consumed as at the end of input, the report and the sizes may come from
it, and `IoFail` is then offered at the byte port, so that a rejected format precedes the failure. Unsafe. -/
def startSession (source : Source) (width height : Option (BitVec 16)) (s : State) : State :=
  { hostReset s with
    sensorWidth :=
      sensorSize ((headerSize (skipHeader false source.bytes).1).map Prod.fst) width Config.sensorWidthDefault
    sensorHeight :=
      sensorSize ((headerSize (skipHeader false source.bytes).1).map Prod.snd) height Config.sensorHeightDefault
    headerVerdict := headerReport (skipHeader false source.bytes).1
    input := portTokens (skipHeader false source.bytes).2 source.failure }

/-- The byte source offers one more token, behind those already offered (R121). -/
def offer (token : ByteToken) (s : State) : State := setInput (s.input ++ [token]) s

/-- The byte-port tokens of one statement (R106, R107): a word low byte first, a raw byte, or a terminator. -/
def stmtTokens (st : Stmt) : Option (List ByteToken) :=
  match st with
  | .byte n => if st.wellFormed then some [.byte (BitVec.ofNat 8 n)] else none
  | .endOfStream => some [.eof]
  | .ioFail e => some [.ioFail e]
  | _ => (assembleWord st).map fun w => (bytesOfWord w).map ByteToken.byte

/-- The byte-port tokens of a program; none where a statement does not assemble. -/
def programTokens : List Stmt → Option (List ByteToken)
  | [] => some []
  | st :: rest =>
    match stmtTokens st, programTokens rest with
    | some ts, some us => some (ts ++ us)
    | _, _ => none

end Sys2Proof.Machine
end

