-- ==== Sys2Proof/Safety.lean ====
section
/-! DEFINITION. The terms statements use: the invariants of 10_state.md R44, the size of a feasible session, frames, and
the run of a list of words. -/

namespace Sys2Proof.Machine

/-- Every element of a column is below a bound. -/
def elementsBelow {w : Nat} (bound : Nat) (col : Column w) : Bool := col.all fun e => decide (e.2.toNat < bound)

/-- A column has exactly the elements `0 .. len - 1` (R44 f). -/
def filled {w : Nat} (col : Column w) (len : BitVec 64) : Prop := col.map Prod.fst = List.range len.toNat

/-- A capacity is 65536 doubled some number of times (R38). -/
def isCapacity (cap : BitVec 64) : Prop := ∃ j : Nat, cap.toNat = 65536 * 2 ^ j

/-- The invariants of R44, (a) to (l) in its order, and the form of a capacity (R38). -/
structure StateInv (s : State) : Prop where
  curY : s.curY.toNat < 2048
  vectPolarity : s.vectPolarity.toNat < 2
  timeLow : s.timeLow.toNat < 4096
  lastPayload : s.lastTimeHighPayload.toNat < 4096
  timeHigh : s.haveTimeHigh = true → s.timeHigh = composeHigh s.timeHighLoops s.lastTimeHighPayload
  cdXFilled : filled s.mem.cdX s.cdLen
  cdYFilled : filled s.mem.cdY s.cdLen
  cdPFilled : filled s.mem.cdP s.cdLen
  cdTFilled : filled s.mem.cdT s.cdLen
  trTFilled : filled s.mem.trT s.trigLen
  trIdFilled : filled s.mem.trId s.trigLen
  trVFilled : filled s.mem.trV s.trigLen
  cdXRange : elementsBelow 2048 s.mem.cdX = true
  cdYRange : elementsBelow 2048 s.mem.cdY = true
  cdPRange : elementsBelow 2 s.mem.cdP = true
  trIdRange : elementsBelow 16 s.mem.trId = true
  trVRange : elementsBelow 2 s.mem.trV = true
  cdTRange : elementsBelow (2 ^ 44) s.mem.cdT = true
  trTRange : elementsBelow (2 ^ 44) s.mem.trT = true
  cdRoom : s.cdLen.toNat ≤ s.cdCap.toNat
  trigRoom : s.trigLen.toNat ≤ s.trigCap.toNat
  cdCapForm : isCapacity s.cdCap
  trigCapForm : isCapacity s.trigCap
  faultRecord : s.phase = .fault ↔ s.errKind ≠ .none
  noUnknown : s.unknownEvents = 0

/-- A feasible session: fewer than 2^62 events in each buffer, so that no 64-bit length or capacity wraps in a step
(00_scope.md R13 a: "unreachable"). -/
def Feasible (s : State) : Prop := s.cdLen.toNat < 2 ^ 62 ∧ s.trigLen.toNat < 2 ^ 62

/-- The bound of R209 on `out_of_order_events`. -/
def OutOfOrderBounded (s : State) : Prop :=
  s.outOfOrderEvents.toNat ≤ (s.cdLen.toNat - 1) + (s.trigLen.toNat - 1)

/-- Room for `n` more CD events with no growth. -/
def cdRoomFor (n : Nat) (s : State) : Prop := s.cdLen.toNat + n ≤ s.cdCap.toNat

/-- Room for `n` more triggers with no growth. -/
def trigRoomFor (n : Nat) (s : State) : Prop := s.trigLen.toNat + n ≤ s.trigCap.toNat

/-- Doubling the CD capacity stays within `CD_CAP_MAX` (R204, R205). -/
def cdMayGrow (s : State) : Prop := ∀ m, Config.cdCapMax = some m → s.cdCap.toNat * 2 ≤ m

/-- Doubling the trigger capacity stays within `TRIG_CAP_MAX` (R204, R205). -/
def trigMayGrow (s : State) : Prop := ∀ m, Config.trigCapMax = some m → s.trigCap.toNat * 2 ≤ m

/-- `n` more CD events fit: with no growth, or with the one growth that a capacity of at least `n` needs. -/
def cdTakes (n : Nat) (s : State) : Prop :=
  cdRoomFor n s ∨ (n ≤ s.cdCap.toNat ∧ s.cdLen.toNat ≤ s.cdCap.toNat ∧ s.cdCap.toNat < 2 ^ 63 ∧ cdMayGrow s)

/-- One more trigger fits, with or without growth. -/
def trigTakes (s : State) : Prop := s.trigLen = s.trigCap → trigMayGrow s

/-- A state with other sensor sizes. -/
def withSensor (width height : BitVec 16) (s : State) : State :=
  { s with sensorWidth := width, sensorHeight := height }

/-- A state with another ingress stage: the byte held, the flag, the tokens offered and the header's report. -/
def withIngress (hold : Byte) (pending : Bool) (input : List ByteToken) (verdict : HeaderVerdict) (s : State) : State :=
  { s with byteHold := hold, haveByte := pending, input := input, headerVerdict := verdict }

/-- A state without its ingress stage: what the decoder core holds (40_ingress.md R124). -/
def corePart (s : State) : State := withIngress 0 false [] .ok s

/-- An outcome with its next state changed. -/
def mapNext (f : State → State) : Result → Result
  | .next s => .next (f s)
  | .fault r => .fault r
  | .refused r => .refused r

/-- The word rules of decoded words in turn (40_ingress.md R120), stopping where one is stuck. `Run` over word-port tokens,
terminators included, is `runTokens`. -/
def execAll : List Instr → State → Result
  | [], s => .next s
  | i :: is, s =>
    match exec i s with
    | .next t => execAll is t
    | .fault r => .fault r
    | .refused r => .refused r

/-- A number of steps, stopping where one is stuck. Waits and the idle steps of `DONE` and `FAULT` count (log entries 3,
4). -/
def runSteps : Nat → State → Result
  | 0, s => .next s
  | n + 1, s =>
    match step s with
    | .next t => runSteps n t
    | .fault r => .fault r
    | .refused r => .refused r

/-- The byte-port tokens of words in stream order. -/
def wordTokens (ws : List Word) : List ByteToken := (ws.flatMap bytesOfWord).map ByteToken.byte

/-- A vector word of either width. -/
inductive VectorWord where
  | twelve (mask : BitVec 12)
  | eight (ign : BitVec 4) (mask : BitVec 8)
  deriving DecidableEq, Repr

/-- The instruction of a vector word. -/
def VectorWord.instr : VectorWord → Instr
  | .twelve mask => .vect12 mask
  | .eight ign mask => .vect8 ign mask

/-- The columns a vector word covers, which is what it adds to the base (42_vect.md R156). -/
def VectorWord.width : VectorWord → Nat
  | .twelve _ => 12
  | .eight _ _ => 8

/-- The time registers TIME_HIGH writes. -/
structure TimeRegs where
  high : BitVec 32
  loops : BitVec 32
  last : BitVec 16
  seen : Bool
  deriving DecidableEq, Repr

/-- The time registers of a state. -/
def timeRegs (s : State) : TimeRegs :=
  { high := s.timeHigh, loops := s.timeHighLoops, last := s.lastTimeHighPayload, seen := s.haveTimeHigh }

/-- The payloads of the TIME_HIGH words of a list, in order. -/
def timeHighPayloads : List Instr → List (BitVec 12)
  | [] => []
  | .timeHigh t :: is => t :: timeHighPayloads is
  | _ :: is => timeHighPayloads is

/-- The reconstructor of 43_time.md R173 run over payloads, starting from the time registers. -/
def reconstructAll : List (BitVec 12) → TimeRegs → TimeRegs
  | [], r => r
  | t :: ts, r =>
    reconstructAll ts
      { high := (reconstruct (if r.seen then some r.last else none) r.loops (timeOperand t)).1
        loops := (reconstruct (if r.seen then some r.last else none) r.loops (timeOperand t)).2
        last := timeOperand t
        seen := true }

end Sys2Proof.Machine
end

