-- ==== Sys2Proof/Certificates/Slice0/Obligations.lean ====
section
/-! DEFINITION. The statements for the provers. Each docstring names what of spec/ it formalises; OBLIGATIONS.json holds
its basis and cites. `{ s with … := t.… }` in a conclusion says that every field not named is unchanged. -/

open Sys2Proof Sys2Proof.Machine

/-! ## Encoding -/

/-- Decoding the bytes of any instruction gives it back, with the bytes after it (30_encoding.md R92 to R100, R105). -/
def Obligations.DecodeEncodeRoundTrip : Prop :=
  ∀ (i : Instr) (rest : List Byte), decodeBytes (encodeBytes i ++ rest) = .ok (i, rest)

/-- Encoding what a word decodes to gives the word back: no bit of any of the 65536 words is lost (R105). -/
def Obligations.EncodeDecodeRoundTrip : Prop := ∀ w : Word, encode (decode w) = w

/-- The common format (R91) and, field by field, the formats of R93 to R100, on the word as a number. The type code alone
selects the row of R92. -/
def Obligations.WordFormats : Prop :=
  (∀ w : Word, (codeOf w).toNat = w.toNat / 4096 ∧ (payloadOf w).toNat = w.toNat % 4096) ∧
  (∀ w : Word, typeCode (decode w) = codeOf w) ∧
  (∀ w : Word, w.toNat / 4096 = 0x0 → decode w = .addrY (BitVec.ofNat 1 (w.toNat / 2048)) (BitVec.ofNat 11 w.toNat)) ∧
  (∀ w : Word, w.toNat / 4096 = 0x2 → decode w = .addrX (BitVec.ofNat 1 (w.toNat / 2048)) (BitVec.ofNat 11 w.toNat)) ∧
  (∀ w : Word, w.toNat / 4096 = 0x3 →
    decode w = .vectBaseX (BitVec.ofNat 1 (w.toNat / 2048)) (BitVec.ofNat 11 w.toNat)) ∧
  (∀ w : Word, w.toNat / 4096 = 0x4 → decode w = .vect12 (BitVec.ofNat 12 w.toNat)) ∧
  (∀ w : Word, w.toNat / 4096 = 0x5 → decode w = .vect8 (BitVec.ofNat 4 (w.toNat / 256)) (BitVec.ofNat 8 w.toNat)) ∧
  (∀ w : Word, w.toNat / 4096 = 0x6 → decode w = .timeLow (BitVec.ofNat 12 w.toNat)) ∧
  (∀ w : Word, w.toNat / 4096 = 0x8 → decode w = .timeHigh (BitVec.ofNat 12 w.toNat)) ∧
  (∀ w : Word, w.toNat / 4096 = 0xA →
    decode w =
      .extTrigger (BitVec.ofNat 4 (w.toNat / 256)) (BitVec.ofNat 7 (w.toNat / 2)) (BitVec.ofNat 1 w.toNat))

/-- "Assembling the disassembly of any word gives the word back" (R108). -/
def Obligations.DisassemblyAssemblesBack : Prop := ∀ w : Word, assembleWord (disassemble w) = some w

/-- The table of R106, row by row, with the operand ranges in numbers: "An operand out of range is an assembly error, not
a truncation"; and the ranges of R107 (decision D20). -/
def Obligations.StatementEncodings : Prop :=
  (∀ y, y ≤ 2047 → assembleWord (.addrY y) = some (BitVec.ofNat 16 y)) ∧
  (∀ y orig, y ≤ 2047 → orig ≤ 1 →
    assembleWord (.addrYOrig y orig) = some (BitVec.ofNat 16 (orig * 2048 + y))) ∧
  (∀ x p, x ≤ 2047 → p ≤ 1 → assembleWord (.addrX x p) = some (BitVec.ofNat 16 (0x2000 + p * 2048 + x))) ∧
  (∀ x p, x ≤ 2047 → p ≤ 1 → assembleWord (.vectBaseX x p) = some (BitVec.ofNat 16 (0x3000 + p * 2048 + x))) ∧
  (∀ mask, mask ≤ 0xFFF → assembleWord (.vect12 mask) = some (BitVec.ofNat 16 (0x4000 + mask))) ∧
  (∀ mask, mask ≤ 0xFF → assembleWord (.vect8 mask) = some (BitVec.ofNat 16 (0x5000 + mask))) ∧
  (∀ t, t ≤ 4095 → assembleWord (.timeLow t) = some (BitVec.ofNat 16 (0x6000 + t))) ∧
  (∀ t, t ≤ 4095 → assembleWord (.timeHigh t) = some (BitVec.ofNat 16 (0x8000 + t))) ∧
  (∀ id v, id ≤ 15 → v ≤ 1 → assembleWord (.extTrigger id v) = some (BitVec.ofNat 16 (0xA000 + id * 256 + v))) ∧
  (∀ n, n ≤ 0xFFFF → assembleWord (.word n) = some (BitVec.ofNat 16 n)) ∧
  (∀ y, 2047 < y → assembleWord (.addrY y) = none) ∧
  (∀ y orig, 2047 < y ∨ 1 < orig → assembleWord (.addrYOrig y orig) = none) ∧
  (∀ x p, 2047 < x ∨ 1 < p → assembleWord (.addrX x p) = none ∧ assembleWord (.vectBaseX x p) = none) ∧
  (∀ mask, 0xFFF < mask → assembleWord (.vect12 mask) = none) ∧
  (∀ mask, 0xFF < mask → assembleWord (.vect8 mask) = none) ∧
  (∀ t, 4095 < t → assembleWord (.timeLow t) = none ∧ assembleWord (.timeHigh t) = none) ∧
  (∀ id v, 15 < id ∨ 1 < v → assembleWord (.extTrigger id v) = none) ∧
  (∀ n, 0xFFFF < n → assembleWord (.word n) = none) ∧
  (∀ n, n ≤ 0xFF → stmtTokens (.byte n) = some [.byte (BitVec.ofNat 8 n)]) ∧
  (∀ n, 0xFF < n → stmtTokens (.byte n) = none)

/-- Words written out from the formats of R93 to R100 and R103 decode to what they stand for. -/
def Obligations.SampleWordsDecode : Prop :=
  decode 0x0805 = .addrY 1 5 ∧ decode 0x2805 = .addrX 1 5 ∧ decode 0x300A = .vectBaseX 0 10 ∧
  decode 0x4007 = .vect12 7 ∧ decode 0x5F81 = .vect8 15 0x81 ∧ decode 0x6ABC = .timeLow 0xABC ∧
  decode 0x8FFF = .timeHigh 0xFFF ∧ decode 0xA3FF = .extTrigger 3 0x7F 1 ∧ decode 0x7000 = .reserved7 0

/-- Bytes are refused exactly when they hold no complete word (R64, R90, R103). -/
def Obligations.OnlyShortBytesRefused : Prop :=
  ∀ bs : List Byte, decodeBytes bs = .error .truncated ↔ bs.length < 2

/-! ## The step and the ingress stage -/

/-- `w = (b1 << 8) | b0`, so the type code is the high nibble of the second byte (20_memory.md R62); with its worked
example. -/
def Obligations.LittleEndianPairing : Prop :=
  (∀ b0 b1 : Byte,
    wordOfBytes b0 b1 = (b1.setWidth 16 <<< 8) ||| b0.setWidth 16 ∧
    codeOf (wordOfBytes b0 b1) = b1.extractLsb' 4 4 ∧
    bytesOfWord (wordOfBytes b0 b1) = [b0, b1]) ∧
  decodeBytes [0x00, 0x80] = .ok (.timeHigh 0, []) ∧ decodeBytes [0x00, 0x20] = .ok (.addrX 0 0, [])

/-- In `RUN`, when the next byte-port tokens complete a word, the step is `exec` of the instruction it decodes to, on the
state whose ingress stage has taken the bytes; a byte already held is the low byte (40_ingress.md R120, R122). -/
def Obligations.StepRunsDecodedWord : Prop :=
  (∀ (s : State) (b0 b1 : Byte) (rest : List ByteToken),
    s.phase = .run → formatRejected s = false → s.haveByte = false →
    s.input = .byte b0 :: .byte b1 :: rest →
    step s = exec (decode (wordOfBytes b0 b1)) (withIngress b0 false rest s.headerVerdict s)) ∧
  (∀ (s : State) (b : Byte) (rest : List ByteToken),
    s.phase = .run → s.haveByte = true → s.input = .byte b :: rest →
    step s = exec (decode (wordOfBytes s.byteHold b)) (withIngress s.byteHold false rest s.headerVerdict s)) ∧
  (∀ (s : State) (i : Instr) (rest : List ByteToken),
    s.phase = .run → formatRejected s = false → s.haveByte = false →
    s.input = (encodeBytes i).map ByteToken.byte ++ rest →
    step s = exec i (withIngress (lowByte (encode i)) false rest s.headerVerdict s))

/-- The model's `withFetchWord` (log entry 2) places a word where the very next step takes it. -/
def Obligations.PlacedWordIsTheNextStep : Prop :=
  ∀ (s : State) (nbits w : Nat), s.phase = .run →
    step (s.withFetchWord nbits w) =
      exec (decode (BitVec.ofNat 16 (w % 2 ^ nbits)))
        (withIngress (lowByte (BitVec.ofNat 16 (w % 2 ^ nbits))) false s.input .ok s)

/-- `End` (45_buffers.md R210): `phase <- DONE` and nothing else; the result view is valid and constant. That a step in
`DONE` is the same state as a next state, and no stop, is the model's choice (log entry 4). -/
def Obligations.CleanEndFinishesTheSession : Prop :=
  ∀ (s : State) (rest : List ByteToken),
    s.phase = .run → formatRejected s = false → s.haveByte = false → s.input = .eof :: rest →
    ∃ t, step s = .next t ∧ t = { s with phase := .done, input := rest } ∧
      readResult t = some (viewOf s) ∧ step t = .next t

/-- `Eof` with a byte pending (R123): fault entry with `TruncatedStream` at the index the incomplete word would have
had; `err_io` is unspecified (log entry 9). -/
def Obligations.OddByteIsTruncation : Prop :=
  ∀ (s : State) (rest : List ByteToken),
    s.phase = .run → s.haveByte = true → s.input = .eof :: rest →
    ∃ t, step s = .next t ∧
      t = { s with
        phase := .fault, errKind := .truncatedStream, errCode := 0, errWordIndex := s.wordIndex
        errIo := t.errIo, freeCount := t.freeCount, input := rest }

/-- `IoFail(e)` (R125): fault entry with `IoError(e)`, whether or not a byte is pending (D27). -/
def Obligations.SourceFailureIsIoError : Prop :=
  ∀ (s : State) (e : IoErr) (rest : List ByteToken),
    s.phase = .run → formatRejected s = false → s.input = .ioFail e :: rest →
    ∃ t, step s = .next t ∧
      t = { s with
        phase := .fault, errKind := .ioError, errCode := 0, errWordIndex := s.wordIndex
        errIo := e, freeCount := t.freeCount, input := rest }

/-- The header skipper's `UnsupportedFormat` (R131, 60_exceptions.md R244; decision D17, log entry 5): fault entry before any token
is taken. -/
def Obligations.RejectedFormatFaultsAtStart : Prop :=
  ∀ s : State, s.phase = .run → s.wordIndex = 0 → s.haveByte = false → s.headerVerdict = .unsupported →
    ∃ t, step s = .next t ∧
      t = { s with
        phase := .fault, errKind := .unsupportedFormat, errCode := 0, errWordIndex := 0
        errIo := t.errIo, freeCount := t.freeCount }

/-- Outside `RUN` no token is taken and no word executes (R126, 60_exceptions.md R253; decision D19, log entry 4). -/
def Obligations.NothingHappensOutsideRun : Prop :=
  ∀ s : State, s.phase ≠ .run → step s = .next s ∧ ∀ i : Instr, exec i s = .next s

/-- The model's choice (log entry 3): while the source offers no token the decoder waits, and a lone first byte is
held. -/
def Obligations.SilentSourceWaits : Prop :=
  ∀ s : State, s.phase = .run → formatRejected s = false →
    (s.input = [] → step s = .next s) ∧
    (∀ b, s.haveByte = false → s.input = [.byte b] →
      step s = .next { s with byteHold := b, haveByte := true, input := [] })

/-- The machine, run one step per word on the bytes of a list of words, is the word rules applied to those words in
order, up to the ingress stage (R120, R122). After a word that raises both sides stand still (log entry 4). -/
def Obligations.StreamRunsItsWords : Prop :=
  ∀ (ws : List Word) (rest : List ByteToken) (s : State),
    s.phase = .run → s.haveByte = false → s.headerVerdict = .ok → s.input = wordTokens ws ++ rest →
    mapNext corePart (runSteps ws.length s) = mapNext corePart (execAll (ws.map decode) s)

/-- A session whose source delivers `Eof` leaves `RUN` after at most one step per word-port token, if no buffer has to
grow; an odd byte count never ends in `DONE`, an even one never in `TruncatedStream` (70_reset_and_hazards.md R289,
60_exceptions.md R242). The steps after an early fault are the idle ones of log entry 4. -/
def Obligations.SessionReachesItsEnd : Prop :=
  ∀ (s : State) (bs : List Byte),
    s.phase = .run → s.haveByte = false → s.headerVerdict = .ok → s.errKind = .none →
    s.input = bs.map ByteToken.byte ++ [.eof] →
    cdRoomFor (12 * (bs.length / 2)) s → trigRoomFor (bs.length / 2) s →
    ∃ t, runSteps (bs.length / 2 + 1) s = .next t ∧
      (t.phase = .done ∨ t.phase = .fault) ∧
      (bs.length % 2 = 1 → t.phase = .fault) ∧
      (bs.length % 2 = 0 → t.errKind ≠ .truncatedStream)

/-! ## Address words -/

/-- ADDR_Y (41_addr.md R140): `cur_y` and `have_y`, and nothing else but the position; the origin flag plays no part. -/
def Obligations.AddrYSetsTheRow : Prop :=
  ∀ (orig : BitVec 1) (y : BitVec 11) (s : State), s.phase = .run →
    exec (.addrY orig y) s =
      .next { s with curY := y.setWidth 16, haveY := true, wordIndex := s.wordIndex + 1 }

/-- ADDR_X (R141): with both flags it appends `{x, cur_y, p, now()}` to the CD columns, growing a full buffer (R204)
and counting it when the last timestamp is above it (R200, decision D16); otherwise the event is discarded and no
decoder-state register changes. -/
def Obligations.AddrXEmitsOneEvent : Prop :=
  (∀ (p : BitVec 1) (x : BitVec 11) (s : State),
    s.phase = .run → s.haveY = true → s.haveTimeHigh = true → (s.cdLen = s.cdCap → cdMayGrow s) →
    ∃ t, exec (.addrX p x) s = .next t ∧
      t = { s with
        mem := { s.mem with cdX := t.mem.cdX, cdY := t.mem.cdY, cdP := t.mem.cdP, cdT := t.mem.cdT }
        cdLen := s.cdLen + 1, cdCap := if s.cdLen = s.cdCap then s.cdCap * 2 else s.cdCap
        outOfOrderEvents :=
          if s.cdLen ≠ 0 ∧ now s < lastCdTime s then s.outOfOrderEvents + 1 else s.outOfOrderEvents
        wordIndex := s.wordIndex + 1 } ∧
      (∀ u, colRead s.mem.cdT (s.cdLen - 1).toNat = some u → lastCdTime s = u) ∧
      colRead t.mem.cdX (cdSlot s) = some (x.setWidth 16) ∧ colRead t.mem.cdY (cdSlot s) = some s.curY ∧
      colRead t.mem.cdP (cdSlot s) = some (p.setWidth 8) ∧ colRead t.mem.cdT (cdSlot s) = some (now s)) ∧
  (∀ (p : BitVec 1) (x : BitVec 11) (s : State),
    s.phase = .run → (s.haveY = false ∨ s.haveTimeHigh = false) →
    ∃ t, exec (.addrX p x) s = .next t ∧
      t = { s with droppedBeforeY := t.droppedBeforeY, wordIndex := s.wordIndex + 1 })

/-- The bytes ADDR_X stores to: at most index `cd_len` of the four CD columns, whether or not the buffer grows. -/
def Obligations.AddrXMemoryFrame : Prop :=
  ∀ (p : BitVec 1) (x : BitVec 11) (s t : State), exec (.addrX p x) s = .next t →
    (∀ i, i ≠ cdSlot s →
      colRead t.mem.cdX i = colRead s.mem.cdX i ∧ colRead t.mem.cdY i = colRead s.mem.cdY i ∧
      colRead t.mem.cdP i = colRead s.mem.cdP i ∧ colRead t.mem.cdT i = colRead s.mem.cdT i) ∧
    t.mem.trT = s.mem.trT ∧ t.mem.trId = s.mem.trId ∧ t.mem.trV = s.mem.trV

/-- The rows of R143 in which nothing is appended (decisions D15, D28): the drop is counted exactly when `have_y` is
false. -/
def Obligations.AddrXDropCounts : Prop :=
  (∀ (p : BitVec 1) (x : BitVec 11) (s : State), s.phase = .run → s.haveY = false →
    exec (.addrX p x) s =
      .next { s with droppedBeforeY := s.droppedBeforeY + 1, wordIndex := s.wordIndex + 1 }) ∧
  (∀ (p : BitVec 1) (x : BitVec 11) (s : State), s.phase = .run → s.haveY = true → s.haveTimeHigh = false →
    exec (.addrX p x) s = .next { s with wordIndex := s.wordIndex + 1 })

/-! ## Vector words -/

/-- VECT_BASE_X (42_vect.md R150): the base and the polarity, and nothing else but the position. -/
def Obligations.VectBaseXSetsTheBase : Prop :=
  ∀ (p : BitVec 1) (x : BitVec 11) (s : State), s.phase = .run →
    exec (.vectBaseX p x) s =
      .next { s with
        baseX := x.setWidth 16, vectPolarity := p.setWidth 8, wordIndex := s.wordIndex + 1 }

/-- What a vector word that emits leaves: its emitting lanes appended in ascending order with the row, polarity and time
of the word's start, the base advanced by the width, the capacity doubled if they do not fit, one out-of-order count at
most, against the last element of `CD_T` (decision D16), and nothing else changed (R152 to R156, 45_buffers.md R200,
R204, R207). The wrap of the base is decision D22. -/
def Obligations.VectorWordAppendsItsLanes : Prop :=
  (∀ (mask : BitVec 12) (s : State),
    s.phase = .run → s.haveY = true → s.haveTimeHigh = true → cdTakes (emittingLanes mask s.baseX).length s →
    ∃ t, exec (.vect12 mask) s = .next t ∧
      t = { s with
        mem := { s.mem with cdX := t.mem.cdX, cdY := t.mem.cdY, cdP := t.mem.cdP, cdT := t.mem.cdT }
        cdLen := s.cdLen + BitVec.ofNat 64 (emittingLanes mask s.baseX).length
        cdCap :=
          if s.cdCap.toNat < s.cdLen.toNat + (emittingLanes mask s.baseX).length then s.cdCap * 2 else s.cdCap
        outOfOrderEvents :=
          if emittingLanes mask s.baseX ≠ [] ∧ s.cdLen ≠ 0 ∧ now s < lastCdTime s then s.outOfOrderEvents + 1
          else s.outOfOrderEvents
        baseX := s.baseX + 12, wordIndex := s.wordIndex + 1 } ∧
      (∀ u, colRead s.mem.cdT (s.cdLen - 1).toNat = some u → lastCdTime s = u) ∧
      (∀ j k, (emittingLanes mask s.baseX)[j]? = some k →
        colRead t.mem.cdX (cdSlot s + j) = some (s.baseX + BitVec.ofNat 16 k) ∧
        colRead t.mem.cdY (cdSlot s + j) = some s.curY ∧
        colRead t.mem.cdP (cdSlot s + j) = some s.vectPolarity ∧
        colRead t.mem.cdT (cdSlot s + j) = some (now s))) ∧
  (∀ (ign : BitVec 4) (mask : BitVec 8) (s : State),
    s.phase = .run → s.haveY = true → s.haveTimeHigh = true → cdTakes (emittingLanes mask s.baseX).length s →
    ∃ t, exec (.vect8 ign mask) s = .next t ∧
      t = { s with
        mem := { s.mem with cdX := t.mem.cdX, cdY := t.mem.cdY, cdP := t.mem.cdP, cdT := t.mem.cdT }
        cdLen := s.cdLen + BitVec.ofNat 64 (emittingLanes mask s.baseX).length
        cdCap :=
          if s.cdCap.toNat < s.cdLen.toNat + (emittingLanes mask s.baseX).length then s.cdCap * 2 else s.cdCap
        outOfOrderEvents :=
          if emittingLanes mask s.baseX ≠ [] ∧ s.cdLen ≠ 0 ∧ now s < lastCdTime s then s.outOfOrderEvents + 1
          else s.outOfOrderEvents
        baseX := s.baseX + 8, wordIndex := s.wordIndex + 1 } ∧
      (∀ u, colRead s.mem.cdT (s.cdLen - 1).toNat = some u → lastCdTime s = u) ∧
      (∀ j k, (emittingLanes mask s.baseX)[j]? = some k →
        colRead t.mem.cdX (cdSlot s + j) = some (s.baseX + BitVec.ofNat 16 k) ∧
        colRead t.mem.cdY (cdSlot s + j) = some s.curY ∧
        colRead t.mem.cdP (cdSlot s + j) = some s.vectPolarity ∧
        colRead t.mem.cdT (cdSlot s + j) = some (now s)))

/-- Which lanes emit: exactly the set bits whose `base_x + k` is below 2048 over the integers, each once and in
ascending order (R154, R155; decision D22). -/
def Obligations.EmittingLanesAreTheSetBitsInRange : Prop :=
  ∀ (n : Nat) (mask : BitVec n) (base : BitVec 16),
    (∀ k, k ∈ emittingLanes mask base ↔ k < n ∧ mask.getLsbD k = true ∧ base.toNat + k < 2048) ∧
    (emittingLanes mask base).Pairwise (· < ·)

/-- The bytes a vector word stores to: the indexes from `cd_len` up to the events it appends, in the CD columns. -/
def Obligations.VectorWordMemoryFrame : Prop :=
  (∀ (mask : BitVec 12) (s t : State), s.cdLen.toNat + 12 < 2 ^ 64 → exec (.vect12 mask) s = .next t →
    (∀ i, i < cdSlot s ∨ cdSlot s + (emittingLanes mask s.baseX).length ≤ i →
      colRead t.mem.cdX i = colRead s.mem.cdX i ∧ colRead t.mem.cdY i = colRead s.mem.cdY i ∧
      colRead t.mem.cdP i = colRead s.mem.cdP i ∧ colRead t.mem.cdT i = colRead s.mem.cdT i) ∧
    t.mem.trT = s.mem.trT ∧ t.mem.trId = s.mem.trId ∧ t.mem.trV = s.mem.trV) ∧
  (∀ (ign : BitVec 4) (mask : BitVec 8) (s t : State), s.cdLen.toNat + 8 < 2 ^ 64 →
    exec (.vect8 ign mask) s = .next t →
    (∀ i, i < cdSlot s ∨ cdSlot s + (emittingLanes mask s.baseX).length ≤ i →
      colRead t.mem.cdX i = colRead s.mem.cdX i ∧ colRead t.mem.cdY i = colRead s.mem.cdY i ∧
      colRead t.mem.cdP i = colRead s.mem.cdP i ∧ colRead t.mem.cdT i = colRead s.mem.cdT i) ∧
    t.mem.trT = s.mem.trT ∧ t.mem.trId = s.mem.trId ∧ t.mem.trV = s.mem.trV)

/-- A vector word in a decoder that is not primed. Before any ADDR_Y it drops and counts one event per emitting lane
(41_addr.md R142 c; decision D15); with a row but no TIME_HIGH it only advances the base (R143 row 4, 42_vect.md R157 d;
decision D28). -/
def Obligations.VectorWordsNotPrimed : Prop :=
  (∀ (mask : BitVec 12) (s : State), s.phase = .run → s.haveY = false →
    exec (.vect12 mask) s =
      .next { s with
        droppedBeforeY := s.droppedBeforeY + BitVec.ofNat 64 (emittingLanes mask s.baseX).length
        baseX := s.baseX + 12, wordIndex := s.wordIndex + 1 }) ∧
  (∀ (ign : BitVec 4) (mask : BitVec 8) (s : State), s.phase = .run → s.haveY = false →
    exec (.vect8 ign mask) s =
      .next { s with
        droppedBeforeY := s.droppedBeforeY + BitVec.ofNat 64 (emittingLanes mask s.baseX).length
        baseX := s.baseX + 8, wordIndex := s.wordIndex + 1 }) ∧
  (∀ (mask : BitVec 12) (s : State), s.phase = .run → s.haveY = true → s.haveTimeHigh = false →
    exec (.vect12 mask) s = .next { s with baseX := s.baseX + 12, wordIndex := s.wordIndex + 1 }) ∧
  (∀ (ign : BitVec 4) (mask : BitVec 8) (s : State), s.phase = .run → s.haveY = true → s.haveTimeHigh = false →
    exec (.vect8 ign mask) s = .next { s with baseX := s.baseX + 8, wordIndex := s.wordIndex + 1 })

/-- A vector word whose base is past column 2047 emits, drops and counts nothing, whatever the flags, the mask and the
buffers (R155; decision D22). -/
def Obligations.VectorPastTheLastColumn : Prop :=
  (∀ (mask : BitVec 12) (s : State), s.phase = .run → 2048 ≤ s.baseX.toNat →
    exec (.vect12 mask) s = .next { s with baseX := s.baseX + 12, wordIndex := s.wordIndex + 1 }) ∧
  (∀ (ign : BitVec 4) (mask : BitVec 8) (s : State), s.phase = .run → 2048 ≤ s.baseX.toNat →
    exec (.vect8 ign mask) s = .next { s with baseX := s.baseX + 8, wordIndex := s.wordIndex + 1 })

/-- Consecutive vector words of either width each start where the previous one ended (R157 a; the wrap is decision
D22). -/
def Obligations.ConsecutiveVectorsContinue : Prop :=
  ∀ (vs : List VectorWord) (s t : State), s.phase = .run →
    execAll (vs.map VectorWord.instr) s = .next t →
    t.baseX = s.baseX + BitVec.ofNat 16 (vs.map VectorWord.width).sum ∧
    t.curY = s.curY ∧ t.vectPolarity = s.vectPolarity ∧ now t = now s

/-! ## Time words -/

/-- TIME_LOW (43_time.md R171): `time_low`, and nothing else but the position. -/
def Obligations.TimeLowSetsTheLowTime : Prop :=
  ∀ (t : BitVec 12) (s : State), s.phase = .run →
    exec (.timeLow t) s = .next { s with timeLow := t.setWidth 16, wordIndex := s.wordIndex + 1 }

/-- TIME_HIGH (R172): the loop count, the high time made of the new count, the payload and the flag, and nothing else
but the position. The threshold is decision D1, the wrap modulo 2^32 decision D23. -/
def Obligations.TimeHighSetsTheHighTime : Prop :=
  ∀ (t : BitVec 12) (s : State), s.phase = .run →
    exec (.timeHigh t) s =
      .next { s with
        timeHighLoops :=
          if s.haveTimeHigh = true ∧ t.toNat < s.lastTimeHighPayload.toNat ∧
              2048 ≤ s.lastTimeHighPayload.toNat - t.toNat
          then s.timeHighLoops + 1 else s.timeHighLoops
        timeHigh :=
          ((if s.haveTimeHigh = true ∧ t.toNat < s.lastTimeHighPayload.toNat ∧
              2048 ≤ s.lastTimeHighPayload.toNat - t.toNat
          then s.timeHighLoops + 1 else s.timeHighLoops) <<< 12) ||| t.setWidth 32
        lastTimeHighPayload := t.setWidth 16, haveTimeHigh := true, wordIndex := s.wordIndex + 1 }

/-- `Reconstruct` (R173) in the cases of R174: the loop count grows by one exactly on a drop of at least 2048, and the
high time is loops · 4096 + payload modulo 2^32 (decisions D1, D23). -/
def Obligations.ReconstructCases : Prop :=
  ∀ (prev : Option (BitVec 16)) (loops : BitVec 32) (p : BitVec 16), p.toNat < 4096 →
    (prev = none → (reconstruct prev loops p).2 = loops) ∧
    (∀ q, prev = some q → q.toNat ≤ p.toNat → (reconstruct prev loops p).2 = loops) ∧
    (∀ q, prev = some q → p.toNat < q.toNat → q.toNat - p.toNat < 2048 → (reconstruct prev loops p).2 = loops) ∧
    (∀ q, prev = some q → p.toNat < q.toNat → 2048 ≤ q.toNat - p.toNat →
      (reconstruct prev loops p).2 = loops + 1) ∧
    (reconstruct prev loops p).1.toNat = ((reconstruct prev loops p).2.toNat * 4096 + p.toNat) % 2 ^ 32

/-- `now()` (R170): the high time in units of 4096 µs plus the low time, below 2^44. -/
def Obligations.NowCountsMicroseconds : Prop :=
  ∀ s : State, s.timeLow.toNat < 4096 →
    (now s).toNat = s.timeHigh.toNat * 4096 + s.timeLow.toNat ∧ (now s).toNat < 2 ^ 44

/-- Wraparound determinism (R175 a): the reconstructed time registers depend only on the TIME_HIGH payloads, not on the
words between them. -/
def Obligations.WraparoundDeterminism : Prop :=
  ∀ (is : List Instr) (s t : State), execAll is s = .next t → t.phase = .run →
    timeRegs t = reconstructAll (timeHighPayloads is) (timeRegs s)

/-! ## The trigger word -/

/-- EXT_TRIGGER (44_trigger.md R190): appended with the time, id and value when `have_time_high`, growing a full buffer
(R204) and counted when the last trigger's timestamp is above it (R201, decision D16), discarded otherwise; never the CD
buffer or a decoder-state register. -/
def Obligations.ExtTriggerRecordsAnEdge : Prop :=
  (∀ (id : BitVec 4) (pad : BitVec 7) (v : BitVec 1) (s : State),
    s.phase = .run → s.haveTimeHigh = true → trigTakes s →
    ∃ t, exec (.extTrigger id pad v) s = .next t ∧
      t = { s with
        mem := { s.mem with trT := t.mem.trT, trId := t.mem.trId, trV := t.mem.trV }
        trigLen := s.trigLen + 1, trigCap := if s.trigLen = s.trigCap then s.trigCap * 2 else s.trigCap
        outOfOrderEvents :=
          if s.trigLen ≠ 0 ∧ now s < lastTrigTime s then s.outOfOrderEvents + 1 else s.outOfOrderEvents
        wordIndex := s.wordIndex + 1 } ∧
      (∀ u, colRead s.mem.trT (s.trigLen - 1).toNat = some u → lastTrigTime s = u) ∧
      colRead t.mem.trT (trigSlot s) = some (now s) ∧ colRead t.mem.trId (trigSlot s) = some (id.setWidth 8) ∧
      colRead t.mem.trV (trigSlot s) = some (v.setWidth 8)) ∧
  (∀ (id : BitVec 4) (pad : BitVec 7) (v : BitVec 1) (s : State), s.phase = .run → s.haveTimeHigh = false →
    exec (.extTrigger id pad v) s = .next { s with wordIndex := s.wordIndex + 1 })

/-- The bytes EXT_TRIGGER stores to: at most index `trig_len` of the three trigger columns. -/
def Obligations.ExtTriggerMemoryFrame : Prop :=
  ∀ (id : BitVec 4) (pad : BitVec 7) (v : BitVec 1) (s t : State), exec (.extTrigger id pad v) s = .next t →
    (∀ i, i ≠ trigSlot s →
      colRead t.mem.trT i = colRead s.mem.trT i ∧ colRead t.mem.trId i = colRead s.mem.trId i ∧
      colRead t.mem.trV i = colRead s.mem.trV i) ∧
    t.mem.cdX = s.mem.cdX ∧ t.mem.cdY = s.mem.cdY ∧ t.mem.cdP = s.mem.cdP ∧ t.mem.cdT = s.mem.cdT

/-! ## Reserved codes and ignored bits -/

/-- A reserved code (46_reserved.md R230): fault entry with `UnknownEventType(code, word_index)` and nothing else; the
payload has no influence; `err_io` is unspecified (log entry 9). Fatal for every reserved code: decision D2; the fault
record: decision D17. -/
def Obligations.ReservedCodeRaises : Prop :=
  ∀ (pl : Payload) (i : Instr) (s : State), s.phase = .run →
    i ∈ [Instr.reserved1 pl, .reserved7 pl, .reserved9 pl, .reservedB pl, .reservedC pl, .reservedD pl,
      .reservedE pl, .reservedF pl] →
    ∃ t, exec i s = .next t ∧
      t = { s with
        phase := .fault, errKind := .unknownEventType, errCode := typeCode i, errWordIndex := s.wordIndex
        errIo := t.errIo, freeCount := t.freeCount }

/-- With the model parameter `IGNORABLE_CODES` not empty (R231, decision D2; not this hardware): a listed code is a
counted no-op. -/
def Obligations.IgnorableCodeIsCounted : Prop :=
  ∀ (codes : List TypeCode) (code : TypeCode) (s : State), s.phase = .run → code ∈ codes →
    reservedWord codes code s =
      .next { s with unknownEvents := s.unknownEvents + 1, wordIndex := s.wordIndex + 1 }

/-- Ignored bits (30_encoding.md R102): a word with any value there behaves as if they were zero. -/
def Obligations.IgnoredBitsHaveNoEffect : Prop :=
  (∀ (orig : BitVec 1) (y : BitVec 11) (s : State), exec (.addrY orig y) s = exec (.addrY 0 y) s) ∧
  (∀ (ign : BitVec 4) (mask : BitVec 8) (s : State), exec (.vect8 ign mask) s = exec (.vect8 0 mask) s) ∧
  (∀ (id : BitVec 4) (pad : BitVec 7) (v : BitVec 1) (s : State),
    exec (.extTrigger id pad v) s = exec (.extTrigger id 0 v) s)

/-! ## The buffers -/

/-- `AppendCD` and `AppendTrig` with no growth (45_buffers.md R200, R201; the out-of-order test is decision D16), and the
timestamp they compare with: the element at `len - 1`. -/
def Obligations.AppendsStoreAndCount : Prop :=
  (∀ (s : State) (u : Timestamp), colRead s.mem.cdT (s.cdLen - 1).toNat = some u → lastCdTime s = u) ∧
  (∀ (s : State) (u : Timestamp), colRead s.mem.trT (s.trigLen - 1).toNat = some u → lastTrigTime s = u) ∧
  (∀ (x y : BitVec 16) (p : BitVec 8) (t : Timestamp) (s : State), s.cdLen ≠ s.cdCap →
    ∃ u, appendCd x y p t s = some u ∧
      u = { s with
        mem := { s.mem with cdX := u.mem.cdX, cdY := u.mem.cdY, cdP := u.mem.cdP, cdT := u.mem.cdT }
        cdLen := s.cdLen + 1
        outOfOrderEvents :=
          if s.cdLen ≠ 0 ∧ t < lastCdTime s then s.outOfOrderEvents + 1 else s.outOfOrderEvents } ∧
      (∀ i, colRead u.mem.cdX i = if i = cdSlot s then some x else colRead s.mem.cdX i) ∧
      (∀ i, colRead u.mem.cdY i = if i = cdSlot s then some y else colRead s.mem.cdY i) ∧
      (∀ i, colRead u.mem.cdP i = if i = cdSlot s then some p else colRead s.mem.cdP i) ∧
      (∀ i, colRead u.mem.cdT i = if i = cdSlot s then some t else colRead s.mem.cdT i)) ∧
  (∀ (t : Timestamp) (id v : BitVec 8) (s : State), s.trigLen ≠ s.trigCap →
    ∃ u, appendTrig t id v s = some u ∧
      u = { s with
        mem := { s.mem with trT := u.mem.trT, trId := u.mem.trId, trV := u.mem.trV }
        trigLen := s.trigLen + 1
        outOfOrderEvents :=
          if s.trigLen ≠ 0 ∧ t < lastTrigTime s then s.outOfOrderEvents + 1 else s.outOfOrderEvents } ∧
      (∀ i, colRead u.mem.trT i = if i = trigSlot s then some t else colRead s.mem.trT i) ∧
      (∀ i, colRead u.mem.trId i = if i = trigSlot s then some id else colRead s.mem.trId i) ∧
      (∀ i, colRead u.mem.trV i = if i = trigSlot s then some v else colRead s.mem.trV i))

/-- Growth (R204) for every physical limit: an append that finds `len = cap` doubles the capacity of its own buffer
only, and keeps every other element. Exhaustion (R205, decision D12): it fails exactly when doubling would pass the
limit. -/
def Obligations.FullBufferDoublesOrStops : Prop :=
  (∀ (limit : Option Nat) (x y : BitVec 16) (p : BitVec 8) (t : Timestamp) (s : State),
    s.cdLen = s.cdCap → (∀ m, limit = some m → s.cdCap.toNat * 2 ≤ m) →
    ∃ u, appendCdUnder limit x y p t s = some u ∧ u.cdCap = s.cdCap * 2 ∧ u.trigCap = s.trigCap ∧
      u.cdLen = s.cdLen + 1 ∧
      ∀ i, i ≠ cdSlot s →
        colRead u.mem.cdX i = colRead s.mem.cdX i ∧ colRead u.mem.cdY i = colRead s.mem.cdY i ∧
        colRead u.mem.cdP i = colRead s.mem.cdP i ∧ colRead u.mem.cdT i = colRead s.mem.cdT i) ∧
  (∀ (limit : Option Nat) (t : Timestamp) (id v : BitVec 8) (s : State),
    s.trigLen = s.trigCap → (∀ m, limit = some m → s.trigCap.toNat * 2 ≤ m) →
    ∃ u, appendTrigUnder limit t id v s = some u ∧ u.trigCap = s.trigCap * 2 ∧ u.cdCap = s.cdCap ∧
      u.trigLen = s.trigLen + 1 ∧
      ∀ i, i ≠ trigSlot s →
        colRead u.mem.trT i = colRead s.mem.trT i ∧ colRead u.mem.trId i = colRead s.mem.trId i ∧
        colRead u.mem.trV i = colRead s.mem.trV i) ∧
  (∀ (limit : Option Nat) (x y : BitVec 16) (p : BitVec 8) (t : Timestamp) (s : State),
    appendCdUnder limit x y p t s = none ↔ s.cdLen = s.cdCap ∧ ∃ m, limit = some m ∧ m < s.cdCap.toNat * 2) ∧
  (∀ (limit : Option Nat) (t : Timestamp) (id v : BitVec 8) (s : State),
    appendTrigUnder limit t id v s = none ↔ s.trigLen = s.trigCap ∧ ∃ m, limit = some m ∧ m < s.trigCap.toNat * 2)

/-- Every word in `RUN` completes where its buffer takes what it emits: nothing but a full, limited buffer ever stops
the decoder (00_scope.md R12, 60_exceptions.md R240). -/
def Obligations.EveryWordCompletes : Prop :=
  (∀ (i : Instr) (s : State), s.phase = .run → typeCode i ∉ [0x2, 0x4, 0x5, (0xA : TypeCode)] →
    ∃ t, exec i s = .next t) ∧
  (∀ (p : BitVec 1) (x : BitVec 11) (s : State), s.phase = .run →
    (s.haveY = true → s.haveTimeHigh = true → s.cdLen = s.cdCap → cdMayGrow s) →
    ∃ t, exec (.addrX p x) s = .next t) ∧
  (∀ (mask : BitVec 12) (s : State), s.phase = .run →
    (s.haveY = true → s.haveTimeHigh = true → cdTakes (emittingLanes mask s.baseX).length s) →
    ∃ t, exec (.vect12 mask) s = .next t) ∧
  (∀ (ign : BitVec 4) (mask : BitVec 8) (s : State), s.phase = .run →
    (s.haveY = true → s.haveTimeHigh = true → cdTakes (emittingLanes mask s.baseX).length s) →
    ∃ t, exec (.vect8 ign mask) s = .next t) ∧
  (∀ (id : BitVec 4) (pad : BitVec 7) (v : BitVec 1) (s : State), s.phase = .run →
    (s.haveTimeHigh = true → trigTakes s) → ∃ t, exec (.extTrigger id pad v) s = .next t)

/-- The only stops of the machine (45_buffers.md R205, decision D12; log entry 13): an append that finds its buffer full
where doubling would pass the limit. A vector word stops exactly when more lanes emit than there is room for and the
buffer may not grow (within a capacity of at least its width, as every capacity is: R38, R44 j). No other word stops,
none stops that has nothing to append, and none is refused. That a word outside `RUN` does not stop is the model's
choice (log entry 4). -/
def Obligations.WordsStopOnlyOnAFullBuffer : Prop :=
  (∀ (p : BitVec 1) (x : BitVec 11) (s : State) (f : Fault),
    exec (.addrX p x) s = .fault f ↔
      f = .stuckCdBuffer ∧ s.phase = .run ∧ s.haveY = true ∧ s.haveTimeHigh = true ∧ s.cdLen = s.cdCap ∧
        ∃ m, Config.cdCapMax = some m ∧ m < s.cdCap.toNat * 2) ∧
  (∀ (id : BitVec 4) (pad : BitVec 7) (v : BitVec 1) (s : State) (f : Fault),
    exec (.extTrigger id pad v) s = .fault f ↔
      f = .stuckTrigBuffer ∧ s.phase = .run ∧ s.haveTimeHigh = true ∧ s.trigLen = s.trigCap ∧
        ∃ m, Config.trigCapMax = some m ∧ m < s.trigCap.toNat * 2) ∧
  (∀ (mask : BitVec 12) (s : State) (f : Fault),
    s.cdLen.toNat ≤ s.cdCap.toNat → 12 ≤ s.cdCap.toNat →
    (exec (.vect12 mask) s = .fault f ↔
      f = .stuckCdBuffer ∧ s.phase = .run ∧ s.haveY = true ∧ s.haveTimeHigh = true ∧
        s.cdCap.toNat < s.cdLen.toNat + (emittingLanes mask s.baseX).length ∧
        ∃ m, Config.cdCapMax = some m ∧ m < s.cdCap.toNat * 2)) ∧
  (∀ (ign : BitVec 4) (mask : BitVec 8) (s : State) (f : Fault),
    s.cdLen.toNat ≤ s.cdCap.toNat → 8 ≤ s.cdCap.toNat →
    (exec (.vect8 ign mask) s = .fault f ↔
      f = .stuckCdBuffer ∧ s.phase = .run ∧ s.haveY = true ∧ s.haveTimeHigh = true ∧
        s.cdCap.toNat < s.cdLen.toNat + (emittingLanes mask s.baseX).length ∧
        ∃ m, Config.cdCapMax = some m ∧ m < s.cdCap.toNat * 2)) ∧
  (∀ (i : Instr) (s : State) (f : Fault),
    s.phase ≠ .run ∨ s.haveTimeHigh = false ∨ (s.haveY = false ∧ typeCode i ≠ 0xA) ∨
      typeCode i ∉ [0x2, 0x4, 0x5, (0xA : TypeCode)] →
    exec i s ≠ .fault f) ∧
  (∀ (i : Instr) (s : State) (r : Refusal), exec i s ≠ .refused r)

/-- Write-once (20_memory.md R69): no step changes an element below a length, and lengths never decrease. -/
def Obligations.ElementsAreWrittenOnce : Prop :=
  ∀ s t : State, s.cdLen.toNat + 12 < 2 ^ 64 → s.trigLen.toNat + 1 < 2 ^ 64 → step s = .next t →
    s.cdLen.toNat ≤ t.cdLen.toNat ∧ s.trigLen.toNat ≤ t.trigLen.toNat ∧
    (∀ i, i < s.cdLen.toNat →
      colRead t.mem.cdX i = colRead s.mem.cdX i ∧ colRead t.mem.cdY i = colRead s.mem.cdY i ∧
      colRead t.mem.cdP i = colRead s.mem.cdP i ∧ colRead t.mem.cdT i = colRead s.mem.cdT i) ∧
    (∀ i, i < s.trigLen.toNat →
      colRead t.mem.trT i = colRead s.mem.trT i ∧ colRead t.mem.trId i = colRead s.mem.trId i ∧
      colRead t.mem.trV i = colRead s.mem.trV i)

/-! ## Flags, position, phase, faults -/

/-- `have_y` and `have_time_high` (10_state.md R28, R29): each set by its own word only, never cleared, false after
reset. -/
def Obligations.FlagsAreSetOnceAndKept : Prop :=
  State.reset.haveY = false ∧ State.reset.haveTimeHigh = false ∧
  (∀ s t : State, step s = .next t →
    (s.haveY = true → t.haveY = true) ∧ (s.haveTimeHigh = true → t.haveTimeHigh = true)) ∧
  (∀ (i : Instr) (s t : State), s.phase = .run → exec i s = .next t →
    (t.haveY = true ↔ s.haveY = true ∨ ∃ orig y, i = .addrY orig y) ∧
    (t.haveTimeHigh = true ↔ s.haveTimeHigh = true ∨ ∃ p, i = .timeHigh p))

/-- `word_index` (R30): every word that does not raise adds 1; one that raises leaves it. -/
def Obligations.WordIndexCountsWords : Prop :=
  ∀ (i : Instr) (s t : State), s.phase = .run → exec i s = .next t →
    t.phase ≠ .done ∧ t.wordIndex = if t.phase = .run then s.wordIndex + 1 else s.wordIndex

/-- `phase` (R34): a step keeps it or leaves `RUN`; `DONE` and `FAULT` are left by no step. -/
def Obligations.PhaseLeavesRunOnly : Prop :=
  ∀ s t : State, step s = .next t → t.phase = s.phase ∨ (s.phase = .run ∧ (t.phase = .done ∨ t.phase = .fault))

/-- Only a clean end leads to `DONE` (R34, 45_buffers.md R210): `Eof` next at the byte port and no byte pending. -/
def Obligations.OnlyCleanEndFinishes : Prop :=
  ∀ s t : State, s.phase = .run → step s = .next t → t.phase = .done →
    s.haveByte = false ∧ ∃ rest, s.input = .eof :: rest ∧ t = { s with phase := .done, input := rest }

/-- Faults are precise (60_exceptions.md R246, R247): a step that ends in `FAULT` has changed only the fault record,
`phase` and the ingress stage, and records the index of the faulting position. -/
def Obligations.FaultsArePrecise : Prop :=
  ∀ s t : State, s.phase = .run → step s = .next t → t.phase = .fault →
    t.errKind ≠ .none ∧
    t = { s with
      phase := .fault, errKind := t.errKind, errCode := t.errCode, errWordIndex := s.wordIndex
      errIo := t.errIo, freeCount := t.freeCount
      byteHold := t.byteHold, haveByte := t.haveByte, input := t.input }

/-- The sensor sizes are read by no rule and written by none (10_state.md R36), and copied to the result. -/
def Obligations.SensorSizesAreNeverRead : Prop :=
  (∀ (w h : BitVec 16) (s : State), step (withSensor w h s) = mapNext (withSensor w h) (step s)) ∧
  (∀ s t : State, step s = .next t →
    t.sensorWidth = s.sensorWidth ∧ t.sensorHeight = s.sensorHeight) ∧
  (∀ s : State, (viewOf s).sensorWidth = s.sensorWidth ∧ (viewOf s).sensorHeight = s.sensorHeight)

/-! ## Invariants -/

/-- Every step keeps the canonical form of the column memories (log entry 11), in every state. -/
def Obligations.StepsKeepMemoryCanonical : Prop :=
  ∀ s t : State, s.mem.wf = true → step s = .next t → t.mem.wf = true

/-- The invariants of R44, and the model's canonical form of the memories (log entry 11), hold after reset and after a
host reset of any state; after reset the bound of R209 holds too. -/
def Obligations.InvariantsHoldAtReset : Prop :=
  StateInv State.reset ∧ Feasible State.reset ∧ OutOfOrderBounded State.reset ∧ State.reset.mem.wf = true ∧
  ∀ s : State, StateInv (hostReset s) ∧ (hostReset s).mem.wf = true

/-- Every step of a feasible session keeps the invariants of R44. -/
def Obligations.StepsKeepInvariants : Prop :=
  ∀ s t : State, StateInv s → Feasible s → step s = .next t → StateInv t

/-- Every step of a feasible session keeps the bound of 45_buffers.md R209 on `out_of_order_events` (decision D16). -/
def Obligations.StepsKeepOutOfOrderBound : Prop :=
  ∀ s t : State, OutOfOrderBounded s → Feasible s → step s = .next t → OutOfOrderBounded t

/-! ## Reset, session start, host reads -/

/-- The table of R42, for the elements it gives a value (its own decisions D4, D6, D14, D17). -/
def Obligations.ResetTable : Prop :=
  ∀ s : State,
    (hostReset s).curY = 0 ∧ (hostReset s).baseX = 0 ∧ (hostReset s).vectPolarity = 0 ∧ (hostReset s).timeLow = 0 ∧
    (hostReset s).timeHigh = 0 ∧ (hostReset s).timeHighLoops = 0 ∧ (hostReset s).lastTimeHighPayload = 0 ∧
    (hostReset s).haveY = false ∧ (hostReset s).haveTimeHigh = false ∧ (hostReset s).wordIndex = 0 ∧
    (hostReset s).droppedBeforeY = 0 ∧ (hostReset s).unknownEvents = 0 ∧ (hostReset s).outOfOrderEvents = 0 ∧
    (hostReset s).phase = .run ∧ (hostReset s).errKind = .none ∧ (hostReset s).errCode = 0 ∧
    (hostReset s).errWordIndex = 0 ∧ (hostReset s).cdLen = 0 ∧ (hostReset s).trigLen = 0 ∧
    (hostReset s).cdCap = 65536 ∧ (hostReset s).trigCap = 65536 ∧ (hostReset s).haveByte = false ∧
    (hostReset s).sensorWidth = s.sensorWidth ∧ (hostReset s).sensorHeight = s.sensorHeight

/-- The header skipper's consumption (40_ingress.md R128, decision D25): it splits the input and loses nothing; a line
that begins with `%` is consumed up to its `\n`, or to the end; any other first byte leaves the cursor unchanged. -/
def Obligations.HeaderLinesAreConsumed : Prop :=
  (∀ bs : List Byte, (skipHeader false bs).1 ++ (skipHeader false bs).2 = bs) ∧
  (∀ (b : Byte) (bs : List Byte), b ≠ 0x25 → skipHeader false (b :: bs) = ([], b :: bs)) ∧
  (∀ line rest : List Byte, 0x0A ∉ line →
    skipHeader false (0x25 :: line ++ 0x0A :: rest) =
      (0x25 :: line ++ 0x0A :: (skipHeader false rest).1, (skipHeader false rest).2)) ∧
  (∀ line : List Byte, 0x0A ∉ line → skipHeader false (0x25 :: line) = (0x25 :: line, []))

/-- "Empty input (no bytes): returns an empty result, no error", and the same for input with only header lines that
declare no other format (R133; decision D25 for a last line without newline; log entry 14 for the session start). -/
def Obligations.EmptyInputGivesEmptyResult : Prop :=
  ∀ (bs : List Byte) (width height : Option (BitVec 16)) (s : State),
    (skipHeader false bs).2 = [] → headerReport bs = .ok →
    ∃ t, step (startSession { bytes := bs, failure := none } width height s) = .next t ∧
      t.phase = .done ∧ t.errKind = .none ∧ t.cdLen = 0 ∧ t.trigLen = 0 ∧ t.wordIndex = 0 ∧
      t.timeHighLoops = 0 ∧ t.droppedBeforeY = 0 ∧ t.unknownEvents = 0 ∧ t.outOfOrderEvents = 0 ∧
      ∃ v, readResult t = some v ∧ v.cdX = [] ∧ v.cdY = [] ∧ v.cdP = [] ∧ v.cdT = [] ∧ v.trT = [] ∧ v.trId = [] ∧
        v.trV = []

/-- What a host may read and when (20_memory.md R72, 70_reset_and_hazards.md R276; decision D8): the result in `DONE`
only, the fault record and the partial view in `FAULT` only, and never both status outputs (R278). -/
def Obligations.HostReadsFollowThePhase : Prop :=
  ∀ s : State,
    ((readResult s).isSome = true ↔ s.phase = .done) ∧ ((readFaultRecord s).isSome = true ↔ s.phase = .fault) ∧
    ((readPartial s).isSome = true ↔ s.phase = .fault) ∧ (doneOutput s && faultOutput s) = false

/-- In a state that keeps the invariants the columns read as whole arrays of the two lengths
(10_state.md R41, 70_reset_and_hazards.md R278): `len(x) == len(y) == len(polarity) == len(timestamp)`. -/
def Obligations.ResultColumnsAreWhole : Prop :=
  ∀ s : State, StateInv s →
    ((viewOf s).cdX = s.mem.cdX.map Prod.snd ∧ (viewOf s).cdX.length = s.cdLen.toNat) ∧
    ((viewOf s).cdY = s.mem.cdY.map Prod.snd ∧ (viewOf s).cdY.length = s.cdLen.toNat) ∧
    ((viewOf s).cdP = s.mem.cdP.map Prod.snd ∧ (viewOf s).cdP.length = s.cdLen.toNat) ∧
    ((viewOf s).cdT = s.mem.cdT.map Prod.snd ∧ (viewOf s).cdT.length = s.cdLen.toNat) ∧
    ((viewOf s).trT = s.mem.trT.map Prod.snd ∧ (viewOf s).trT.length = s.trigLen.toNat) ∧
    ((viewOf s).trId = s.mem.trId.map Prod.snd ∧ (viewOf s).trId.length = s.trigLen.toNat) ∧
    ((viewOf s).trV = s.mem.trV.map Prod.snd ∧ (viewOf s).trV.length = s.trigLen.toNat)

/-! ## Run -/

/-- `Run` (40_ingress.md R134) and the machine: stepping through any byte-port input, one step per word-port token, is
the fold of `Step` over the tokens of the word port, terminators included, up to the ingress stage (the steps after the
end stand still, log entry 4). The word port of the bytes of words is those words and one terminator (R122, R124). `Run`
consumes no token after the first state that has left `RUN` (R126). -/
def Obligations.StepsFoldTheWordPort : Prop :=
  (∀ s : State, s.phase = .run → s.headerVerdict = .ok →
    mapNext corePart (runSteps (wordPort (pendingByte s) s.input).length s) =
      mapNext corePart (runTokens (wordPort (pendingByte s) s.input) s)) ∧
  (∀ ws : List Word,
    wordPort none (wordTokens ws ++ [.eof]) = ws.map WordToken.word ++ [.endOfStream] ∧
    (∀ b : Byte, wordPort none (wordTokens ws ++ [.byte b, .eof]) = ws.map WordToken.word ++ [.endTruncated]) ∧
    (∀ e : IoErr, wordPort none (wordTokens ws ++ [.ioFail e]) = ws.map WordToken.word ++ [.ioFail e]) ∧
    (∀ (b : Byte) (e : IoErr),
      wordPort none (wordTokens ws ++ [.byte b, .ioFail e]) = ws.map WordToken.word ++ [.ioFail e])) ∧
  (∀ (ts us : List WordToken) (s t : State), runTokens ts s = .next t → t.phase ≠ .run →
    runTokens (ts ++ us) s = .next t)
end

