-- ==== Sys2Proof/Laws/State.lean ====
section
/-! SUPPORT. One lemma per field of State per named update, each true by `rfl`: what the update leaves in that field. -/

namespace Sys2Proof.Machine

variable (s : State)

/-! ## setHaveY -/

@[simp] theorem setHaveY_curY : (setHaveY s).curY = s.curY := rfl
@[simp] theorem setHaveY_baseX : (setHaveY s).baseX = s.baseX := rfl
@[simp] theorem setHaveY_vectPolarity : (setHaveY s).vectPolarity = s.vectPolarity := rfl
@[simp] theorem setHaveY_timeLow : (setHaveY s).timeLow = s.timeLow := rfl
@[simp] theorem setHaveY_timeHigh : (setHaveY s).timeHigh = s.timeHigh := rfl
@[simp] theorem setHaveY_timeHighLoops : (setHaveY s).timeHighLoops = s.timeHighLoops := rfl
@[simp] theorem setHaveY_lastTimeHighPayload : (setHaveY s).lastTimeHighPayload = s.lastTimeHighPayload := rfl
@[simp] theorem setHaveY_haveY : (setHaveY s).haveY = true := rfl
@[simp] theorem setHaveY_haveTimeHigh : (setHaveY s).haveTimeHigh = s.haveTimeHigh := rfl
@[simp] theorem setHaveY_wordIndex : (setHaveY s).wordIndex = s.wordIndex := rfl
@[simp] theorem setHaveY_droppedBeforeY : (setHaveY s).droppedBeforeY = s.droppedBeforeY := rfl
@[simp] theorem setHaveY_unknownEvents : (setHaveY s).unknownEvents = s.unknownEvents := rfl
@[simp] theorem setHaveY_outOfOrderEvents : (setHaveY s).outOfOrderEvents = s.outOfOrderEvents := rfl
@[simp] theorem setHaveY_phase : (setHaveY s).phase = s.phase := rfl
@[simp] theorem setHaveY_errKind : (setHaveY s).errKind = s.errKind := rfl
@[simp] theorem setHaveY_errCode : (setHaveY s).errCode = s.errCode := rfl
@[simp] theorem setHaveY_errWordIndex : (setHaveY s).errWordIndex = s.errWordIndex := rfl
@[simp] theorem setHaveY_errIo : (setHaveY s).errIo = s.errIo := rfl
@[simp] theorem setHaveY_sensorWidth : (setHaveY s).sensorWidth = s.sensorWidth := rfl
@[simp] theorem setHaveY_sensorHeight : (setHaveY s).sensorHeight = s.sensorHeight := rfl
@[simp] theorem setHaveY_cdLen : (setHaveY s).cdLen = s.cdLen := rfl
@[simp] theorem setHaveY_trigLen : (setHaveY s).trigLen = s.trigLen := rfl
@[simp] theorem setHaveY_cdCap : (setHaveY s).cdCap = s.cdCap := rfl
@[simp] theorem setHaveY_trigCap : (setHaveY s).trigCap = s.trigCap := rfl
@[simp] theorem setHaveY_byteHold : (setHaveY s).byteHold = s.byteHold := rfl
@[simp] theorem setHaveY_haveByte : (setHaveY s).haveByte = s.haveByte := rfl
@[simp] theorem setHaveY_mem : (setHaveY s).mem = s.mem := rfl
@[simp] theorem setHaveY_input : (setHaveY s).input = s.input := rfl
@[simp] theorem setHaveY_headerVerdict : (setHaveY s).headerVerdict = s.headerVerdict := rfl
@[simp] theorem setHaveY_freeCount : (setHaveY s).freeCount = s.freeCount := rfl

/-! ## setHaveTimeHigh -/

@[simp] theorem setHaveTimeHigh_curY : (setHaveTimeHigh s).curY = s.curY := rfl
@[simp] theorem setHaveTimeHigh_baseX : (setHaveTimeHigh s).baseX = s.baseX := rfl
@[simp] theorem setHaveTimeHigh_vectPolarity : (setHaveTimeHigh s).vectPolarity = s.vectPolarity := rfl
@[simp] theorem setHaveTimeHigh_timeLow : (setHaveTimeHigh s).timeLow = s.timeLow := rfl
@[simp] theorem setHaveTimeHigh_timeHigh : (setHaveTimeHigh s).timeHigh = s.timeHigh := rfl
@[simp] theorem setHaveTimeHigh_timeHighLoops : (setHaveTimeHigh s).timeHighLoops = s.timeHighLoops := rfl
@[simp] theorem setHaveTimeHigh_lastTimeHighPayload : (setHaveTimeHigh s).lastTimeHighPayload = s.lastTimeHighPayload := rfl
@[simp] theorem setHaveTimeHigh_haveY : (setHaveTimeHigh s).haveY = s.haveY := rfl
@[simp] theorem setHaveTimeHigh_haveTimeHigh : (setHaveTimeHigh s).haveTimeHigh = true := rfl
@[simp] theorem setHaveTimeHigh_wordIndex : (setHaveTimeHigh s).wordIndex = s.wordIndex := rfl
@[simp] theorem setHaveTimeHigh_droppedBeforeY : (setHaveTimeHigh s).droppedBeforeY = s.droppedBeforeY := rfl
@[simp] theorem setHaveTimeHigh_unknownEvents : (setHaveTimeHigh s).unknownEvents = s.unknownEvents := rfl
@[simp] theorem setHaveTimeHigh_outOfOrderEvents : (setHaveTimeHigh s).outOfOrderEvents = s.outOfOrderEvents := rfl
@[simp] theorem setHaveTimeHigh_phase : (setHaveTimeHigh s).phase = s.phase := rfl
@[simp] theorem setHaveTimeHigh_errKind : (setHaveTimeHigh s).errKind = s.errKind := rfl
@[simp] theorem setHaveTimeHigh_errCode : (setHaveTimeHigh s).errCode = s.errCode := rfl
@[simp] theorem setHaveTimeHigh_errWordIndex : (setHaveTimeHigh s).errWordIndex = s.errWordIndex := rfl
@[simp] theorem setHaveTimeHigh_errIo : (setHaveTimeHigh s).errIo = s.errIo := rfl
@[simp] theorem setHaveTimeHigh_sensorWidth : (setHaveTimeHigh s).sensorWidth = s.sensorWidth := rfl
@[simp] theorem setHaveTimeHigh_sensorHeight : (setHaveTimeHigh s).sensorHeight = s.sensorHeight := rfl
@[simp] theorem setHaveTimeHigh_cdLen : (setHaveTimeHigh s).cdLen = s.cdLen := rfl
@[simp] theorem setHaveTimeHigh_trigLen : (setHaveTimeHigh s).trigLen = s.trigLen := rfl
@[simp] theorem setHaveTimeHigh_cdCap : (setHaveTimeHigh s).cdCap = s.cdCap := rfl
@[simp] theorem setHaveTimeHigh_trigCap : (setHaveTimeHigh s).trigCap = s.trigCap := rfl
@[simp] theorem setHaveTimeHigh_byteHold : (setHaveTimeHigh s).byteHold = s.byteHold := rfl
@[simp] theorem setHaveTimeHigh_haveByte : (setHaveTimeHigh s).haveByte = s.haveByte := rfl
@[simp] theorem setHaveTimeHigh_mem : (setHaveTimeHigh s).mem = s.mem := rfl
@[simp] theorem setHaveTimeHigh_input : (setHaveTimeHigh s).input = s.input := rfl
@[simp] theorem setHaveTimeHigh_headerVerdict : (setHaveTimeHigh s).headerVerdict = s.headerVerdict := rfl
@[simp] theorem setHaveTimeHigh_freeCount : (setHaveTimeHigh s).freeCount = s.freeCount := rfl

/-! ## setRow -/

@[simp] theorem setRow_curY (y : BitVec 16) : (setRow y s).curY = y := rfl
@[simp] theorem setRow_baseX (y : BitVec 16) : (setRow y s).baseX = s.baseX := rfl
@[simp] theorem setRow_vectPolarity (y : BitVec 16) : (setRow y s).vectPolarity = s.vectPolarity := rfl
@[simp] theorem setRow_timeLow (y : BitVec 16) : (setRow y s).timeLow = s.timeLow := rfl
@[simp] theorem setRow_timeHigh (y : BitVec 16) : (setRow y s).timeHigh = s.timeHigh := rfl
@[simp] theorem setRow_timeHighLoops (y : BitVec 16) : (setRow y s).timeHighLoops = s.timeHighLoops := rfl
@[simp] theorem setRow_lastTimeHighPayload (y : BitVec 16) : (setRow y s).lastTimeHighPayload = s.lastTimeHighPayload := rfl
@[simp] theorem setRow_haveY (y : BitVec 16) : (setRow y s).haveY = s.haveY := rfl
@[simp] theorem setRow_haveTimeHigh (y : BitVec 16) : (setRow y s).haveTimeHigh = s.haveTimeHigh := rfl
@[simp] theorem setRow_wordIndex (y : BitVec 16) : (setRow y s).wordIndex = s.wordIndex := rfl
@[simp] theorem setRow_droppedBeforeY (y : BitVec 16) : (setRow y s).droppedBeforeY = s.droppedBeforeY := rfl
@[simp] theorem setRow_unknownEvents (y : BitVec 16) : (setRow y s).unknownEvents = s.unknownEvents := rfl
@[simp] theorem setRow_outOfOrderEvents (y : BitVec 16) : (setRow y s).outOfOrderEvents = s.outOfOrderEvents := rfl
@[simp] theorem setRow_phase (y : BitVec 16) : (setRow y s).phase = s.phase := rfl
@[simp] theorem setRow_errKind (y : BitVec 16) : (setRow y s).errKind = s.errKind := rfl
@[simp] theorem setRow_errCode (y : BitVec 16) : (setRow y s).errCode = s.errCode := rfl
@[simp] theorem setRow_errWordIndex (y : BitVec 16) : (setRow y s).errWordIndex = s.errWordIndex := rfl
@[simp] theorem setRow_errIo (y : BitVec 16) : (setRow y s).errIo = s.errIo := rfl
@[simp] theorem setRow_sensorWidth (y : BitVec 16) : (setRow y s).sensorWidth = s.sensorWidth := rfl
@[simp] theorem setRow_sensorHeight (y : BitVec 16) : (setRow y s).sensorHeight = s.sensorHeight := rfl
@[simp] theorem setRow_cdLen (y : BitVec 16) : (setRow y s).cdLen = s.cdLen := rfl
@[simp] theorem setRow_trigLen (y : BitVec 16) : (setRow y s).trigLen = s.trigLen := rfl
@[simp] theorem setRow_cdCap (y : BitVec 16) : (setRow y s).cdCap = s.cdCap := rfl
@[simp] theorem setRow_trigCap (y : BitVec 16) : (setRow y s).trigCap = s.trigCap := rfl
@[simp] theorem setRow_byteHold (y : BitVec 16) : (setRow y s).byteHold = s.byteHold := rfl
@[simp] theorem setRow_haveByte (y : BitVec 16) : (setRow y s).haveByte = s.haveByte := rfl
@[simp] theorem setRow_mem (y : BitVec 16) : (setRow y s).mem = s.mem := rfl
@[simp] theorem setRow_input (y : BitVec 16) : (setRow y s).input = s.input := rfl
@[simp] theorem setRow_headerVerdict (y : BitVec 16) : (setRow y s).headerVerdict = s.headerVerdict := rfl
@[simp] theorem setRow_freeCount (y : BitVec 16) : (setRow y s).freeCount = s.freeCount := rfl

/-! ## setVectBase -/

@[simp] theorem setVectBase_curY (x : BitVec 16) (p : BitVec 8) : (setVectBase x p s).curY = s.curY := rfl
@[simp] theorem setVectBase_baseX (x : BitVec 16) (p : BitVec 8) : (setVectBase x p s).baseX = x := rfl
@[simp] theorem setVectBase_vectPolarity (x : BitVec 16) (p : BitVec 8) : (setVectBase x p s).vectPolarity = p := rfl
@[simp] theorem setVectBase_timeLow (x : BitVec 16) (p : BitVec 8) : (setVectBase x p s).timeLow = s.timeLow := rfl
@[simp] theorem setVectBase_timeHigh (x : BitVec 16) (p : BitVec 8) : (setVectBase x p s).timeHigh = s.timeHigh := rfl
@[simp] theorem setVectBase_timeHighLoops (x : BitVec 16) (p : BitVec 8) : (setVectBase x p s).timeHighLoops = s.timeHighLoops := rfl
@[simp] theorem setVectBase_lastTimeHighPayload (x : BitVec 16) (p : BitVec 8) : (setVectBase x p s).lastTimeHighPayload = s.lastTimeHighPayload := rfl
@[simp] theorem setVectBase_haveY (x : BitVec 16) (p : BitVec 8) : (setVectBase x p s).haveY = s.haveY := rfl
@[simp] theorem setVectBase_haveTimeHigh (x : BitVec 16) (p : BitVec 8) : (setVectBase x p s).haveTimeHigh = s.haveTimeHigh := rfl
@[simp] theorem setVectBase_wordIndex (x : BitVec 16) (p : BitVec 8) : (setVectBase x p s).wordIndex = s.wordIndex := rfl
@[simp] theorem setVectBase_droppedBeforeY (x : BitVec 16) (p : BitVec 8) : (setVectBase x p s).droppedBeforeY = s.droppedBeforeY := rfl
@[simp] theorem setVectBase_unknownEvents (x : BitVec 16) (p : BitVec 8) : (setVectBase x p s).unknownEvents = s.unknownEvents := rfl
@[simp] theorem setVectBase_outOfOrderEvents (x : BitVec 16) (p : BitVec 8) : (setVectBase x p s).outOfOrderEvents = s.outOfOrderEvents := rfl
@[simp] theorem setVectBase_phase (x : BitVec 16) (p : BitVec 8) : (setVectBase x p s).phase = s.phase := rfl
@[simp] theorem setVectBase_errKind (x : BitVec 16) (p : BitVec 8) : (setVectBase x p s).errKind = s.errKind := rfl
@[simp] theorem setVectBase_errCode (x : BitVec 16) (p : BitVec 8) : (setVectBase x p s).errCode = s.errCode := rfl
@[simp] theorem setVectBase_errWordIndex (x : BitVec 16) (p : BitVec 8) : (setVectBase x p s).errWordIndex = s.errWordIndex := rfl
@[simp] theorem setVectBase_errIo (x : BitVec 16) (p : BitVec 8) : (setVectBase x p s).errIo = s.errIo := rfl
@[simp] theorem setVectBase_sensorWidth (x : BitVec 16) (p : BitVec 8) : (setVectBase x p s).sensorWidth = s.sensorWidth := rfl
@[simp] theorem setVectBase_sensorHeight (x : BitVec 16) (p : BitVec 8) : (setVectBase x p s).sensorHeight = s.sensorHeight := rfl
@[simp] theorem setVectBase_cdLen (x : BitVec 16) (p : BitVec 8) : (setVectBase x p s).cdLen = s.cdLen := rfl
@[simp] theorem setVectBase_trigLen (x : BitVec 16) (p : BitVec 8) : (setVectBase x p s).trigLen = s.trigLen := rfl
@[simp] theorem setVectBase_cdCap (x : BitVec 16) (p : BitVec 8) : (setVectBase x p s).cdCap = s.cdCap := rfl
@[simp] theorem setVectBase_trigCap (x : BitVec 16) (p : BitVec 8) : (setVectBase x p s).trigCap = s.trigCap := rfl
@[simp] theorem setVectBase_byteHold (x : BitVec 16) (p : BitVec 8) : (setVectBase x p s).byteHold = s.byteHold := rfl
@[simp] theorem setVectBase_haveByte (x : BitVec 16) (p : BitVec 8) : (setVectBase x p s).haveByte = s.haveByte := rfl
@[simp] theorem setVectBase_mem (x : BitVec 16) (p : BitVec 8) : (setVectBase x p s).mem = s.mem := rfl
@[simp] theorem setVectBase_input (x : BitVec 16) (p : BitVec 8) : (setVectBase x p s).input = s.input := rfl
@[simp] theorem setVectBase_headerVerdict (x : BitVec 16) (p : BitVec 8) : (setVectBase x p s).headerVerdict = s.headerVerdict := rfl
@[simp] theorem setVectBase_freeCount (x : BitVec 16) (p : BitVec 8) : (setVectBase x p s).freeCount = s.freeCount := rfl

/-! ## advanceBase -/

@[simp] theorem advanceBase_curY (n : Nat) : (advanceBase n s).curY = s.curY := rfl
@[simp] theorem advanceBase_baseX (n : Nat) : (advanceBase n s).baseX = s.baseX + BitVec.ofNat 16 n := rfl
@[simp] theorem advanceBase_vectPolarity (n : Nat) : (advanceBase n s).vectPolarity = s.vectPolarity := rfl
@[simp] theorem advanceBase_timeLow (n : Nat) : (advanceBase n s).timeLow = s.timeLow := rfl
@[simp] theorem advanceBase_timeHigh (n : Nat) : (advanceBase n s).timeHigh = s.timeHigh := rfl
@[simp] theorem advanceBase_timeHighLoops (n : Nat) : (advanceBase n s).timeHighLoops = s.timeHighLoops := rfl
@[simp] theorem advanceBase_lastTimeHighPayload (n : Nat) : (advanceBase n s).lastTimeHighPayload = s.lastTimeHighPayload := rfl
@[simp] theorem advanceBase_haveY (n : Nat) : (advanceBase n s).haveY = s.haveY := rfl
@[simp] theorem advanceBase_haveTimeHigh (n : Nat) : (advanceBase n s).haveTimeHigh = s.haveTimeHigh := rfl
@[simp] theorem advanceBase_wordIndex (n : Nat) : (advanceBase n s).wordIndex = s.wordIndex := rfl
@[simp] theorem advanceBase_droppedBeforeY (n : Nat) : (advanceBase n s).droppedBeforeY = s.droppedBeforeY := rfl
@[simp] theorem advanceBase_unknownEvents (n : Nat) : (advanceBase n s).unknownEvents = s.unknownEvents := rfl
@[simp] theorem advanceBase_outOfOrderEvents (n : Nat) : (advanceBase n s).outOfOrderEvents = s.outOfOrderEvents := rfl
@[simp] theorem advanceBase_phase (n : Nat) : (advanceBase n s).phase = s.phase := rfl
@[simp] theorem advanceBase_errKind (n : Nat) : (advanceBase n s).errKind = s.errKind := rfl
@[simp] theorem advanceBase_errCode (n : Nat) : (advanceBase n s).errCode = s.errCode := rfl
@[simp] theorem advanceBase_errWordIndex (n : Nat) : (advanceBase n s).errWordIndex = s.errWordIndex := rfl
@[simp] theorem advanceBase_errIo (n : Nat) : (advanceBase n s).errIo = s.errIo := rfl
@[simp] theorem advanceBase_sensorWidth (n : Nat) : (advanceBase n s).sensorWidth = s.sensorWidth := rfl
@[simp] theorem advanceBase_sensorHeight (n : Nat) : (advanceBase n s).sensorHeight = s.sensorHeight := rfl
@[simp] theorem advanceBase_cdLen (n : Nat) : (advanceBase n s).cdLen = s.cdLen := rfl
@[simp] theorem advanceBase_trigLen (n : Nat) : (advanceBase n s).trigLen = s.trigLen := rfl
@[simp] theorem advanceBase_cdCap (n : Nat) : (advanceBase n s).cdCap = s.cdCap := rfl
@[simp] theorem advanceBase_trigCap (n : Nat) : (advanceBase n s).trigCap = s.trigCap := rfl
@[simp] theorem advanceBase_byteHold (n : Nat) : (advanceBase n s).byteHold = s.byteHold := rfl
@[simp] theorem advanceBase_haveByte (n : Nat) : (advanceBase n s).haveByte = s.haveByte := rfl
@[simp] theorem advanceBase_mem (n : Nat) : (advanceBase n s).mem = s.mem := rfl
@[simp] theorem advanceBase_input (n : Nat) : (advanceBase n s).input = s.input := rfl
@[simp] theorem advanceBase_headerVerdict (n : Nat) : (advanceBase n s).headerVerdict = s.headerVerdict := rfl
@[simp] theorem advanceBase_freeCount (n : Nat) : (advanceBase n s).freeCount = s.freeCount := rfl

/-! ## setTimeLow -/

@[simp] theorem setTimeLow_curY (t : BitVec 16) : (setTimeLow t s).curY = s.curY := rfl
@[simp] theorem setTimeLow_baseX (t : BitVec 16) : (setTimeLow t s).baseX = s.baseX := rfl
@[simp] theorem setTimeLow_vectPolarity (t : BitVec 16) : (setTimeLow t s).vectPolarity = s.vectPolarity := rfl
@[simp] theorem setTimeLow_timeLow (t : BitVec 16) : (setTimeLow t s).timeLow = t := rfl
@[simp] theorem setTimeLow_timeHigh (t : BitVec 16) : (setTimeLow t s).timeHigh = s.timeHigh := rfl
@[simp] theorem setTimeLow_timeHighLoops (t : BitVec 16) : (setTimeLow t s).timeHighLoops = s.timeHighLoops := rfl
@[simp] theorem setTimeLow_lastTimeHighPayload (t : BitVec 16) : (setTimeLow t s).lastTimeHighPayload = s.lastTimeHighPayload := rfl
@[simp] theorem setTimeLow_haveY (t : BitVec 16) : (setTimeLow t s).haveY = s.haveY := rfl
@[simp] theorem setTimeLow_haveTimeHigh (t : BitVec 16) : (setTimeLow t s).haveTimeHigh = s.haveTimeHigh := rfl
@[simp] theorem setTimeLow_wordIndex (t : BitVec 16) : (setTimeLow t s).wordIndex = s.wordIndex := rfl
@[simp] theorem setTimeLow_droppedBeforeY (t : BitVec 16) : (setTimeLow t s).droppedBeforeY = s.droppedBeforeY := rfl
@[simp] theorem setTimeLow_unknownEvents (t : BitVec 16) : (setTimeLow t s).unknownEvents = s.unknownEvents := rfl
@[simp] theorem setTimeLow_outOfOrderEvents (t : BitVec 16) : (setTimeLow t s).outOfOrderEvents = s.outOfOrderEvents := rfl
@[simp] theorem setTimeLow_phase (t : BitVec 16) : (setTimeLow t s).phase = s.phase := rfl
@[simp] theorem setTimeLow_errKind (t : BitVec 16) : (setTimeLow t s).errKind = s.errKind := rfl
@[simp] theorem setTimeLow_errCode (t : BitVec 16) : (setTimeLow t s).errCode = s.errCode := rfl
@[simp] theorem setTimeLow_errWordIndex (t : BitVec 16) : (setTimeLow t s).errWordIndex = s.errWordIndex := rfl
@[simp] theorem setTimeLow_errIo (t : BitVec 16) : (setTimeLow t s).errIo = s.errIo := rfl
@[simp] theorem setTimeLow_sensorWidth (t : BitVec 16) : (setTimeLow t s).sensorWidth = s.sensorWidth := rfl
@[simp] theorem setTimeLow_sensorHeight (t : BitVec 16) : (setTimeLow t s).sensorHeight = s.sensorHeight := rfl
@[simp] theorem setTimeLow_cdLen (t : BitVec 16) : (setTimeLow t s).cdLen = s.cdLen := rfl
@[simp] theorem setTimeLow_trigLen (t : BitVec 16) : (setTimeLow t s).trigLen = s.trigLen := rfl
@[simp] theorem setTimeLow_cdCap (t : BitVec 16) : (setTimeLow t s).cdCap = s.cdCap := rfl
@[simp] theorem setTimeLow_trigCap (t : BitVec 16) : (setTimeLow t s).trigCap = s.trigCap := rfl
@[simp] theorem setTimeLow_byteHold (t : BitVec 16) : (setTimeLow t s).byteHold = s.byteHold := rfl
@[simp] theorem setTimeLow_haveByte (t : BitVec 16) : (setTimeLow t s).haveByte = s.haveByte := rfl
@[simp] theorem setTimeLow_mem (t : BitVec 16) : (setTimeLow t s).mem = s.mem := rfl
@[simp] theorem setTimeLow_input (t : BitVec 16) : (setTimeLow t s).input = s.input := rfl
@[simp] theorem setTimeLow_headerVerdict (t : BitVec 16) : (setTimeLow t s).headerVerdict = s.headerVerdict := rfl
@[simp] theorem setTimeLow_freeCount (t : BitVec 16) : (setTimeLow t s).freeCount = s.freeCount := rfl

/-! ## setTimeHigh -/

@[simp] theorem setTimeHigh_curY (h l : BitVec 32) (q : BitVec 16) : (setTimeHigh h l q s).curY = s.curY := rfl
@[simp] theorem setTimeHigh_baseX (h l : BitVec 32) (q : BitVec 16) : (setTimeHigh h l q s).baseX = s.baseX := rfl
@[simp] theorem setTimeHigh_vectPolarity (h l : BitVec 32) (q : BitVec 16) : (setTimeHigh h l q s).vectPolarity = s.vectPolarity := rfl
@[simp] theorem setTimeHigh_timeLow (h l : BitVec 32) (q : BitVec 16) : (setTimeHigh h l q s).timeLow = s.timeLow := rfl
@[simp] theorem setTimeHigh_timeHigh (h l : BitVec 32) (q : BitVec 16) : (setTimeHigh h l q s).timeHigh = h := rfl
@[simp] theorem setTimeHigh_timeHighLoops (h l : BitVec 32) (q : BitVec 16) : (setTimeHigh h l q s).timeHighLoops = l := rfl
@[simp] theorem setTimeHigh_lastTimeHighPayload (h l : BitVec 32) (q : BitVec 16) : (setTimeHigh h l q s).lastTimeHighPayload = q := rfl
@[simp] theorem setTimeHigh_haveY (h l : BitVec 32) (q : BitVec 16) : (setTimeHigh h l q s).haveY = s.haveY := rfl
@[simp] theorem setTimeHigh_haveTimeHigh (h l : BitVec 32) (q : BitVec 16) : (setTimeHigh h l q s).haveTimeHigh = s.haveTimeHigh := rfl
@[simp] theorem setTimeHigh_wordIndex (h l : BitVec 32) (q : BitVec 16) : (setTimeHigh h l q s).wordIndex = s.wordIndex := rfl
@[simp] theorem setTimeHigh_droppedBeforeY (h l : BitVec 32) (q : BitVec 16) : (setTimeHigh h l q s).droppedBeforeY = s.droppedBeforeY := rfl
@[simp] theorem setTimeHigh_unknownEvents (h l : BitVec 32) (q : BitVec 16) : (setTimeHigh h l q s).unknownEvents = s.unknownEvents := rfl
@[simp] theorem setTimeHigh_outOfOrderEvents (h l : BitVec 32) (q : BitVec 16) : (setTimeHigh h l q s).outOfOrderEvents = s.outOfOrderEvents := rfl
@[simp] theorem setTimeHigh_phase (h l : BitVec 32) (q : BitVec 16) : (setTimeHigh h l q s).phase = s.phase := rfl
@[simp] theorem setTimeHigh_errKind (h l : BitVec 32) (q : BitVec 16) : (setTimeHigh h l q s).errKind = s.errKind := rfl
@[simp] theorem setTimeHigh_errCode (h l : BitVec 32) (q : BitVec 16) : (setTimeHigh h l q s).errCode = s.errCode := rfl
@[simp] theorem setTimeHigh_errWordIndex (h l : BitVec 32) (q : BitVec 16) : (setTimeHigh h l q s).errWordIndex = s.errWordIndex := rfl
@[simp] theorem setTimeHigh_errIo (h l : BitVec 32) (q : BitVec 16) : (setTimeHigh h l q s).errIo = s.errIo := rfl
@[simp] theorem setTimeHigh_sensorWidth (h l : BitVec 32) (q : BitVec 16) : (setTimeHigh h l q s).sensorWidth = s.sensorWidth := rfl
@[simp] theorem setTimeHigh_sensorHeight (h l : BitVec 32) (q : BitVec 16) : (setTimeHigh h l q s).sensorHeight = s.sensorHeight := rfl
@[simp] theorem setTimeHigh_cdLen (h l : BitVec 32) (q : BitVec 16) : (setTimeHigh h l q s).cdLen = s.cdLen := rfl
@[simp] theorem setTimeHigh_trigLen (h l : BitVec 32) (q : BitVec 16) : (setTimeHigh h l q s).trigLen = s.trigLen := rfl
@[simp] theorem setTimeHigh_cdCap (h l : BitVec 32) (q : BitVec 16) : (setTimeHigh h l q s).cdCap = s.cdCap := rfl
@[simp] theorem setTimeHigh_trigCap (h l : BitVec 32) (q : BitVec 16) : (setTimeHigh h l q s).trigCap = s.trigCap := rfl
@[simp] theorem setTimeHigh_byteHold (h l : BitVec 32) (q : BitVec 16) : (setTimeHigh h l q s).byteHold = s.byteHold := rfl
@[simp] theorem setTimeHigh_haveByte (h l : BitVec 32) (q : BitVec 16) : (setTimeHigh h l q s).haveByte = s.haveByte := rfl
@[simp] theorem setTimeHigh_mem (h l : BitVec 32) (q : BitVec 16) : (setTimeHigh h l q s).mem = s.mem := rfl
@[simp] theorem setTimeHigh_input (h l : BitVec 32) (q : BitVec 16) : (setTimeHigh h l q s).input = s.input := rfl
@[simp] theorem setTimeHigh_headerVerdict (h l : BitVec 32) (q : BitVec 16) : (setTimeHigh h l q s).headerVerdict = s.headerVerdict := rfl
@[simp] theorem setTimeHigh_freeCount (h l : BitVec 32) (q : BitVec 16) : (setTimeHigh h l q s).freeCount = s.freeCount := rfl

/-! ## advanceWord -/

@[simp] theorem advanceWord_curY : (advanceWord s).curY = s.curY := rfl
@[simp] theorem advanceWord_baseX : (advanceWord s).baseX = s.baseX := rfl
@[simp] theorem advanceWord_vectPolarity : (advanceWord s).vectPolarity = s.vectPolarity := rfl
@[simp] theorem advanceWord_timeLow : (advanceWord s).timeLow = s.timeLow := rfl
@[simp] theorem advanceWord_timeHigh : (advanceWord s).timeHigh = s.timeHigh := rfl
@[simp] theorem advanceWord_timeHighLoops : (advanceWord s).timeHighLoops = s.timeHighLoops := rfl
@[simp] theorem advanceWord_lastTimeHighPayload : (advanceWord s).lastTimeHighPayload = s.lastTimeHighPayload := rfl
@[simp] theorem advanceWord_haveY : (advanceWord s).haveY = s.haveY := rfl
@[simp] theorem advanceWord_haveTimeHigh : (advanceWord s).haveTimeHigh = s.haveTimeHigh := rfl
@[simp] theorem advanceWord_wordIndex : (advanceWord s).wordIndex = s.wordIndex + 1 := rfl
@[simp] theorem advanceWord_droppedBeforeY : (advanceWord s).droppedBeforeY = s.droppedBeforeY := rfl
@[simp] theorem advanceWord_unknownEvents : (advanceWord s).unknownEvents = s.unknownEvents := rfl
@[simp] theorem advanceWord_outOfOrderEvents : (advanceWord s).outOfOrderEvents = s.outOfOrderEvents := rfl
@[simp] theorem advanceWord_phase : (advanceWord s).phase = s.phase := rfl
@[simp] theorem advanceWord_errKind : (advanceWord s).errKind = s.errKind := rfl
@[simp] theorem advanceWord_errCode : (advanceWord s).errCode = s.errCode := rfl
@[simp] theorem advanceWord_errWordIndex : (advanceWord s).errWordIndex = s.errWordIndex := rfl
@[simp] theorem advanceWord_errIo : (advanceWord s).errIo = s.errIo := rfl
@[simp] theorem advanceWord_sensorWidth : (advanceWord s).sensorWidth = s.sensorWidth := rfl
@[simp] theorem advanceWord_sensorHeight : (advanceWord s).sensorHeight = s.sensorHeight := rfl
@[simp] theorem advanceWord_cdLen : (advanceWord s).cdLen = s.cdLen := rfl
@[simp] theorem advanceWord_trigLen : (advanceWord s).trigLen = s.trigLen := rfl
@[simp] theorem advanceWord_cdCap : (advanceWord s).cdCap = s.cdCap := rfl
@[simp] theorem advanceWord_trigCap : (advanceWord s).trigCap = s.trigCap := rfl
@[simp] theorem advanceWord_byteHold : (advanceWord s).byteHold = s.byteHold := rfl
@[simp] theorem advanceWord_haveByte : (advanceWord s).haveByte = s.haveByte := rfl
@[simp] theorem advanceWord_mem : (advanceWord s).mem = s.mem := rfl
@[simp] theorem advanceWord_input : (advanceWord s).input = s.input := rfl
@[simp] theorem advanceWord_headerVerdict : (advanceWord s).headerVerdict = s.headerVerdict := rfl
@[simp] theorem advanceWord_freeCount : (advanceWord s).freeCount = s.freeCount := rfl

/-! ## countDrop -/

@[simp] theorem countDrop_curY : (countDrop s).curY = s.curY := rfl
@[simp] theorem countDrop_baseX : (countDrop s).baseX = s.baseX := rfl
@[simp] theorem countDrop_vectPolarity : (countDrop s).vectPolarity = s.vectPolarity := rfl
@[simp] theorem countDrop_timeLow : (countDrop s).timeLow = s.timeLow := rfl
@[simp] theorem countDrop_timeHigh : (countDrop s).timeHigh = s.timeHigh := rfl
@[simp] theorem countDrop_timeHighLoops : (countDrop s).timeHighLoops = s.timeHighLoops := rfl
@[simp] theorem countDrop_lastTimeHighPayload : (countDrop s).lastTimeHighPayload = s.lastTimeHighPayload := rfl
@[simp] theorem countDrop_haveY : (countDrop s).haveY = s.haveY := rfl
@[simp] theorem countDrop_haveTimeHigh : (countDrop s).haveTimeHigh = s.haveTimeHigh := rfl
@[simp] theorem countDrop_wordIndex : (countDrop s).wordIndex = s.wordIndex := rfl
@[simp] theorem countDrop_droppedBeforeY : (countDrop s).droppedBeforeY = s.droppedBeforeY + 1 := rfl
@[simp] theorem countDrop_unknownEvents : (countDrop s).unknownEvents = s.unknownEvents := rfl
@[simp] theorem countDrop_outOfOrderEvents : (countDrop s).outOfOrderEvents = s.outOfOrderEvents := rfl
@[simp] theorem countDrop_phase : (countDrop s).phase = s.phase := rfl
@[simp] theorem countDrop_errKind : (countDrop s).errKind = s.errKind := rfl
@[simp] theorem countDrop_errCode : (countDrop s).errCode = s.errCode := rfl
@[simp] theorem countDrop_errWordIndex : (countDrop s).errWordIndex = s.errWordIndex := rfl
@[simp] theorem countDrop_errIo : (countDrop s).errIo = s.errIo := rfl
@[simp] theorem countDrop_sensorWidth : (countDrop s).sensorWidth = s.sensorWidth := rfl
@[simp] theorem countDrop_sensorHeight : (countDrop s).sensorHeight = s.sensorHeight := rfl
@[simp] theorem countDrop_cdLen : (countDrop s).cdLen = s.cdLen := rfl
@[simp] theorem countDrop_trigLen : (countDrop s).trigLen = s.trigLen := rfl
@[simp] theorem countDrop_cdCap : (countDrop s).cdCap = s.cdCap := rfl
@[simp] theorem countDrop_trigCap : (countDrop s).trigCap = s.trigCap := rfl
@[simp] theorem countDrop_byteHold : (countDrop s).byteHold = s.byteHold := rfl
@[simp] theorem countDrop_haveByte : (countDrop s).haveByte = s.haveByte := rfl
@[simp] theorem countDrop_mem : (countDrop s).mem = s.mem := rfl
@[simp] theorem countDrop_input : (countDrop s).input = s.input := rfl
@[simp] theorem countDrop_headerVerdict : (countDrop s).headerVerdict = s.headerVerdict := rfl
@[simp] theorem countDrop_freeCount : (countDrop s).freeCount = s.freeCount := rfl

/-! ## countUnknown -/

@[simp] theorem countUnknown_curY : (countUnknown s).curY = s.curY := rfl
@[simp] theorem countUnknown_baseX : (countUnknown s).baseX = s.baseX := rfl
@[simp] theorem countUnknown_vectPolarity : (countUnknown s).vectPolarity = s.vectPolarity := rfl
@[simp] theorem countUnknown_timeLow : (countUnknown s).timeLow = s.timeLow := rfl
@[simp] theorem countUnknown_timeHigh : (countUnknown s).timeHigh = s.timeHigh := rfl
@[simp] theorem countUnknown_timeHighLoops : (countUnknown s).timeHighLoops = s.timeHighLoops := rfl
@[simp] theorem countUnknown_lastTimeHighPayload : (countUnknown s).lastTimeHighPayload = s.lastTimeHighPayload := rfl
@[simp] theorem countUnknown_haveY : (countUnknown s).haveY = s.haveY := rfl
@[simp] theorem countUnknown_haveTimeHigh : (countUnknown s).haveTimeHigh = s.haveTimeHigh := rfl
@[simp] theorem countUnknown_wordIndex : (countUnknown s).wordIndex = s.wordIndex := rfl
@[simp] theorem countUnknown_droppedBeforeY : (countUnknown s).droppedBeforeY = s.droppedBeforeY := rfl
@[simp] theorem countUnknown_unknownEvents : (countUnknown s).unknownEvents = s.unknownEvents + 1 := rfl
@[simp] theorem countUnknown_outOfOrderEvents : (countUnknown s).outOfOrderEvents = s.outOfOrderEvents := rfl
@[simp] theorem countUnknown_phase : (countUnknown s).phase = s.phase := rfl
@[simp] theorem countUnknown_errKind : (countUnknown s).errKind = s.errKind := rfl
@[simp] theorem countUnknown_errCode : (countUnknown s).errCode = s.errCode := rfl
@[simp] theorem countUnknown_errWordIndex : (countUnknown s).errWordIndex = s.errWordIndex := rfl
@[simp] theorem countUnknown_errIo : (countUnknown s).errIo = s.errIo := rfl
@[simp] theorem countUnknown_sensorWidth : (countUnknown s).sensorWidth = s.sensorWidth := rfl
@[simp] theorem countUnknown_sensorHeight : (countUnknown s).sensorHeight = s.sensorHeight := rfl
@[simp] theorem countUnknown_cdLen : (countUnknown s).cdLen = s.cdLen := rfl
@[simp] theorem countUnknown_trigLen : (countUnknown s).trigLen = s.trigLen := rfl
@[simp] theorem countUnknown_cdCap : (countUnknown s).cdCap = s.cdCap := rfl
@[simp] theorem countUnknown_trigCap : (countUnknown s).trigCap = s.trigCap := rfl
@[simp] theorem countUnknown_byteHold : (countUnknown s).byteHold = s.byteHold := rfl
@[simp] theorem countUnknown_haveByte : (countUnknown s).haveByte = s.haveByte := rfl
@[simp] theorem countUnknown_mem : (countUnknown s).mem = s.mem := rfl
@[simp] theorem countUnknown_input : (countUnknown s).input = s.input := rfl
@[simp] theorem countUnknown_headerVerdict : (countUnknown s).headerVerdict = s.headerVerdict := rfl
@[simp] theorem countUnknown_freeCount : (countUnknown s).freeCount = s.freeCount := rfl

/-! ## countOutOfOrder -/

@[simp] theorem countOutOfOrder_curY : (countOutOfOrder s).curY = s.curY := rfl
@[simp] theorem countOutOfOrder_baseX : (countOutOfOrder s).baseX = s.baseX := rfl
@[simp] theorem countOutOfOrder_vectPolarity : (countOutOfOrder s).vectPolarity = s.vectPolarity := rfl
@[simp] theorem countOutOfOrder_timeLow : (countOutOfOrder s).timeLow = s.timeLow := rfl
@[simp] theorem countOutOfOrder_timeHigh : (countOutOfOrder s).timeHigh = s.timeHigh := rfl
@[simp] theorem countOutOfOrder_timeHighLoops : (countOutOfOrder s).timeHighLoops = s.timeHighLoops := rfl
@[simp] theorem countOutOfOrder_lastTimeHighPayload : (countOutOfOrder s).lastTimeHighPayload = s.lastTimeHighPayload := rfl
@[simp] theorem countOutOfOrder_haveY : (countOutOfOrder s).haveY = s.haveY := rfl
@[simp] theorem countOutOfOrder_haveTimeHigh : (countOutOfOrder s).haveTimeHigh = s.haveTimeHigh := rfl
@[simp] theorem countOutOfOrder_wordIndex : (countOutOfOrder s).wordIndex = s.wordIndex := rfl
@[simp] theorem countOutOfOrder_droppedBeforeY : (countOutOfOrder s).droppedBeforeY = s.droppedBeforeY := rfl
@[simp] theorem countOutOfOrder_unknownEvents : (countOutOfOrder s).unknownEvents = s.unknownEvents := rfl
@[simp] theorem countOutOfOrder_outOfOrderEvents : (countOutOfOrder s).outOfOrderEvents = s.outOfOrderEvents + 1 := rfl
@[simp] theorem countOutOfOrder_phase : (countOutOfOrder s).phase = s.phase := rfl
@[simp] theorem countOutOfOrder_errKind : (countOutOfOrder s).errKind = s.errKind := rfl
@[simp] theorem countOutOfOrder_errCode : (countOutOfOrder s).errCode = s.errCode := rfl
@[simp] theorem countOutOfOrder_errWordIndex : (countOutOfOrder s).errWordIndex = s.errWordIndex := rfl
@[simp] theorem countOutOfOrder_errIo : (countOutOfOrder s).errIo = s.errIo := rfl
@[simp] theorem countOutOfOrder_sensorWidth : (countOutOfOrder s).sensorWidth = s.sensorWidth := rfl
@[simp] theorem countOutOfOrder_sensorHeight : (countOutOfOrder s).sensorHeight = s.sensorHeight := rfl
@[simp] theorem countOutOfOrder_cdLen : (countOutOfOrder s).cdLen = s.cdLen := rfl
@[simp] theorem countOutOfOrder_trigLen : (countOutOfOrder s).trigLen = s.trigLen := rfl
@[simp] theorem countOutOfOrder_cdCap : (countOutOfOrder s).cdCap = s.cdCap := rfl
@[simp] theorem countOutOfOrder_trigCap : (countOutOfOrder s).trigCap = s.trigCap := rfl
@[simp] theorem countOutOfOrder_byteHold : (countOutOfOrder s).byteHold = s.byteHold := rfl
@[simp] theorem countOutOfOrder_haveByte : (countOutOfOrder s).haveByte = s.haveByte := rfl
@[simp] theorem countOutOfOrder_mem : (countOutOfOrder s).mem = s.mem := rfl
@[simp] theorem countOutOfOrder_input : (countOutOfOrder s).input = s.input := rfl
@[simp] theorem countOutOfOrder_headerVerdict : (countOutOfOrder s).headerVerdict = s.headerVerdict := rfl
@[simp] theorem countOutOfOrder_freeCount : (countOutOfOrder s).freeCount = s.freeCount := rfl

/-! ## endSession -/

@[simp] theorem endSession_curY : (endSession s).curY = s.curY := rfl
@[simp] theorem endSession_baseX : (endSession s).baseX = s.baseX := rfl
@[simp] theorem endSession_vectPolarity : (endSession s).vectPolarity = s.vectPolarity := rfl
@[simp] theorem endSession_timeLow : (endSession s).timeLow = s.timeLow := rfl
@[simp] theorem endSession_timeHigh : (endSession s).timeHigh = s.timeHigh := rfl
@[simp] theorem endSession_timeHighLoops : (endSession s).timeHighLoops = s.timeHighLoops := rfl
@[simp] theorem endSession_lastTimeHighPayload : (endSession s).lastTimeHighPayload = s.lastTimeHighPayload := rfl
@[simp] theorem endSession_haveY : (endSession s).haveY = s.haveY := rfl
@[simp] theorem endSession_haveTimeHigh : (endSession s).haveTimeHigh = s.haveTimeHigh := rfl
@[simp] theorem endSession_wordIndex : (endSession s).wordIndex = s.wordIndex := rfl
@[simp] theorem endSession_droppedBeforeY : (endSession s).droppedBeforeY = s.droppedBeforeY := rfl
@[simp] theorem endSession_unknownEvents : (endSession s).unknownEvents = s.unknownEvents := rfl
@[simp] theorem endSession_outOfOrderEvents : (endSession s).outOfOrderEvents = s.outOfOrderEvents := rfl
@[simp] theorem endSession_phase : (endSession s).phase = .done := rfl
@[simp] theorem endSession_errKind : (endSession s).errKind = s.errKind := rfl
@[simp] theorem endSession_errCode : (endSession s).errCode = s.errCode := rfl
@[simp] theorem endSession_errWordIndex : (endSession s).errWordIndex = s.errWordIndex := rfl
@[simp] theorem endSession_errIo : (endSession s).errIo = s.errIo := rfl
@[simp] theorem endSession_sensorWidth : (endSession s).sensorWidth = s.sensorWidth := rfl
@[simp] theorem endSession_sensorHeight : (endSession s).sensorHeight = s.sensorHeight := rfl
@[simp] theorem endSession_cdLen : (endSession s).cdLen = s.cdLen := rfl
@[simp] theorem endSession_trigLen : (endSession s).trigLen = s.trigLen := rfl
@[simp] theorem endSession_cdCap : (endSession s).cdCap = s.cdCap := rfl
@[simp] theorem endSession_trigCap : (endSession s).trigCap = s.trigCap := rfl
@[simp] theorem endSession_byteHold : (endSession s).byteHold = s.byteHold := rfl
@[simp] theorem endSession_haveByte : (endSession s).haveByte = s.haveByte := rfl
@[simp] theorem endSession_mem : (endSession s).mem = s.mem := rfl
@[simp] theorem endSession_input : (endSession s).input = s.input := rfl
@[simp] theorem endSession_headerVerdict : (endSession s).headerVerdict = s.headerVerdict := rfl
@[simp] theorem endSession_freeCount : (endSession s).freeCount = s.freeCount := rfl

/-! ## setCdCap -/

@[simp] theorem setCdCap_curY (c : BitVec 64) : (setCdCap c s).curY = s.curY := rfl
@[simp] theorem setCdCap_baseX (c : BitVec 64) : (setCdCap c s).baseX = s.baseX := rfl
@[simp] theorem setCdCap_vectPolarity (c : BitVec 64) : (setCdCap c s).vectPolarity = s.vectPolarity := rfl
@[simp] theorem setCdCap_timeLow (c : BitVec 64) : (setCdCap c s).timeLow = s.timeLow := rfl
@[simp] theorem setCdCap_timeHigh (c : BitVec 64) : (setCdCap c s).timeHigh = s.timeHigh := rfl
@[simp] theorem setCdCap_timeHighLoops (c : BitVec 64) : (setCdCap c s).timeHighLoops = s.timeHighLoops := rfl
@[simp] theorem setCdCap_lastTimeHighPayload (c : BitVec 64) : (setCdCap c s).lastTimeHighPayload = s.lastTimeHighPayload := rfl
@[simp] theorem setCdCap_haveY (c : BitVec 64) : (setCdCap c s).haveY = s.haveY := rfl
@[simp] theorem setCdCap_haveTimeHigh (c : BitVec 64) : (setCdCap c s).haveTimeHigh = s.haveTimeHigh := rfl
@[simp] theorem setCdCap_wordIndex (c : BitVec 64) : (setCdCap c s).wordIndex = s.wordIndex := rfl
@[simp] theorem setCdCap_droppedBeforeY (c : BitVec 64) : (setCdCap c s).droppedBeforeY = s.droppedBeforeY := rfl
@[simp] theorem setCdCap_unknownEvents (c : BitVec 64) : (setCdCap c s).unknownEvents = s.unknownEvents := rfl
@[simp] theorem setCdCap_outOfOrderEvents (c : BitVec 64) : (setCdCap c s).outOfOrderEvents = s.outOfOrderEvents := rfl
@[simp] theorem setCdCap_phase (c : BitVec 64) : (setCdCap c s).phase = s.phase := rfl
@[simp] theorem setCdCap_errKind (c : BitVec 64) : (setCdCap c s).errKind = s.errKind := rfl
@[simp] theorem setCdCap_errCode (c : BitVec 64) : (setCdCap c s).errCode = s.errCode := rfl
@[simp] theorem setCdCap_errWordIndex (c : BitVec 64) : (setCdCap c s).errWordIndex = s.errWordIndex := rfl
@[simp] theorem setCdCap_errIo (c : BitVec 64) : (setCdCap c s).errIo = s.errIo := rfl
@[simp] theorem setCdCap_sensorWidth (c : BitVec 64) : (setCdCap c s).sensorWidth = s.sensorWidth := rfl
@[simp] theorem setCdCap_sensorHeight (c : BitVec 64) : (setCdCap c s).sensorHeight = s.sensorHeight := rfl
@[simp] theorem setCdCap_cdLen (c : BitVec 64) : (setCdCap c s).cdLen = s.cdLen := rfl
@[simp] theorem setCdCap_trigLen (c : BitVec 64) : (setCdCap c s).trigLen = s.trigLen := rfl
@[simp] theorem setCdCap_cdCap (c : BitVec 64) : (setCdCap c s).cdCap = c := rfl
@[simp] theorem setCdCap_trigCap (c : BitVec 64) : (setCdCap c s).trigCap = s.trigCap := rfl
@[simp] theorem setCdCap_byteHold (c : BitVec 64) : (setCdCap c s).byteHold = s.byteHold := rfl
@[simp] theorem setCdCap_haveByte (c : BitVec 64) : (setCdCap c s).haveByte = s.haveByte := rfl
@[simp] theorem setCdCap_mem (c : BitVec 64) : (setCdCap c s).mem = s.mem := rfl
@[simp] theorem setCdCap_input (c : BitVec 64) : (setCdCap c s).input = s.input := rfl
@[simp] theorem setCdCap_headerVerdict (c : BitVec 64) : (setCdCap c s).headerVerdict = s.headerVerdict := rfl
@[simp] theorem setCdCap_freeCount (c : BitVec 64) : (setCdCap c s).freeCount = s.freeCount := rfl

/-! ## setTrigCap -/

@[simp] theorem setTrigCap_curY (c : BitVec 64) : (setTrigCap c s).curY = s.curY := rfl
@[simp] theorem setTrigCap_baseX (c : BitVec 64) : (setTrigCap c s).baseX = s.baseX := rfl
@[simp] theorem setTrigCap_vectPolarity (c : BitVec 64) : (setTrigCap c s).vectPolarity = s.vectPolarity := rfl
@[simp] theorem setTrigCap_timeLow (c : BitVec 64) : (setTrigCap c s).timeLow = s.timeLow := rfl
@[simp] theorem setTrigCap_timeHigh (c : BitVec 64) : (setTrigCap c s).timeHigh = s.timeHigh := rfl
@[simp] theorem setTrigCap_timeHighLoops (c : BitVec 64) : (setTrigCap c s).timeHighLoops = s.timeHighLoops := rfl
@[simp] theorem setTrigCap_lastTimeHighPayload (c : BitVec 64) : (setTrigCap c s).lastTimeHighPayload = s.lastTimeHighPayload := rfl
@[simp] theorem setTrigCap_haveY (c : BitVec 64) : (setTrigCap c s).haveY = s.haveY := rfl
@[simp] theorem setTrigCap_haveTimeHigh (c : BitVec 64) : (setTrigCap c s).haveTimeHigh = s.haveTimeHigh := rfl
@[simp] theorem setTrigCap_wordIndex (c : BitVec 64) : (setTrigCap c s).wordIndex = s.wordIndex := rfl
@[simp] theorem setTrigCap_droppedBeforeY (c : BitVec 64) : (setTrigCap c s).droppedBeforeY = s.droppedBeforeY := rfl
@[simp] theorem setTrigCap_unknownEvents (c : BitVec 64) : (setTrigCap c s).unknownEvents = s.unknownEvents := rfl
@[simp] theorem setTrigCap_outOfOrderEvents (c : BitVec 64) : (setTrigCap c s).outOfOrderEvents = s.outOfOrderEvents := rfl
@[simp] theorem setTrigCap_phase (c : BitVec 64) : (setTrigCap c s).phase = s.phase := rfl
@[simp] theorem setTrigCap_errKind (c : BitVec 64) : (setTrigCap c s).errKind = s.errKind := rfl
@[simp] theorem setTrigCap_errCode (c : BitVec 64) : (setTrigCap c s).errCode = s.errCode := rfl
@[simp] theorem setTrigCap_errWordIndex (c : BitVec 64) : (setTrigCap c s).errWordIndex = s.errWordIndex := rfl
@[simp] theorem setTrigCap_errIo (c : BitVec 64) : (setTrigCap c s).errIo = s.errIo := rfl
@[simp] theorem setTrigCap_sensorWidth (c : BitVec 64) : (setTrigCap c s).sensorWidth = s.sensorWidth := rfl
@[simp] theorem setTrigCap_sensorHeight (c : BitVec 64) : (setTrigCap c s).sensorHeight = s.sensorHeight := rfl
@[simp] theorem setTrigCap_cdLen (c : BitVec 64) : (setTrigCap c s).cdLen = s.cdLen := rfl
@[simp] theorem setTrigCap_trigLen (c : BitVec 64) : (setTrigCap c s).trigLen = s.trigLen := rfl
@[simp] theorem setTrigCap_cdCap (c : BitVec 64) : (setTrigCap c s).cdCap = s.cdCap := rfl
@[simp] theorem setTrigCap_trigCap (c : BitVec 64) : (setTrigCap c s).trigCap = c := rfl
@[simp] theorem setTrigCap_byteHold (c : BitVec 64) : (setTrigCap c s).byteHold = s.byteHold := rfl
@[simp] theorem setTrigCap_haveByte (c : BitVec 64) : (setTrigCap c s).haveByte = s.haveByte := rfl
@[simp] theorem setTrigCap_mem (c : BitVec 64) : (setTrigCap c s).mem = s.mem := rfl
@[simp] theorem setTrigCap_input (c : BitVec 64) : (setTrigCap c s).input = s.input := rfl
@[simp] theorem setTrigCap_headerVerdict (c : BitVec 64) : (setTrigCap c s).headerVerdict = s.headerVerdict := rfl
@[simp] theorem setTrigCap_freeCount (c : BitVec 64) : (setTrigCap c s).freeCount = s.freeCount := rfl

/-! ## storeCd -/

@[simp] theorem storeCd_curY (x y : BitVec 16) (p : BitVec 8) (t : Timestamp) : (storeCd x y p t s).curY = s.curY := rfl
@[simp] theorem storeCd_baseX (x y : BitVec 16) (p : BitVec 8) (t : Timestamp) : (storeCd x y p t s).baseX = s.baseX := rfl
@[simp] theorem storeCd_vectPolarity (x y : BitVec 16) (p : BitVec 8) (t : Timestamp) : (storeCd x y p t s).vectPolarity = s.vectPolarity := rfl
@[simp] theorem storeCd_timeLow (x y : BitVec 16) (p : BitVec 8) (t : Timestamp) : (storeCd x y p t s).timeLow = s.timeLow := rfl
@[simp] theorem storeCd_timeHigh (x y : BitVec 16) (p : BitVec 8) (t : Timestamp) : (storeCd x y p t s).timeHigh = s.timeHigh := rfl
@[simp] theorem storeCd_timeHighLoops (x y : BitVec 16) (p : BitVec 8) (t : Timestamp) : (storeCd x y p t s).timeHighLoops = s.timeHighLoops := rfl
@[simp] theorem storeCd_lastTimeHighPayload (x y : BitVec 16) (p : BitVec 8) (t : Timestamp) : (storeCd x y p t s).lastTimeHighPayload = s.lastTimeHighPayload := rfl
@[simp] theorem storeCd_haveY (x y : BitVec 16) (p : BitVec 8) (t : Timestamp) : (storeCd x y p t s).haveY = s.haveY := rfl
@[simp] theorem storeCd_haveTimeHigh (x y : BitVec 16) (p : BitVec 8) (t : Timestamp) : (storeCd x y p t s).haveTimeHigh = s.haveTimeHigh := rfl
@[simp] theorem storeCd_wordIndex (x y : BitVec 16) (p : BitVec 8) (t : Timestamp) : (storeCd x y p t s).wordIndex = s.wordIndex := rfl
@[simp] theorem storeCd_droppedBeforeY (x y : BitVec 16) (p : BitVec 8) (t : Timestamp) : (storeCd x y p t s).droppedBeforeY = s.droppedBeforeY := rfl
@[simp] theorem storeCd_unknownEvents (x y : BitVec 16) (p : BitVec 8) (t : Timestamp) : (storeCd x y p t s).unknownEvents = s.unknownEvents := rfl
@[simp] theorem storeCd_outOfOrderEvents (x y : BitVec 16) (p : BitVec 8) (t : Timestamp) : (storeCd x y p t s).outOfOrderEvents = s.outOfOrderEvents := rfl
@[simp] theorem storeCd_phase (x y : BitVec 16) (p : BitVec 8) (t : Timestamp) : (storeCd x y p t s).phase = s.phase := rfl
@[simp] theorem storeCd_errKind (x y : BitVec 16) (p : BitVec 8) (t : Timestamp) : (storeCd x y p t s).errKind = s.errKind := rfl
@[simp] theorem storeCd_errCode (x y : BitVec 16) (p : BitVec 8) (t : Timestamp) : (storeCd x y p t s).errCode = s.errCode := rfl
@[simp] theorem storeCd_errWordIndex (x y : BitVec 16) (p : BitVec 8) (t : Timestamp) : (storeCd x y p t s).errWordIndex = s.errWordIndex := rfl
@[simp] theorem storeCd_errIo (x y : BitVec 16) (p : BitVec 8) (t : Timestamp) : (storeCd x y p t s).errIo = s.errIo := rfl
@[simp] theorem storeCd_sensorWidth (x y : BitVec 16) (p : BitVec 8) (t : Timestamp) : (storeCd x y p t s).sensorWidth = s.sensorWidth := rfl
@[simp] theorem storeCd_sensorHeight (x y : BitVec 16) (p : BitVec 8) (t : Timestamp) : (storeCd x y p t s).sensorHeight = s.sensorHeight := rfl
@[simp] theorem storeCd_cdLen (x y : BitVec 16) (p : BitVec 8) (t : Timestamp) : (storeCd x y p t s).cdLen = s.cdLen + 1 := rfl
@[simp] theorem storeCd_trigLen (x y : BitVec 16) (p : BitVec 8) (t : Timestamp) : (storeCd x y p t s).trigLen = s.trigLen := rfl
@[simp] theorem storeCd_cdCap (x y : BitVec 16) (p : BitVec 8) (t : Timestamp) : (storeCd x y p t s).cdCap = s.cdCap := rfl
@[simp] theorem storeCd_trigCap (x y : BitVec 16) (p : BitVec 8) (t : Timestamp) : (storeCd x y p t s).trigCap = s.trigCap := rfl
@[simp] theorem storeCd_byteHold (x y : BitVec 16) (p : BitVec 8) (t : Timestamp) : (storeCd x y p t s).byteHold = s.byteHold := rfl
@[simp] theorem storeCd_haveByte (x y : BitVec 16) (p : BitVec 8) (t : Timestamp) : (storeCd x y p t s).haveByte = s.haveByte := rfl
@[simp] theorem storeCd_mem_cdX (x y : BitVec 16) (p : BitVec 8) (t : Timestamp) : (storeCd x y p t s).mem.cdX = colWrite s.mem.cdX (cdSlot s) x := rfl
@[simp] theorem storeCd_mem_cdY (x y : BitVec 16) (p : BitVec 8) (t : Timestamp) : (storeCd x y p t s).mem.cdY = colWrite s.mem.cdY (cdSlot s) y := rfl
@[simp] theorem storeCd_mem_cdP (x y : BitVec 16) (p : BitVec 8) (t : Timestamp) : (storeCd x y p t s).mem.cdP = colWrite s.mem.cdP (cdSlot s) p := rfl
@[simp] theorem storeCd_mem_cdT (x y : BitVec 16) (p : BitVec 8) (t : Timestamp) : (storeCd x y p t s).mem.cdT = colWrite s.mem.cdT (cdSlot s) t := rfl
@[simp] theorem storeCd_mem_trT (x y : BitVec 16) (p : BitVec 8) (t : Timestamp) : (storeCd x y p t s).mem.trT = s.mem.trT := rfl
@[simp] theorem storeCd_mem_trId (x y : BitVec 16) (p : BitVec 8) (t : Timestamp) : (storeCd x y p t s).mem.trId = s.mem.trId := rfl
@[simp] theorem storeCd_mem_trV (x y : BitVec 16) (p : BitVec 8) (t : Timestamp) : (storeCd x y p t s).mem.trV = s.mem.trV := rfl
@[simp] theorem storeCd_input (x y : BitVec 16) (p : BitVec 8) (t : Timestamp) : (storeCd x y p t s).input = s.input := rfl
@[simp] theorem storeCd_headerVerdict (x y : BitVec 16) (p : BitVec 8) (t : Timestamp) : (storeCd x y p t s).headerVerdict = s.headerVerdict := rfl
@[simp] theorem storeCd_freeCount (x y : BitVec 16) (p : BitVec 8) (t : Timestamp) : (storeCd x y p t s).freeCount = s.freeCount := rfl

/-! ## storeTrig -/

@[simp] theorem storeTrig_curY (t : Timestamp) (i v : BitVec 8) : (storeTrig t i v s).curY = s.curY := rfl
@[simp] theorem storeTrig_baseX (t : Timestamp) (i v : BitVec 8) : (storeTrig t i v s).baseX = s.baseX := rfl
@[simp] theorem storeTrig_vectPolarity (t : Timestamp) (i v : BitVec 8) : (storeTrig t i v s).vectPolarity = s.vectPolarity := rfl
@[simp] theorem storeTrig_timeLow (t : Timestamp) (i v : BitVec 8) : (storeTrig t i v s).timeLow = s.timeLow := rfl
@[simp] theorem storeTrig_timeHigh (t : Timestamp) (i v : BitVec 8) : (storeTrig t i v s).timeHigh = s.timeHigh := rfl
@[simp] theorem storeTrig_timeHighLoops (t : Timestamp) (i v : BitVec 8) : (storeTrig t i v s).timeHighLoops = s.timeHighLoops := rfl
@[simp] theorem storeTrig_lastTimeHighPayload (t : Timestamp) (i v : BitVec 8) : (storeTrig t i v s).lastTimeHighPayload = s.lastTimeHighPayload := rfl
@[simp] theorem storeTrig_haveY (t : Timestamp) (i v : BitVec 8) : (storeTrig t i v s).haveY = s.haveY := rfl
@[simp] theorem storeTrig_haveTimeHigh (t : Timestamp) (i v : BitVec 8) : (storeTrig t i v s).haveTimeHigh = s.haveTimeHigh := rfl
@[simp] theorem storeTrig_wordIndex (t : Timestamp) (i v : BitVec 8) : (storeTrig t i v s).wordIndex = s.wordIndex := rfl
@[simp] theorem storeTrig_droppedBeforeY (t : Timestamp) (i v : BitVec 8) : (storeTrig t i v s).droppedBeforeY = s.droppedBeforeY := rfl
@[simp] theorem storeTrig_unknownEvents (t : Timestamp) (i v : BitVec 8) : (storeTrig t i v s).unknownEvents = s.unknownEvents := rfl
@[simp] theorem storeTrig_outOfOrderEvents (t : Timestamp) (i v : BitVec 8) : (storeTrig t i v s).outOfOrderEvents = s.outOfOrderEvents := rfl
@[simp] theorem storeTrig_phase (t : Timestamp) (i v : BitVec 8) : (storeTrig t i v s).phase = s.phase := rfl
@[simp] theorem storeTrig_errKind (t : Timestamp) (i v : BitVec 8) : (storeTrig t i v s).errKind = s.errKind := rfl
@[simp] theorem storeTrig_errCode (t : Timestamp) (i v : BitVec 8) : (storeTrig t i v s).errCode = s.errCode := rfl
@[simp] theorem storeTrig_errWordIndex (t : Timestamp) (i v : BitVec 8) : (storeTrig t i v s).errWordIndex = s.errWordIndex := rfl
@[simp] theorem storeTrig_errIo (t : Timestamp) (i v : BitVec 8) : (storeTrig t i v s).errIo = s.errIo := rfl
@[simp] theorem storeTrig_sensorWidth (t : Timestamp) (i v : BitVec 8) : (storeTrig t i v s).sensorWidth = s.sensorWidth := rfl
@[simp] theorem storeTrig_sensorHeight (t : Timestamp) (i v : BitVec 8) : (storeTrig t i v s).sensorHeight = s.sensorHeight := rfl
@[simp] theorem storeTrig_cdLen (t : Timestamp) (i v : BitVec 8) : (storeTrig t i v s).cdLen = s.cdLen := rfl
@[simp] theorem storeTrig_trigLen (t : Timestamp) (i v : BitVec 8) : (storeTrig t i v s).trigLen = s.trigLen + 1 := rfl
@[simp] theorem storeTrig_cdCap (t : Timestamp) (i v : BitVec 8) : (storeTrig t i v s).cdCap = s.cdCap := rfl
@[simp] theorem storeTrig_trigCap (t : Timestamp) (i v : BitVec 8) : (storeTrig t i v s).trigCap = s.trigCap := rfl
@[simp] theorem storeTrig_byteHold (t : Timestamp) (i v : BitVec 8) : (storeTrig t i v s).byteHold = s.byteHold := rfl
@[simp] theorem storeTrig_haveByte (t : Timestamp) (i v : BitVec 8) : (storeTrig t i v s).haveByte = s.haveByte := rfl
@[simp] theorem storeTrig_mem_cdX (t : Timestamp) (i v : BitVec 8) : (storeTrig t i v s).mem.cdX = s.mem.cdX := rfl
@[simp] theorem storeTrig_mem_cdY (t : Timestamp) (i v : BitVec 8) : (storeTrig t i v s).mem.cdY = s.mem.cdY := rfl
@[simp] theorem storeTrig_mem_cdP (t : Timestamp) (i v : BitVec 8) : (storeTrig t i v s).mem.cdP = s.mem.cdP := rfl
@[simp] theorem storeTrig_mem_cdT (t : Timestamp) (i v : BitVec 8) : (storeTrig t i v s).mem.cdT = s.mem.cdT := rfl
@[simp] theorem storeTrig_mem_trT (t : Timestamp) (i v : BitVec 8) : (storeTrig t i v s).mem.trT = colWrite s.mem.trT (trigSlot s) t := rfl
@[simp] theorem storeTrig_mem_trId (t : Timestamp) (i v : BitVec 8) : (storeTrig t i v s).mem.trId = colWrite s.mem.trId (trigSlot s) i := rfl
@[simp] theorem storeTrig_mem_trV (t : Timestamp) (i v : BitVec 8) : (storeTrig t i v s).mem.trV = colWrite s.mem.trV (trigSlot s) v := rfl
@[simp] theorem storeTrig_input (t : Timestamp) (i v : BitVec 8) : (storeTrig t i v s).input = s.input := rfl
@[simp] theorem storeTrig_headerVerdict (t : Timestamp) (i v : BitVec 8) : (storeTrig t i v s).headerVerdict = s.headerVerdict := rfl
@[simp] theorem storeTrig_freeCount (t : Timestamp) (i v : BitVec 8) : (storeTrig t i v s).freeCount = s.freeCount := rfl

/-! ## raise -/

@[simp] theorem raise_curY (e : FatalError) : (raise e s).curY = s.curY := rfl
@[simp] theorem raise_baseX (e : FatalError) : (raise e s).baseX = s.baseX := rfl
@[simp] theorem raise_vectPolarity (e : FatalError) : (raise e s).vectPolarity = s.vectPolarity := rfl
@[simp] theorem raise_timeLow (e : FatalError) : (raise e s).timeLow = s.timeLow := rfl
@[simp] theorem raise_timeHigh (e : FatalError) : (raise e s).timeHigh = s.timeHigh := rfl
@[simp] theorem raise_timeHighLoops (e : FatalError) : (raise e s).timeHighLoops = s.timeHighLoops := rfl
@[simp] theorem raise_lastTimeHighPayload (e : FatalError) : (raise e s).lastTimeHighPayload = s.lastTimeHighPayload := rfl
@[simp] theorem raise_haveY (e : FatalError) : (raise e s).haveY = s.haveY := rfl
@[simp] theorem raise_haveTimeHigh (e : FatalError) : (raise e s).haveTimeHigh = s.haveTimeHigh := rfl
@[simp] theorem raise_wordIndex (e : FatalError) : (raise e s).wordIndex = s.wordIndex := rfl
@[simp] theorem raise_droppedBeforeY (e : FatalError) : (raise e s).droppedBeforeY = s.droppedBeforeY := rfl
@[simp] theorem raise_unknownEvents (e : FatalError) : (raise e s).unknownEvents = s.unknownEvents := rfl
@[simp] theorem raise_outOfOrderEvents (e : FatalError) : (raise e s).outOfOrderEvents = s.outOfOrderEvents := rfl
@[simp] theorem raise_phase (e : FatalError) : (raise e s).phase = .fault := rfl
@[simp] theorem raise_errKind (e : FatalError) : (raise e s).errKind = errorKind e := rfl
@[simp] theorem raise_errCode (e : FatalError) : (raise e s).errCode = errorCode e := rfl
@[simp] theorem raise_errWordIndex (e : FatalError) : (raise e s).errWordIndex = s.wordIndex := rfl
@[simp] theorem raise_errIo (e : FatalError) : (raise e s).errIo = errorIo e s := rfl
@[simp] theorem raise_sensorWidth (e : FatalError) : (raise e s).sensorWidth = s.sensorWidth := rfl
@[simp] theorem raise_sensorHeight (e : FatalError) : (raise e s).sensorHeight = s.sensorHeight := rfl
@[simp] theorem raise_cdLen (e : FatalError) : (raise e s).cdLen = s.cdLen := rfl
@[simp] theorem raise_trigLen (e : FatalError) : (raise e s).trigLen = s.trigLen := rfl
@[simp] theorem raise_cdCap (e : FatalError) : (raise e s).cdCap = s.cdCap := rfl
@[simp] theorem raise_trigCap (e : FatalError) : (raise e s).trigCap = s.trigCap := rfl
@[simp] theorem raise_byteHold (e : FatalError) : (raise e s).byteHold = s.byteHold := rfl
@[simp] theorem raise_haveByte (e : FatalError) : (raise e s).haveByte = s.haveByte := rfl
@[simp] theorem raise_mem (e : FatalError) : (raise e s).mem = s.mem := rfl
@[simp] theorem raise_input (e : FatalError) : (raise e s).input = s.input := rfl
@[simp] theorem raise_headerVerdict (e : FatalError) : (raise e s).headerVerdict = s.headerVerdict := rfl
@[simp] theorem raise_freeCount (e : FatalError) : (raise e s).freeCount = s.freeCount + 1 := rfl

/-! ## holdByte -/

@[simp] theorem holdByte_curY (b : Byte) : (holdByte b s).curY = s.curY := rfl
@[simp] theorem holdByte_baseX (b : Byte) : (holdByte b s).baseX = s.baseX := rfl
@[simp] theorem holdByte_vectPolarity (b : Byte) : (holdByte b s).vectPolarity = s.vectPolarity := rfl
@[simp] theorem holdByte_timeLow (b : Byte) : (holdByte b s).timeLow = s.timeLow := rfl
@[simp] theorem holdByte_timeHigh (b : Byte) : (holdByte b s).timeHigh = s.timeHigh := rfl
@[simp] theorem holdByte_timeHighLoops (b : Byte) : (holdByte b s).timeHighLoops = s.timeHighLoops := rfl
@[simp] theorem holdByte_lastTimeHighPayload (b : Byte) : (holdByte b s).lastTimeHighPayload = s.lastTimeHighPayload := rfl
@[simp] theorem holdByte_haveY (b : Byte) : (holdByte b s).haveY = s.haveY := rfl
@[simp] theorem holdByte_haveTimeHigh (b : Byte) : (holdByte b s).haveTimeHigh = s.haveTimeHigh := rfl
@[simp] theorem holdByte_wordIndex (b : Byte) : (holdByte b s).wordIndex = s.wordIndex := rfl
@[simp] theorem holdByte_droppedBeforeY (b : Byte) : (holdByte b s).droppedBeforeY = s.droppedBeforeY := rfl
@[simp] theorem holdByte_unknownEvents (b : Byte) : (holdByte b s).unknownEvents = s.unknownEvents := rfl
@[simp] theorem holdByte_outOfOrderEvents (b : Byte) : (holdByte b s).outOfOrderEvents = s.outOfOrderEvents := rfl
@[simp] theorem holdByte_phase (b : Byte) : (holdByte b s).phase = s.phase := rfl
@[simp] theorem holdByte_errKind (b : Byte) : (holdByte b s).errKind = s.errKind := rfl
@[simp] theorem holdByte_errCode (b : Byte) : (holdByte b s).errCode = s.errCode := rfl
@[simp] theorem holdByte_errWordIndex (b : Byte) : (holdByte b s).errWordIndex = s.errWordIndex := rfl
@[simp] theorem holdByte_errIo (b : Byte) : (holdByte b s).errIo = s.errIo := rfl
@[simp] theorem holdByte_sensorWidth (b : Byte) : (holdByte b s).sensorWidth = s.sensorWidth := rfl
@[simp] theorem holdByte_sensorHeight (b : Byte) : (holdByte b s).sensorHeight = s.sensorHeight := rfl
@[simp] theorem holdByte_cdLen (b : Byte) : (holdByte b s).cdLen = s.cdLen := rfl
@[simp] theorem holdByte_trigLen (b : Byte) : (holdByte b s).trigLen = s.trigLen := rfl
@[simp] theorem holdByte_cdCap (b : Byte) : (holdByte b s).cdCap = s.cdCap := rfl
@[simp] theorem holdByte_trigCap (b : Byte) : (holdByte b s).trigCap = s.trigCap := rfl
@[simp] theorem holdByte_byteHold (b : Byte) : (holdByte b s).byteHold = b := rfl
@[simp] theorem holdByte_haveByte (b : Byte) : (holdByte b s).haveByte = true := rfl
@[simp] theorem holdByte_mem (b : Byte) : (holdByte b s).mem = s.mem := rfl
@[simp] theorem holdByte_input (b : Byte) : (holdByte b s).input = s.input := rfl
@[simp] theorem holdByte_headerVerdict (b : Byte) : (holdByte b s).headerVerdict = s.headerVerdict := rfl
@[simp] theorem holdByte_freeCount (b : Byte) : (holdByte b s).freeCount = s.freeCount := rfl

/-! ## releaseByte -/

@[simp] theorem releaseByte_curY : (releaseByte s).curY = s.curY := rfl
@[simp] theorem releaseByte_baseX : (releaseByte s).baseX = s.baseX := rfl
@[simp] theorem releaseByte_vectPolarity : (releaseByte s).vectPolarity = s.vectPolarity := rfl
@[simp] theorem releaseByte_timeLow : (releaseByte s).timeLow = s.timeLow := rfl
@[simp] theorem releaseByte_timeHigh : (releaseByte s).timeHigh = s.timeHigh := rfl
@[simp] theorem releaseByte_timeHighLoops : (releaseByte s).timeHighLoops = s.timeHighLoops := rfl
@[simp] theorem releaseByte_lastTimeHighPayload : (releaseByte s).lastTimeHighPayload = s.lastTimeHighPayload := rfl
@[simp] theorem releaseByte_haveY : (releaseByte s).haveY = s.haveY := rfl
@[simp] theorem releaseByte_haveTimeHigh : (releaseByte s).haveTimeHigh = s.haveTimeHigh := rfl
@[simp] theorem releaseByte_wordIndex : (releaseByte s).wordIndex = s.wordIndex := rfl
@[simp] theorem releaseByte_droppedBeforeY : (releaseByte s).droppedBeforeY = s.droppedBeforeY := rfl
@[simp] theorem releaseByte_unknownEvents : (releaseByte s).unknownEvents = s.unknownEvents := rfl
@[simp] theorem releaseByte_outOfOrderEvents : (releaseByte s).outOfOrderEvents = s.outOfOrderEvents := rfl
@[simp] theorem releaseByte_phase : (releaseByte s).phase = s.phase := rfl
@[simp] theorem releaseByte_errKind : (releaseByte s).errKind = s.errKind := rfl
@[simp] theorem releaseByte_errCode : (releaseByte s).errCode = s.errCode := rfl
@[simp] theorem releaseByte_errWordIndex : (releaseByte s).errWordIndex = s.errWordIndex := rfl
@[simp] theorem releaseByte_errIo : (releaseByte s).errIo = s.errIo := rfl
@[simp] theorem releaseByte_sensorWidth : (releaseByte s).sensorWidth = s.sensorWidth := rfl
@[simp] theorem releaseByte_sensorHeight : (releaseByte s).sensorHeight = s.sensorHeight := rfl
@[simp] theorem releaseByte_cdLen : (releaseByte s).cdLen = s.cdLen := rfl
@[simp] theorem releaseByte_trigLen : (releaseByte s).trigLen = s.trigLen := rfl
@[simp] theorem releaseByte_cdCap : (releaseByte s).cdCap = s.cdCap := rfl
@[simp] theorem releaseByte_trigCap : (releaseByte s).trigCap = s.trigCap := rfl
@[simp] theorem releaseByte_byteHold : (releaseByte s).byteHold = s.byteHold := rfl
@[simp] theorem releaseByte_haveByte : (releaseByte s).haveByte = false := rfl
@[simp] theorem releaseByte_mem : (releaseByte s).mem = s.mem := rfl
@[simp] theorem releaseByte_input : (releaseByte s).input = s.input := rfl
@[simp] theorem releaseByte_headerVerdict : (releaseByte s).headerVerdict = s.headerVerdict := rfl
@[simp] theorem releaseByte_freeCount : (releaseByte s).freeCount = s.freeCount := rfl

/-! ## setInput -/

@[simp] theorem setInput_curY (r : List ByteToken) : (setInput r s).curY = s.curY := rfl
@[simp] theorem setInput_baseX (r : List ByteToken) : (setInput r s).baseX = s.baseX := rfl
@[simp] theorem setInput_vectPolarity (r : List ByteToken) : (setInput r s).vectPolarity = s.vectPolarity := rfl
@[simp] theorem setInput_timeLow (r : List ByteToken) : (setInput r s).timeLow = s.timeLow := rfl
@[simp] theorem setInput_timeHigh (r : List ByteToken) : (setInput r s).timeHigh = s.timeHigh := rfl
@[simp] theorem setInput_timeHighLoops (r : List ByteToken) : (setInput r s).timeHighLoops = s.timeHighLoops := rfl
@[simp] theorem setInput_lastTimeHighPayload (r : List ByteToken) : (setInput r s).lastTimeHighPayload = s.lastTimeHighPayload := rfl
@[simp] theorem setInput_haveY (r : List ByteToken) : (setInput r s).haveY = s.haveY := rfl
@[simp] theorem setInput_haveTimeHigh (r : List ByteToken) : (setInput r s).haveTimeHigh = s.haveTimeHigh := rfl
@[simp] theorem setInput_wordIndex (r : List ByteToken) : (setInput r s).wordIndex = s.wordIndex := rfl
@[simp] theorem setInput_droppedBeforeY (r : List ByteToken) : (setInput r s).droppedBeforeY = s.droppedBeforeY := rfl
@[simp] theorem setInput_unknownEvents (r : List ByteToken) : (setInput r s).unknownEvents = s.unknownEvents := rfl
@[simp] theorem setInput_outOfOrderEvents (r : List ByteToken) : (setInput r s).outOfOrderEvents = s.outOfOrderEvents := rfl
@[simp] theorem setInput_phase (r : List ByteToken) : (setInput r s).phase = s.phase := rfl
@[simp] theorem setInput_errKind (r : List ByteToken) : (setInput r s).errKind = s.errKind := rfl
@[simp] theorem setInput_errCode (r : List ByteToken) : (setInput r s).errCode = s.errCode := rfl
@[simp] theorem setInput_errWordIndex (r : List ByteToken) : (setInput r s).errWordIndex = s.errWordIndex := rfl
@[simp] theorem setInput_errIo (r : List ByteToken) : (setInput r s).errIo = s.errIo := rfl
@[simp] theorem setInput_sensorWidth (r : List ByteToken) : (setInput r s).sensorWidth = s.sensorWidth := rfl
@[simp] theorem setInput_sensorHeight (r : List ByteToken) : (setInput r s).sensorHeight = s.sensorHeight := rfl
@[simp] theorem setInput_cdLen (r : List ByteToken) : (setInput r s).cdLen = s.cdLen := rfl
@[simp] theorem setInput_trigLen (r : List ByteToken) : (setInput r s).trigLen = s.trigLen := rfl
@[simp] theorem setInput_cdCap (r : List ByteToken) : (setInput r s).cdCap = s.cdCap := rfl
@[simp] theorem setInput_trigCap (r : List ByteToken) : (setInput r s).trigCap = s.trigCap := rfl
@[simp] theorem setInput_byteHold (r : List ByteToken) : (setInput r s).byteHold = s.byteHold := rfl
@[simp] theorem setInput_haveByte (r : List ByteToken) : (setInput r s).haveByte = s.haveByte := rfl
@[simp] theorem setInput_mem (r : List ByteToken) : (setInput r s).mem = s.mem := rfl
@[simp] theorem setInput_input (r : List ByteToken) : (setInput r s).input = r := rfl
@[simp] theorem setInput_headerVerdict (r : List ByteToken) : (setInput r s).headerVerdict = s.headerVerdict := rfl
@[simp] theorem setInput_freeCount (r : List ByteToken) : (setInput r s).freeCount = s.freeCount := rfl

/-! ## withSensor -/

@[simp] theorem withSensor_curY (w h : BitVec 16) : (withSensor w h s).curY = s.curY := rfl
@[simp] theorem withSensor_baseX (w h : BitVec 16) : (withSensor w h s).baseX = s.baseX := rfl
@[simp] theorem withSensor_vectPolarity (w h : BitVec 16) : (withSensor w h s).vectPolarity = s.vectPolarity := rfl
@[simp] theorem withSensor_timeLow (w h : BitVec 16) : (withSensor w h s).timeLow = s.timeLow := rfl
@[simp] theorem withSensor_timeHigh (w h : BitVec 16) : (withSensor w h s).timeHigh = s.timeHigh := rfl
@[simp] theorem withSensor_timeHighLoops (w h : BitVec 16) : (withSensor w h s).timeHighLoops = s.timeHighLoops := rfl
@[simp] theorem withSensor_lastTimeHighPayload (w h : BitVec 16) : (withSensor w h s).lastTimeHighPayload = s.lastTimeHighPayload := rfl
@[simp] theorem withSensor_haveY (w h : BitVec 16) : (withSensor w h s).haveY = s.haveY := rfl
@[simp] theorem withSensor_haveTimeHigh (w h : BitVec 16) : (withSensor w h s).haveTimeHigh = s.haveTimeHigh := rfl
@[simp] theorem withSensor_wordIndex (w h : BitVec 16) : (withSensor w h s).wordIndex = s.wordIndex := rfl
@[simp] theorem withSensor_droppedBeforeY (w h : BitVec 16) : (withSensor w h s).droppedBeforeY = s.droppedBeforeY := rfl
@[simp] theorem withSensor_unknownEvents (w h : BitVec 16) : (withSensor w h s).unknownEvents = s.unknownEvents := rfl
@[simp] theorem withSensor_outOfOrderEvents (w h : BitVec 16) : (withSensor w h s).outOfOrderEvents = s.outOfOrderEvents := rfl
@[simp] theorem withSensor_phase (w h : BitVec 16) : (withSensor w h s).phase = s.phase := rfl
@[simp] theorem withSensor_errKind (w h : BitVec 16) : (withSensor w h s).errKind = s.errKind := rfl
@[simp] theorem withSensor_errCode (w h : BitVec 16) : (withSensor w h s).errCode = s.errCode := rfl
@[simp] theorem withSensor_errWordIndex (w h : BitVec 16) : (withSensor w h s).errWordIndex = s.errWordIndex := rfl
@[simp] theorem withSensor_errIo (w h : BitVec 16) : (withSensor w h s).errIo = s.errIo := rfl
@[simp] theorem withSensor_sensorWidth (w h : BitVec 16) : (withSensor w h s).sensorWidth = w := rfl
@[simp] theorem withSensor_sensorHeight (w h : BitVec 16) : (withSensor w h s).sensorHeight = h := rfl
@[simp] theorem withSensor_cdLen (w h : BitVec 16) : (withSensor w h s).cdLen = s.cdLen := rfl
@[simp] theorem withSensor_trigLen (w h : BitVec 16) : (withSensor w h s).trigLen = s.trigLen := rfl
@[simp] theorem withSensor_cdCap (w h : BitVec 16) : (withSensor w h s).cdCap = s.cdCap := rfl
@[simp] theorem withSensor_trigCap (w h : BitVec 16) : (withSensor w h s).trigCap = s.trigCap := rfl
@[simp] theorem withSensor_byteHold (w h : BitVec 16) : (withSensor w h s).byteHold = s.byteHold := rfl
@[simp] theorem withSensor_haveByte (w h : BitVec 16) : (withSensor w h s).haveByte = s.haveByte := rfl
@[simp] theorem withSensor_mem (w h : BitVec 16) : (withSensor w h s).mem = s.mem := rfl
@[simp] theorem withSensor_input (w h : BitVec 16) : (withSensor w h s).input = s.input := rfl
@[simp] theorem withSensor_headerVerdict (w h : BitVec 16) : (withSensor w h s).headerVerdict = s.headerVerdict := rfl
@[simp] theorem withSensor_freeCount (w h : BitVec 16) : (withSensor w h s).freeCount = s.freeCount := rfl

/-! ## withIngress -/

@[simp] theorem withIngress_curY (b : Byte) (f : Bool) (r : List ByteToken) (v : HeaderVerdict) : (withIngress b f r v s).curY = s.curY := rfl
@[simp] theorem withIngress_baseX (b : Byte) (f : Bool) (r : List ByteToken) (v : HeaderVerdict) : (withIngress b f r v s).baseX = s.baseX := rfl
@[simp] theorem withIngress_vectPolarity (b : Byte) (f : Bool) (r : List ByteToken) (v : HeaderVerdict) : (withIngress b f r v s).vectPolarity = s.vectPolarity := rfl
@[simp] theorem withIngress_timeLow (b : Byte) (f : Bool) (r : List ByteToken) (v : HeaderVerdict) : (withIngress b f r v s).timeLow = s.timeLow := rfl
@[simp] theorem withIngress_timeHigh (b : Byte) (f : Bool) (r : List ByteToken) (v : HeaderVerdict) : (withIngress b f r v s).timeHigh = s.timeHigh := rfl
@[simp] theorem withIngress_timeHighLoops (b : Byte) (f : Bool) (r : List ByteToken) (v : HeaderVerdict) : (withIngress b f r v s).timeHighLoops = s.timeHighLoops := rfl
@[simp] theorem withIngress_lastTimeHighPayload (b : Byte) (f : Bool) (r : List ByteToken) (v : HeaderVerdict) : (withIngress b f r v s).lastTimeHighPayload = s.lastTimeHighPayload := rfl
@[simp] theorem withIngress_haveY (b : Byte) (f : Bool) (r : List ByteToken) (v : HeaderVerdict) : (withIngress b f r v s).haveY = s.haveY := rfl
@[simp] theorem withIngress_haveTimeHigh (b : Byte) (f : Bool) (r : List ByteToken) (v : HeaderVerdict) : (withIngress b f r v s).haveTimeHigh = s.haveTimeHigh := rfl
@[simp] theorem withIngress_wordIndex (b : Byte) (f : Bool) (r : List ByteToken) (v : HeaderVerdict) : (withIngress b f r v s).wordIndex = s.wordIndex := rfl
@[simp] theorem withIngress_droppedBeforeY (b : Byte) (f : Bool) (r : List ByteToken) (v : HeaderVerdict) : (withIngress b f r v s).droppedBeforeY = s.droppedBeforeY := rfl
@[simp] theorem withIngress_unknownEvents (b : Byte) (f : Bool) (r : List ByteToken) (v : HeaderVerdict) : (withIngress b f r v s).unknownEvents = s.unknownEvents := rfl
@[simp] theorem withIngress_outOfOrderEvents (b : Byte) (f : Bool) (r : List ByteToken) (v : HeaderVerdict) : (withIngress b f r v s).outOfOrderEvents = s.outOfOrderEvents := rfl
@[simp] theorem withIngress_phase (b : Byte) (f : Bool) (r : List ByteToken) (v : HeaderVerdict) : (withIngress b f r v s).phase = s.phase := rfl
@[simp] theorem withIngress_errKind (b : Byte) (f : Bool) (r : List ByteToken) (v : HeaderVerdict) : (withIngress b f r v s).errKind = s.errKind := rfl
@[simp] theorem withIngress_errCode (b : Byte) (f : Bool) (r : List ByteToken) (v : HeaderVerdict) : (withIngress b f r v s).errCode = s.errCode := rfl
@[simp] theorem withIngress_errWordIndex (b : Byte) (f : Bool) (r : List ByteToken) (v : HeaderVerdict) : (withIngress b f r v s).errWordIndex = s.errWordIndex := rfl
@[simp] theorem withIngress_errIo (b : Byte) (f : Bool) (r : List ByteToken) (v : HeaderVerdict) : (withIngress b f r v s).errIo = s.errIo := rfl
@[simp] theorem withIngress_sensorWidth (b : Byte) (f : Bool) (r : List ByteToken) (v : HeaderVerdict) : (withIngress b f r v s).sensorWidth = s.sensorWidth := rfl
@[simp] theorem withIngress_sensorHeight (b : Byte) (f : Bool) (r : List ByteToken) (v : HeaderVerdict) : (withIngress b f r v s).sensorHeight = s.sensorHeight := rfl
@[simp] theorem withIngress_cdLen (b : Byte) (f : Bool) (r : List ByteToken) (v : HeaderVerdict) : (withIngress b f r v s).cdLen = s.cdLen := rfl
@[simp] theorem withIngress_trigLen (b : Byte) (f : Bool) (r : List ByteToken) (v : HeaderVerdict) : (withIngress b f r v s).trigLen = s.trigLen := rfl
@[simp] theorem withIngress_cdCap (b : Byte) (f : Bool) (r : List ByteToken) (v : HeaderVerdict) : (withIngress b f r v s).cdCap = s.cdCap := rfl
@[simp] theorem withIngress_trigCap (b : Byte) (f : Bool) (r : List ByteToken) (v : HeaderVerdict) : (withIngress b f r v s).trigCap = s.trigCap := rfl
@[simp] theorem withIngress_byteHold (b : Byte) (f : Bool) (r : List ByteToken) (v : HeaderVerdict) : (withIngress b f r v s).byteHold = b := rfl
@[simp] theorem withIngress_haveByte (b : Byte) (f : Bool) (r : List ByteToken) (v : HeaderVerdict) : (withIngress b f r v s).haveByte = f := rfl
@[simp] theorem withIngress_mem (b : Byte) (f : Bool) (r : List ByteToken) (v : HeaderVerdict) : (withIngress b f r v s).mem = s.mem := rfl
@[simp] theorem withIngress_input (b : Byte) (f : Bool) (r : List ByteToken) (v : HeaderVerdict) : (withIngress b f r v s).input = r := rfl
@[simp] theorem withIngress_headerVerdict (b : Byte) (f : Bool) (r : List ByteToken) (v : HeaderVerdict) : (withIngress b f r v s).headerVerdict = v := rfl
@[simp] theorem withIngress_freeCount (b : Byte) (f : Bool) (r : List ByteToken) (v : HeaderVerdict) : (withIngress b f r v s).freeCount = s.freeCount := rfl

end Sys2Proof.Machine
end

