-- ==== Sys2Proof/Laws/Memory.lean ====
section
/-! SUPPORT. The column memories: a read after a write, and that every memory operation keeps the canonical form. -/

namespace Sys2Proof.Machine

/-- A read after a write: the element written, and every other element as before. -/
theorem colRead_colWrite {w : Nat} (c : Column w) (i j : Nat) (v : BitVec w) :
    colRead (colWrite c i v) j = if j = i then some v else colRead c j := by
  induction c with
  | nil => simp [colWrite, colRead, eq_comm]
  | cons e rest ih =>
    obtain ⟨k, u⟩ := e
    simp only [colWrite]
    split_ifs with h1 h2 h3 h4 <;> simp only [colRead, ih] <;> split_ifs <;> first | rfl | omega

theorem colRead_colWrite_same {w : Nat} (c : Column w) (i : Nat) (v : BitVec w) :
    colRead (colWrite c i v) i = some v := by simp [colRead_colWrite]

theorem colRead_colWrite_ne {w : Nat} (c : Column w) {i j : Nat} (v : BitVec w) (h : j ≠ i) :
    colRead (colWrite c i v) j = colRead c j := by simp [colRead_colWrite, h]

/-- What a write leaves below a bound stays below it. -/
theorem colWrite_all {w : Nat} (c : Column w) (i : Nat) (v : BitVec w) (f : Nat × BitVec w → Bool)
    (hc : c.all f = true) (hv : f (i, v) = true) : (colWrite c i v).all f = true := by
  induction c with
  | nil => simp [colWrite, hv]
  | cons e rest ih =>
    obtain ⟨k, u⟩ := e
    simp only [List.all_cons, Bool.and_eq_true] at hc
    simp only [colWrite]
    split_ifs <;> simp [hc.1, hc.2, hv, ih hc.2]

/-- A write keeps the canonical form. -/
theorem colWf_colWrite {w : Nat} (c : Column w) (i : Nat) (v : BitVec w) (h : colWf c = true) :
    colWf (colWrite c i v) = true := by
  induction c with
  | nil => simp [colWrite, colWf]
  | cons e rest ih =>
    obtain ⟨k, u⟩ := e
    simp only [colWf, Bool.and_eq_true] at h
    simp only [colWrite]
    split_ifs with h1 h2
    · simp only [colWf, List.all_cons, Bool.and_eq_true, decide_eq_true_eq]
      refine ⟨⟨h1, ?_⟩, h.1, h.2⟩
      rw [List.all_eq_true] at h ⊢
      intro e he
      have := h.1 e he
      simp only [decide_eq_true_eq] at this ⊢
      omega
    · subst h2
      simp only [colWf, Bool.and_eq_true]
      exact h
    · simp only [colWf, Bool.and_eq_true]
      exact ⟨colWrite_all rest i v _ h.1 (by simp only [decide_eq_true_eq]; omega), ih h.2⟩

/-- Writing just past the last index appends one element. -/
theorem colWrite_past {w : Nat} (c : Column w) (n : Nat) (v : BitVec w) (h : ∀ e ∈ c, e.1 < n) :
    colWrite c n v = c ++ [(n, v)] := by
  induction c with
  | nil => rfl
  | cons e rest ih =>
    obtain ⟨k, u⟩ := e
    have hk : k < n := h (k, u) (by simp)
    have : ¬ n < k := by omega
    have : ¬ n = k := by omega
    simp [colWrite, *, ih fun e he => h e (by simp [he])]

/-- Appending at the length keeps a column filled. -/
theorem map_fst_colWrite_range {w : Nat} (c : Column w) (n : Nat) (v : BitVec w)
    (h : c.map Prod.fst = List.range n) : (colWrite c n v).map Prod.fst = List.range (n + 1) := by
  have hlt : ∀ e ∈ c, e.1 < n := fun e he => by
    have : e.1 ∈ c.map Prod.fst := List.mem_map_of_mem he
    rw [h] at this
    simpa using this
  rw [colWrite_past c n v hlt, List.map_append, h, List.range_succ]
  rfl

/-- Reading each index of a column in turn gives its elements. -/
theorem filterMap_colRead {w : Nat} (c : Column w) (h : colWf c = true) :
    (c.map Prod.fst).filterMap (colRead c) = c.map Prod.snd := by
  induction c with
  | nil => rfl
  | cons e rest ih =>
    obtain ⟨k, u⟩ := e
    simp only [colWf, Bool.and_eq_true, List.all_eq_true, decide_eq_true_eq] at h
    simp only [List.map_cons, List.filterMap_cons, colRead, if_true]
    rw [← ih h.2]
    congr 1
    apply List.filterMap_congr
    intro j hj
    obtain ⟨e, he, rfl⟩ := List.mem_map.1 hj
    have := h.1 e he
    rw [if_neg (by omega)]

/-- Strictly rising keys are the canonical form. -/
theorem colWf_of_pairwise {w : Nat} (c : Column w) (h : (c.map Prod.fst).Pairwise (· < ·)) : colWf c = true := by
  induction c with
  | nil => rfl
  | cons e rest ih =>
    obtain ⟨k, u⟩ := e
    simp only [List.map_cons, List.pairwise_cons] at h
    simp only [colWf, Bool.and_eq_true, List.all_eq_true, decide_eq_true_eq]
    exact ⟨fun e he => h.1 e.1 (List.mem_map_of_mem he), ih h.2⟩

/-- A filled column is canonical. -/
theorem colWf_of_filled {w : Nat} {c : Column w} {len : BitVec 64} (h : filled c len) : colWf c = true :=
  colWf_of_pairwise c (by rw [h]; exact List.pairwise_lt_range)

theorem reset_mem_wf : State.reset.mem.wf = true := by decide

theorem storeCd_mem_wf (x y : BitVec 16) (p : BitVec 8) (t : Timestamp) (s : State) (h : s.mem.wf = true) :
    (storeCd x y p t s).mem.wf = true := by
  simp only [Memory.wf, Bool.and_eq_true] at h ⊢
  simp [h, colWf_colWrite]

theorem storeTrig_mem_wf (t : Timestamp) (i v : BitVec 8) (s : State) (h : s.mem.wf = true) :
    (storeTrig t i v s).mem.wf = true := by
  simp only [Memory.wf, Bool.and_eq_true] at h ⊢
  simp [h, colWf_colWrite]

end Sys2Proof.Machine
end

