-- ==== Sys2Proof/Laws/Ops.lean ====
section
/-! SUPPORT. What each shared operation can do, said once: growth, the appends, the gated emission, the word rules. -/

namespace Sys2Proof.Machine

/-! ## 64-bit lengths and capacities that do not wrap -/

theorem toNat_add_one {n : BitVec 64} (h : n.toNat + 1 < 2 ^ 64) : (n + 1).toNat = n.toNat + 1 := by
  have h1 : (1 : BitVec 64).toNat = 1 := rfl
  rw [BitVec.toNat_add, h1]
  omega

theorem toNat_double {n : BitVec 64} (h : n.toNat < 2 ^ 63) : (n * 2).toNat = n.toNat * 2 := by
  have h2 : (2 : BitVec 64).toNat = 2 := rfl
  rw [BitVec.toNat_mul, h2]
  omega

/-! ## Word rules -/

theorem wordRule_run (f : State → State) {s : State} (h : s.phase = .run) :
    wordRule f s = .next (advanceWord (f s)) := by simp [wordRule, h]

theorem wordRule_idle (f : State → State) {s : State} (h : s.phase ≠ .run) : wordRule f s = .next s := by
  simp [wordRule, h]

theorem wordRuleOrStuck_run_some {k : Fault} {f : State → Option State} {s u : State} (h : s.phase = .run)
    (hu : f s = some u) : wordRuleOrStuck k f s = .next (advanceWord u) := by simp [wordRuleOrStuck, h, hu]

theorem wordRuleOrStuck_idle {k : Fault} {f : State → Option State} {s : State} (h : s.phase ≠ .run) :
    wordRuleOrStuck k f s = .next s := by simp [wordRuleOrStuck, h]

/-- If a word rule answers a next state in `RUN`, its effect is there and `word_index` is advanced. -/
theorem wordRuleOrStuck_next {k : Fault} {f : State → Option State} {s t : State} (h : s.phase = .run)
    (ht : wordRuleOrStuck k f s = .next t) : ∃ u, f s = some u ∧ t = advanceWord u := by
  simp only [wordRuleOrStuck, h, if_true] at ht
  split at ht
  · rename_i u hu
    exact ⟨u, hu, by simpa using ht.symm⟩
  · cases ht

/-! ## Growth -/

theorem grownCap_ne (limit : Option Nat) {len cap : BitVec 64} (h : len ≠ cap) :
    grownCap limit len cap = some cap := by simp [grownCap, h]

theorem grownCap_full (limit : Option Nat) {len cap : BitVec 64} (h : len = cap)
    (ha : capAllowed limit (cap.toNat * 2) = true) : grownCap limit len cap = some (cap * 2) := by
  have : (Config.growthFactor).toNat = 2 := rfl
  simp only [grownCap, h, if_true, this, ha]
  rfl

/-- The capacity an append leaves: the old one with room in it, or twice the old one. -/
theorem grownCap_some {limit : Option Nat} {len cap c : BitVec 64} (h : grownCap limit len cap = some c) :
    (len ≠ cap ∧ c = cap) ∨ (len = cap ∧ c = cap * 2) := by
  simp only [grownCap] at h
  split_ifs at h with h1 h2
  · right
    exact ⟨h1, (Option.some.inj h).symm⟩
  · left
    exact ⟨h1, (Option.some.inj h).symm⟩

theorem capAllowed_iff (limit : Option Nat) (n : Nat) :
    capAllowed limit n = true ↔ ∀ m, limit = some m → n ≤ m := by
  cases limit <;> simp [capAllowed]

/-- No growth is possible exactly where the buffer is full and doubling would pass the limit. -/
theorem grownCap_none_iff (limit : Option Nat) (len cap : BitVec 64) :
    grownCap limit len cap = none ↔ len = cap ∧ ∃ m, limit = some m ∧ m < cap.toNat * 2 := by
  have h2 : (Config.growthFactor).toNat = 2 := rfl
  cases limit with
  | none => simp only [grownCap, capAllowed]; split_ifs <;> simp
  | some m =>
    simp only [grownCap, capAllowed, h2, decide_eq_true_eq, Option.some.injEq, exists_eq_left']
    split_ifs <;> simp_all

/-! ## The appends -/

/-- The out-of-order count changes one counter, by one at most, and never on a buffer's first element. -/
theorem noteCdOrder_eq (t : Timestamp) (s : State) :
    noteCdOrder t s = { s with
      outOfOrderEvents :=
        if s.cdLen ≠ 0 ∧ t < lastCdTime s then s.outOfOrderEvents + 1 else s.outOfOrderEvents } := by
  simp only [noteCdOrder, cdOutOfOrder, countOutOfOrder, bne_iff_ne, Bool.and_eq_true, decide_eq_true_eq]
  split_ifs <;> rfl

theorem noteTrigOrder_eq (t : Timestamp) (s : State) :
    noteTrigOrder t s = { s with
      outOfOrderEvents :=
        if s.trigLen ≠ 0 ∧ t < lastTrigTime s then s.outOfOrderEvents + 1 else s.outOfOrderEvents } := by
  simp only [noteTrigOrder, trigOutOfOrder, countOutOfOrder, bne_iff_ne, Bool.and_eq_true, decide_eq_true_eq]
  split_ifs <;> rfl

/-- The same as two cases. -/
theorem noteCdOrder_cases (t : Timestamp) (s : State) :
    (noteCdOrder t s = s ∧ cdOutOfOrder t s = false) ∨
    (noteCdOrder t s = countOutOfOrder s ∧ s.cdLen ≠ 0 ∧ t < lastCdTime s) := by
  simp only [noteCdOrder]
  cases h : cdOutOfOrder t s
  · exact .inl ⟨rfl, rfl⟩
  · refine .inr ⟨rfl, ?_⟩
    simpa only [cdOutOfOrder, bne_iff_ne, Bool.and_eq_true, decide_eq_true_eq] using h

theorem noteTrigOrder_cases (t : Timestamp) (s : State) :
    (noteTrigOrder t s = s ∧ trigOutOfOrder t s = false) ∨
    (noteTrigOrder t s = countOutOfOrder s ∧ s.trigLen ≠ 0 ∧ t < lastTrigTime s) := by
  simp only [noteTrigOrder]
  cases h : trigOutOfOrder t s
  · exact .inl ⟨rfl, rfl⟩
  · refine .inr ⟨rfl, ?_⟩
    simpa only [trigOutOfOrder, bne_iff_ne, Bool.and_eq_true, decide_eq_true_eq] using h

/-- Everything `AppendCD` can do: the capacity kept or doubled, the order counted, the event stored. -/
theorem appendCdUnder_some {limit : Option Nat} {x y : BitVec 16} {p : BitVec 8} {t : Timestamp} {s u : State}
    (h : appendCdUnder limit x y p t s = some u) :
    ∃ c, ((s.cdLen ≠ s.cdCap ∧ c = s.cdCap) ∨ (s.cdLen = s.cdCap ∧ c = s.cdCap * 2)) ∧
      u = storeCd x y p t (noteCdOrder t (setCdCap c s)) := by
  simp only [appendCdUnder] at h
  split at h
  · rename_i c hc
    exact ⟨c, grownCap_some hc, (Option.some.inj h).symm⟩
  · cases h

theorem appendTrigUnder_some {limit : Option Nat} {t : Timestamp} {i v : BitVec 8} {s u : State}
    (h : appendTrigUnder limit t i v s = some u) :
    ∃ c, ((s.trigLen ≠ s.trigCap ∧ c = s.trigCap) ∨ (s.trigLen = s.trigCap ∧ c = s.trigCap * 2)) ∧
      u = storeTrig t i v (noteTrigOrder t (setTrigCap c s)) := by
  simp only [appendTrigUnder] at h
  split at h
  · rename_i c hc
    exact ⟨c, grownCap_some hc, (Option.some.inj h).symm⟩
  · cases h

/-- What the columns read as after `AppendCD`: the event at `cd_len`, every other element as before. -/
theorem appendCdUnder_reads {limit : Option Nat} {x y : BitVec 16} {p : BitVec 8} {t : Timestamp} {s u : State}
    (h : appendCdUnder limit x y p t s = some u) :
    (∀ i, colRead u.mem.cdX i = if i = cdSlot s then some x else colRead s.mem.cdX i) ∧
    (∀ i, colRead u.mem.cdY i = if i = cdSlot s then some y else colRead s.mem.cdY i) ∧
    (∀ i, colRead u.mem.cdP i = if i = cdSlot s then some p else colRead s.mem.cdP i) ∧
    (∀ i, colRead u.mem.cdT i = if i = cdSlot s then some t else colRead s.mem.cdT i) := by
  obtain ⟨c, -, rfl⟩ := appendCdUnder_some h
  rw [noteCdOrder_eq]
  refine ⟨?_, ?_, ?_, ?_⟩ <;> intro i <;> exact colRead_colWrite _ _ _ _

/-- What the columns read as after `AppendTrig`. -/
theorem appendTrigUnder_reads {limit : Option Nat} {t : Timestamp} {i v : BitVec 8} {s u : State}
    (h : appendTrigUnder limit t i v s = some u) :
    (∀ j, colRead u.mem.trT j = if j = trigSlot s then some t else colRead s.mem.trT j) ∧
    (∀ j, colRead u.mem.trId j = if j = trigSlot s then some i else colRead s.mem.trId j) ∧
    (∀ j, colRead u.mem.trV j = if j = trigSlot s then some v else colRead s.mem.trV j) := by
  obtain ⟨c, -, rfl⟩ := appendTrigUnder_some h
  rw [noteTrigOrder_eq]
  refine ⟨?_, ?_, ?_⟩ <;> intro j <;> exact colRead_colWrite _ _ _ _

theorem appendCdUnder_none_iff (limit : Option Nat) (x y : BitVec 16) (p : BitVec 8) (t : Timestamp) (s : State) :
    appendCdUnder limit x y p t s = none ↔ grownCap limit s.cdLen s.cdCap = none := by
  simp only [appendCdUnder]
  split <;> simp_all

theorem appendTrigUnder_none_iff (limit : Option Nat) (t : Timestamp) (i v : BitVec 8) (s : State) :
    appendTrigUnder limit t i v s = none ↔ grownCap limit s.trigLen s.trigCap = none := by
  simp only [appendTrigUnder]
  split <;> simp_all

theorem setCdCap_self (s : State) : setCdCap s.cdCap s = s := rfl

theorem setTrigCap_self (s : State) : setTrigCap s.trigCap s = s := rfl

/-- With room, `AppendCD` stores without growing. -/
theorem appendCd_room (x y : BitVec 16) (p : BitVec 8) (t : Timestamp) {s : State} (h : s.cdLen ≠ s.cdCap) :
    appendCd x y p t s = some (storeCd x y p t (noteCdOrder t s)) := by
  simp [appendCd, appendCdUnder, grownCap_ne _ h, setCdCap_self]

/-- With room, `AppendTrig` stores without growing. -/
theorem appendTrig_room (t : Timestamp) (i v : BitVec 8) {s : State} (h : s.trigLen ≠ s.trigCap) :
    appendTrig t i v s = some (storeTrig t i v (noteTrigOrder t s)) := by
  simp [appendTrig, appendTrigUnder, grownCap_ne _ h, setTrigCap_self]

/-- Where growth is allowed or not needed, `AppendCD` stores, its capacity doubled exactly when it was full. -/
theorem appendCd_takes (x y : BitVec 16) (p : BitVec 8) (t : Timestamp) {s : State}
    (h : s.cdLen = s.cdCap → cdMayGrow s) :
    appendCd x y p t s =
      some (storeCd x y p t (noteCdOrder t (setCdCap (if s.cdLen = s.cdCap then s.cdCap * 2 else s.cdCap) s))) := by
  simp only [appendCd, appendCdUnder]
  split_ifs with hc
  · rw [grownCap_full _ hc ((capAllowed_iff _ _).2 (h hc))]
  · rw [grownCap_ne _ hc]

/-- Where growth is allowed or not needed, `AppendTrig` stores, its capacity doubled exactly when it was full. -/
theorem appendTrig_takes (t : Timestamp) (i v : BitVec 8) {s : State} (h : trigTakes s) :
    appendTrig t i v s =
      some (storeTrig t i v
        (noteTrigOrder t (setTrigCap (if s.trigLen = s.trigCap then s.trigCap * 2 else s.trigCap) s))) := by
  simp only [appendTrig, appendTrigUnder]
  split_ifs with hc
  · rw [grownCap_full _ hc ((capAllowed_iff _ _).2 (h hc))]
  · rw [grownCap_ne _ hc]

/-- The last CD timestamp is the element at `len - 1`, where it is written. -/
theorem lastCdTime_written {s : State} {u : Timestamp} (h : colRead s.mem.cdT (s.cdLen - 1).toNat = some u) :
    lastCdTime s = u := by
  rw [lastCdTime, h]
  rfl

/-- The last trigger timestamp is the element at `len - 1`, where it is written. -/
theorem lastTrigTime_written {s : State} {u : Timestamp} (h : colRead s.mem.trT (s.trigLen - 1).toNat = some u) :
    lastTrigTime s = u := by
  rw [lastTrigTime, h]
  rfl

/-- The timestamp just stored is the last one. -/
theorem lastCdTime_storeCd (x y : BitVec 16) (p : BitVec 8) (t : Timestamp) (s : State) :
    lastCdTime (storeCd x y p t s) = t := by
  have h : s.cdLen + 1 - 1 = s.cdLen := by simp
  rw [lastCdTime, storeCd_cdLen, h, storeCd_mem_cdT, cdSlot, colRead_colWrite_same]
  rfl

/-! ## The emissions -/

theorem emitCd_noY (x : BitVec 16) (p : BitVec 8) {s : State} (h : s.haveY = false) :
    emitCd x p s = some (countDrop s) := by simp [emitCd, h]

theorem emitCd_noTimeHigh (x : BitVec 16) (p : BitVec 8) {s : State} (hy : s.haveY = true)
    (h : s.haveTimeHigh = false) : emitCd x p s = some s := by simp [emitCd, hy, h]

theorem emitCd_primed (x : BitVec 16) (p : BitVec 8) {s : State} (hy : s.haveY = true)
    (h : s.haveTimeHigh = true) : emitCd x p s = appendCd x s.curY p (now s) s := by simp [emitCd, hy, h]

/-- Everything `EmitCD` can do (R143). -/
theorem emitCd_some {x : BitVec 16} {p : BitVec 8} {s u : State} (h : emitCd x p s = some u) :
    (s.haveY = false ∧ u = countDrop s) ∨ (s.haveY = true ∧ s.haveTimeHigh = false ∧ u = s) ∨
    (s.haveY = true ∧ s.haveTimeHigh = true ∧ appendCd x s.curY p (now s) s = some u) := by
  simp only [emitCd] at h
  split_ifs at h with h1 h2
  · exact .inl ⟨h1, (Option.some.inj h).symm⟩
  · exact .inr (.inl ⟨by simpa using h1, h2, (Option.some.inj h).symm⟩)
  · exact .inr (.inr ⟨by simpa using h1, by simpa using h2, h⟩)

/-- Everything the trigger path can do (R190). -/
theorem emitTrig_some {i v : BitVec 8} {s u : State} (h : emitTrig i v s = some u) :
    (s.haveTimeHigh = false ∧ u = s) ∨ (s.haveTimeHigh = true ∧ appendTrig (now s) i v s = some u) := by
  simp only [emitTrig] at h
  split_ifs at h with h1
  · exact .inr ⟨h1, h⟩
  · exact .inl ⟨by simpa using h1, (Option.some.inj h).symm⟩

/-- What `EmitCD` leaves alone, whatever it does: all but the CD columns, their length and capacity, and two
diagnostics. -/
theorem emitCd_frame {x : BitVec 16} {p : BitVec 8} {s u : State} (h : emitCd x p s = some u) :
    u = { s with
      mem := { s.mem with cdX := u.mem.cdX, cdY := u.mem.cdY, cdP := u.mem.cdP, cdT := u.mem.cdT }
      cdLen := u.cdLen, cdCap := u.cdCap
      droppedBeforeY := u.droppedBeforeY, outOfOrderEvents := u.outOfOrderEvents } := by
  rcases emitCd_some h with ⟨-, rfl⟩ | ⟨-, -, rfl⟩ | ⟨-, -, h⟩
  · rfl
  · rfl
  · obtain ⟨c, -, rfl⟩ := appendCdUnder_some h
    rw [noteCdOrder_eq]
    rfl

/-- What the trigger path leaves alone. -/
theorem emitTrig_frame {i v : BitVec 8} {s u : State} (h : emitTrig i v s = some u) :
    u = { s with
      mem := { s.mem with trT := u.mem.trT, trId := u.mem.trId, trV := u.mem.trV }
      trigLen := u.trigLen, trigCap := u.trigCap, outOfOrderEvents := u.outOfOrderEvents } := by
  rcases emitTrig_some h with ⟨-, rfl⟩ | ⟨-, h⟩
  · rfl
  · obtain ⟨c, -, rfl⟩ := appendTrigUnder_some h
    rw [noteTrigOrder_eq]
    rfl

/-- Primed, where growth is allowed or not needed, `EmitCD` adds one event; the length, the capacity and the gates after
it. -/
theorem emitCd_takes (x : BitVec 16) (p : BitVec 8) {s : State} (hy : s.haveY = true) (ht : s.haveTimeHigh = true)
    (h : s.cdLen = s.cdCap → cdMayGrow s) :
    ∃ u, emitCd x p s = some u ∧ u.haveY = true ∧ u.haveTimeHigh = true ∧ u.baseX = s.baseX ∧
      u.cdLen = s.cdLen + 1 ∧ u.cdCap = if s.cdLen = s.cdCap then s.cdCap * 2 else s.cdCap := by
  refine ⟨_, (emitCd_primed x p hy ht).trans (appendCd_takes _ _ _ _ h), ?_⟩
  rw [noteCdOrder_eq]
  exact ⟨hy, ht, rfl, rfl, rfl⟩

/-- The elements `EmitCD` leaves alone: all but the one at `cd_len`. -/
theorem emitCd_reads {x : BitVec 16} {p : BitVec 8} {s u : State} (h : emitCd x p s = some u) {i : Nat}
    (hi : i ≠ cdSlot s) :
    colRead u.mem.cdX i = colRead s.mem.cdX i ∧ colRead u.mem.cdY i = colRead s.mem.cdY i ∧
      colRead u.mem.cdP i = colRead s.mem.cdP i ∧ colRead u.mem.cdT i = colRead s.mem.cdT i := by
  rcases emitCd_some h with ⟨-, rfl⟩ | ⟨-, -, rfl⟩ | ⟨-, -, ha⟩
  · simp
  · simp
  · obtain ⟨h1, h2, h3, h4⟩ := appendCdUnder_reads ha
    simp [h1, h2, h3, h4, hi]

/-- `EmitCD` keeps the length or adds one. -/
theorem emitCd_cdLen {x : BitVec 16} {p : BitVec 8} {s u : State} (h : emitCd x p s = some u) :
    u.cdLen = s.cdLen ∨ u.cdLen = s.cdLen + 1 := by
  rcases emitCd_some h with ⟨-, rfl⟩ | ⟨-, -, rfl⟩ | ⟨-, -, ha⟩
  · simp
  · simp
  · obtain ⟨c, -, rfl⟩ := appendCdUnder_some ha
    right
    rw [noteCdOrder_eq]
    rfl

/-- `EmitCD` below the largest length adds at most one, over the integers. -/
theorem emitCd_cdLen_le {x : BitVec 16} {p : BitVec 8} {s u : State} (h : emitCd x p s = some u)
    (hs : s.cdLen.toNat + 1 < 2 ^ 64) : s.cdLen.toNat ≤ u.cdLen.toNat ∧ u.cdLen.toNat ≤ s.cdLen.toNat + 1 := by
  rcases emitCd_cdLen h with e | e <;> rw [e]
  · omega
  · rw [toNat_add_one hs]
    omega

/-- The trigger path is stuck exactly where its append is. -/
theorem emitTrig_none_iff (i v : BitVec 8) (s : State) :
    emitTrig i v s = none ↔ s.haveTimeHigh = true ∧ s.trigLen = s.trigCap ∧
      ∃ m, Config.trigCapMax = some m ∧ m < s.trigCap.toNat * 2 := by
  simp only [emitTrig]
  split_ifs with h
  · simp only [h, true_and]
    exact (appendTrigUnder_none_iff _ _ _ _ _).trans (grownCap_none_iff _ _ _)
  · simp [h]

/-- `EmitCD` is stuck exactly where its append is. -/
theorem emitCd_none_iff (x : BitVec 16) (p : BitVec 8) (s : State) :
    emitCd x p s = none ↔ s.haveY = true ∧ s.haveTimeHigh = true ∧ s.cdLen = s.cdCap ∧
      ∃ m, Config.cdCapMax = some m ∧ m < s.cdCap.toNat * 2 := by
  simp only [emitCd]
  split_ifs with h1 h2
  · simp [h1]
  · simp [h2]
  · have hy : s.haveY = true := by simpa using h1
    have ht : s.haveTimeHigh = true := by simpa using h2
    simp only [hy, ht, true_and]
    exact (appendCdUnder_none_iff _ _ _ _ _ _).trans (grownCap_none_iff _ _ _)

end Sys2Proof.Machine
end

