-- ==== Sys2Proof/Laws/Vector.lean ====
section
/-! SUPPORT. The expander: an induction over the lanes of a word, packaged once, and what an expansion leaves alone. -/

namespace Sys2Proof.Machine

/-- A property that each lane carries on, holds after all of them. The count is of lanes passed. -/
theorem expandLanes_induction {n : Nat} {mask : BitVec n} (P : Nat → State → Prop)
    (skip : ∀ m s, P m s → P (m + 1) s)
    (emit : ∀ m k s t, P m s → laneEmits mask s.baseX k = true →
      emitCd (laneColumn s.baseX k) s.vectPolarity s = some t → P (m + 1) t) :
    ∀ (ks : List Nat) (m : Nat) (s t : State), P m s → expandLanes mask ks s = some t → P (m + ks.length) t := by
  intro ks
  induction ks with
  | nil =>
    intro m s t hs h
    simp only [expandLanes, Option.some.injEq] at h
    simpa [← h] using hs
  | cons k ks ih =>
    intro m s t hs h
    simp only [expandLanes] at h
    split at h
    · rename_i u hu
      have hP : P (m + 1) u := by
        simp only [expandLane] at hu
        split_ifs at hu with hk
        · exact emit m k s u hs hk hu
        · rw [← Option.some.inj hu]
          exact skip m s hs
      have := ih (m + 1) u t hP h
      simpa [Nat.add_assoc, Nat.add_comm 1] using this
    · cases h

/-- Everything an expansion can do: its lanes in order, then the base advanced. -/
theorem expand_some {n : Nat} {mask : BitVec n} {s t : State} (h : expand mask s = some t) :
    ∃ u, expandLanes mask (List.range n) s = some u ∧ t = advanceBase n u := by
  simp only [expand] at h
  split at h
  · rename_i u hu
    exact ⟨u, hu, (Option.some.inj h).symm⟩
  · cases h

theorem expand_of {n : Nat} {mask : BitVec n} {s u : State} (h : expandLanes mask (List.range n) s = some u) :
    expand mask s = some (advanceBase n u) := by simp [expand, h]

/-- What the lanes leave alone: all but the CD columns, their length and capacity, and two diagnostics. -/
theorem expandLanes_frame {n : Nat} {mask : BitVec n} {ks : List Nat} {s u : State}
    (h : expandLanes mask ks s = some u) :
    u = { s with
      mem := { s.mem with cdX := u.mem.cdX, cdY := u.mem.cdY, cdP := u.mem.cdP, cdT := u.mem.cdT }
      cdLen := u.cdLen, cdCap := u.cdCap
      droppedBeforeY := u.droppedBeforeY, outOfOrderEvents := u.outOfOrderEvents } := by
  refine expandLanes_induction (mask := mask)
    (fun _ v => v = { s with
      mem := { s.mem with cdX := v.mem.cdX, cdY := v.mem.cdY, cdP := v.mem.cdP, cdT := v.mem.cdT }
      cdLen := v.cdLen, cdCap := v.cdCap
      droppedBeforeY := v.droppedBeforeY, outOfOrderEvents := v.outOfOrderEvents })
    (fun _ _ hv => hv) (fun _ k v t hv _ ht => ?_) ks 0 s u rfl h
  have hf := emitCd_frame ht
  rw [hf, hv]

theorem laneEmits_iff {n : Nat} (mask : BitVec n) (base : BitVec 16) (k : Nat) :
    laneEmits mask base k = true ↔ mask.getLsbD k = true ∧ base.toNat + k < 2048 := by
  rw [laneEmits, Bool.and_eq_true, decide_eq_true_eq]
  rfl

theorem laneColumn_toNat {n : Nat} {mask : BitVec n} {base : BitVec 16} {k : Nat}
    (h : laneEmits mask base k = true) : (laneColumn base k).toNat = base.toNat + k := by
  have := ((laneEmits_iff mask base k).1 h).2
  simp only [laneColumn, laneSum, BitVec.toNat_ofNat]
  omega

theorem laneColumn_eq (base : BitVec 16) (k : Nat) : laneColumn base k = base + BitVec.ofNat 16 k := by
  apply BitVec.eq_of_toNat_eq
  simp [laneColumn, laneSum]

/-! ## The lanes of a word, by the flags -/

/-- Before any ADDR_Y each emitting lane is one counted drop. -/
theorem expandLanes_noY {n : Nat} (mask : BitVec n) (ks : List Nat) :
    ∀ s : State, s.haveY = false →
      expandLanes mask ks s = some { s with
        droppedBeforeY := s.droppedBeforeY + BitVec.ofNat 64 (ks.filter (laneEmits mask s.baseX)).length } := by
  induction ks with
  | nil => intro s _; simp [expandLanes]
  | cons k ks ih =>
    intro s h
    simp only [expandLanes, expandLane]
    by_cases hk : laneEmits mask s.baseX k = true
    · rw [if_pos hk, emitCd_noY _ _ h]
      simp only
      rw [ih (countDrop s) h]
      simp only [countDrop, List.filter_cons, hk, if_true, List.length_cons, Nat.add_comm _ 1, BitVec.ofNat_add,
        BitVec.add_assoc]
      rfl
    · rw [if_neg hk]
      simp only
      rw [ih s h]
      simp [hk]

/-- With a row but no TIME_HIGH the lanes change nothing. -/
theorem expandLanes_noTimeHigh {n : Nat} (mask : BitVec n) (ks : List Nat) {s : State} (hy : s.haveY = true)
    (ht : s.haveTimeHigh = false) : expandLanes mask ks s = some s := by
  induction ks with
  | nil => simp [expandLanes]
  | cons k ks ih => simp [expandLanes, expandLane, emitCd_noTimeHigh _ _ hy ht, ih]

/-- Past the last column the lanes change nothing. -/
theorem expandLanes_past {n : Nat} (mask : BitVec n) (ks : List Nat) {s : State} (h : 2048 ≤ s.baseX.toNat) :
    expandLanes mask ks s = some s := by
  induction ks with
  | nil => simp [expandLanes]
  | cons k ks ih =>
    have hk : ¬ laneEmits mask s.baseX k = true := by
      rw [laneEmits_iff]
      omega
    simp [expandLanes, expandLane, hk, ih]

/-- What the lanes leave alone in the CD columns, whatever they do: the elements below the length, and those past the
emitting lanes. -/
theorem expandLanes_reads {n : Nat} (mask : BitVec n) (ks : List Nat) :
    ∀ s u : State, s.cdLen.toNat + ks.length < 2 ^ 64 → expandLanes mask ks s = some u →
      (s.cdLen.toNat ≤ u.cdLen.toNat ∧
        u.cdLen.toNat ≤ s.cdLen.toNat + (ks.filter (laneEmits mask s.baseX)).length) ∧
      ∀ i, i < cdSlot s ∨ cdSlot s + (ks.filter (laneEmits mask s.baseX)).length ≤ i →
        colRead u.mem.cdX i = colRead s.mem.cdX i ∧ colRead u.mem.cdY i = colRead s.mem.cdY i ∧
        colRead u.mem.cdP i = colRead s.mem.cdP i ∧ colRead u.mem.cdT i = colRead s.mem.cdT i := by
  induction ks with
  | nil =>
    intro s u _ h
    simp only [expandLanes, Option.some.injEq] at h
    subst h
    simp
  | cons k ks ih =>
    intro s u hl h
    simp only [List.length_cons] at hl
    simp only [expandLanes, expandLane] at h
    by_cases hk : laneEmits mask s.baseX k = true
    · rw [if_pos hk] at h
      split at h
      · rename_i v hv
        have hb : v.baseX = s.baseX := by rw [emitCd_frame hv]
        have hle := emitCd_cdLen_le hv (by omega)
        have hrec := ih v u (by omega) h
        rw [hb] at hrec
        simp only [List.filter_cons, hk, if_true, List.length_cons]
        refine ⟨by omega, fun i hi => ?_⟩
        have h1 := hrec.2 i (by simp only [cdSlot] at hi ⊢; omega)
        rw [h1.1, h1.2.1, h1.2.2.1, h1.2.2.2]
        exact emitCd_reads hv (by simp only [cdSlot] at hi ⊢; omega)
      · cases h
    · rw [if_neg hk] at h
      have hk' : laneEmits mask s.baseX k = false := by simpa using hk
      simp only [List.filter_cons, hk', Bool.false_eq_true, if_false]
      exact ih s u (by omega) h

/-- Primed, with the buffer taking them: the lanes' events appended in order, the capacity doubled if they do not fit,
the order counted at most once, and the older elements kept. -/
theorem expandLanes_primed {n : Nat} (mask : BitVec n) (ks : List Nat) :
    ∀ s : State, s.haveY = true → s.haveTimeHigh = true →
      cdTakes (ks.filter (laneEmits mask s.baseX)).length s →
      ∃ u, expandLanes mask ks s = some u ∧
        u = { s with
          mem := { s.mem with cdX := u.mem.cdX, cdY := u.mem.cdY, cdP := u.mem.cdP, cdT := u.mem.cdT }
          cdLen := s.cdLen + BitVec.ofNat 64 (ks.filter (laneEmits mask s.baseX)).length
          cdCap :=
            if s.cdCap.toNat < s.cdLen.toNat + (ks.filter (laneEmits mask s.baseX)).length then s.cdCap * 2
            else s.cdCap
          outOfOrderEvents :=
            if ks.filter (laneEmits mask s.baseX) ≠ [] ∧ s.cdLen ≠ 0 ∧ now s < lastCdTime s then
              s.outOfOrderEvents + 1
            else s.outOfOrderEvents } ∧
        (∀ i, i < cdSlot s →
          colRead u.mem.cdX i = colRead s.mem.cdX i ∧ colRead u.mem.cdY i = colRead s.mem.cdY i ∧
          colRead u.mem.cdP i = colRead s.mem.cdP i ∧ colRead u.mem.cdT i = colRead s.mem.cdT i) ∧
        (∀ j k, (ks.filter (laneEmits mask s.baseX))[j]? = some k →
          colRead u.mem.cdX (cdSlot s + j) = some (s.baseX + BitVec.ofNat 16 k) ∧
          colRead u.mem.cdY (cdSlot s + j) = some s.curY ∧
          colRead u.mem.cdP (cdSlot s + j) = some s.vectPolarity ∧
          colRead u.mem.cdT (cdSlot s + j) = some (now s)) := by
  induction ks with
  | nil =>
    intro s _ _ h
    refine ⟨s, by simp [expandLanes], ?_, by simp, by simp⟩
    have : ¬ s.cdCap.toNat < s.cdLen.toNat := by
      simp only [cdTakes, cdRoomFor, List.filter_nil, List.length_nil] at h
      omega
    simp [this]
  | cons k ks ih =>
    intro s hy ht hroom
    have hcap := s.cdCap.isLt
    simp only [expandLanes, expandLane]
    by_cases hk : laneEmits mask s.baseX k = true
    · simp only [cdTakes, cdRoomFor, List.filter_cons, hk, if_true, List.length_cons] at hroom
      have hgrow : s.cdLen = s.cdCap → cdMayGrow s := by
        intro e
        rw [e] at hroom
        rcases hroom with h | h
        · omega
        · exact h.2.2.2
      have happ := appendCd_takes (laneColumn s.baseX k) s.curY s.vectPolarity (now s) hgrow
      have hr := appendCdUnder_reads happ
      rw [if_pos hk, emitCd_primed _ _ hy ht, happ]
      simp only
      have hlast := lastCdTime_storeCd (laneColumn s.baseX k) s.curY s.vectPolarity (now s)
        (noteCdOrder (now s) (setCdCap (if s.cdLen = s.cdCap then s.cdCap * 2 else s.cdCap) s))
      generalize hv : storeCd (laneColumn s.baseX k) s.curY s.vectPolarity (now s)
        (noteCdOrder (now s) (setCdCap (if s.cdLen = s.cdCap then s.cdCap * 2 else s.cdCap) s)) = v at hr hlast ⊢
      rw [noteCdOrder_eq] at hv
      have hvy : v.curY = s.curY := by rw [← hv]; rfl
      have hvp : v.vectPolarity = s.vectPolarity := by rw [← hv]; rfl
      have hvb : v.baseX = s.baseX := by rw [← hv]; rfl
      have hvt : now v = now s := by rw [← hv]; rfl
      have hvl : v.cdLen = s.cdLen + 1 := by rw [← hv]; rfl
      have hvc : v.cdCap = if s.cdLen = s.cdCap then s.cdCap * 2 else s.cdCap := by rw [← hv]; rfl
      have hvn : v.cdLen.toNat = s.cdLen.toNat + 1 := by
        rw [hvl]
        refine toNat_add_one ?_
        omega
      have hiff : s.cdLen = s.cdCap ↔ s.cdLen.toNat = s.cdCap.toNat := BitVec.toNat_inj.symm
      have hcapn : s.cdLen = s.cdCap → v.cdCap.toNat = s.cdCap.toNat * 2 := by
        intro e
        have := hiff.1 e
        rw [hvc, if_pos e]
        refine toNat_double ?_
        omega
      have hcapk : s.cdLen ≠ s.cdCap → v.cdCap = s.cdCap := fun e => by rw [hvc, if_neg e]
      have htakes : cdTakes (ks.filter (laneEmits mask v.baseX)).length v := by
        rw [hvb]
        by_cases e : s.cdLen = s.cdCap
        · have h1 := hcapn e
          have h2 := hiff.1 e
          left
          simp only [cdRoomFor]
          omega
        · have h1 := hcapk e
          have h2 := (not_congr hiff).1 e
          rcases hroom with h | ⟨h3, h4, h5, h6⟩
          · left
            simp only [cdRoomFor, h1]
            omega
          · right
            refine ⟨by rw [h1]; omega, by rw [h1]; omega, by rw [h1]; exact h5, ?_⟩
            intro m hm
            rw [h1]
            exact h6 m hm
      obtain ⟨u, hu, hueq, hlow, hlane⟩ :=
        ih v (by rw [← hv]; exact hy) (by rw [← hv]; exact ht) htakes
      refine ⟨u, hu, ?_, ?_, ?_⟩
      · have hcapu : (if v.cdCap.toNat < v.cdLen.toNat + (ks.filter (laneEmits mask s.baseX)).length then v.cdCap * 2
              else v.cdCap) =
            if s.cdCap.toNat < s.cdLen.toNat + ((ks.filter (laneEmits mask s.baseX)).length + 1) then s.cdCap * 2
              else s.cdCap := by
          by_cases e : s.cdLen = s.cdCap
          · have h1 := hcapn e
            have h2 := hiff.1 e
            rw [if_neg (by omega), if_pos (by omega), hvc, if_pos e]
          · rw [hcapk e, hvn]
            congr 1
            simp only [eq_iff_iff]
            omega
        have horder : ¬ (now s < now s) := by simp
        have hlenu : v.cdLen + BitVec.ofNat 64 (ks.filter (laneEmits mask s.baseX)).length =
            s.cdLen + BitVec.ofNat 64 ((ks.filter (laneEmits mask s.baseX)).length + 1) := by
          rw [hvl, Nat.add_comm _ 1, BitVec.ofNat_add, BitVec.add_assoc]
          rfl
        rw [hvb, hcapu, hlast, hvt, hlenu] at hueq
        simp only [horder, and_false, if_false] at hueq
        simp only [List.filter_cons, hk, if_true, List.length_cons, ne_eq, reduceCtorEq, not_false_eq_true, true_and]
        rw [hueq, ← hv]
        rfl
      · intro i hi
        have h1 := hlow i (by simp only [cdSlot] at hi ⊢; omega)
        rw [h1.1, h1.2.1, h1.2.2.1, h1.2.2.2, hr.1, hr.2.1, hr.2.2.1, hr.2.2.2]
        simp [Nat.ne_of_lt hi]
      · intro j k' hj
        simp only [List.filter_cons, hk, if_true] at hj
        cases j with
        | zero =>
          have hjk : k = k' := by simpa using hj
          have h1 := hlow (cdSlot s) (by simp only [cdSlot]; omega)
          rw [Nat.add_zero, h1.1, h1.2.1, h1.2.2.1, h1.2.2.2, hr.1, hr.2.1, hr.2.2.1, hr.2.2.2]
          simp [laneColumn_eq, hjk]
        | succ j =>
          have h1 := hlane j k' (by rw [hvb]; simpa using hj)
          have hslot : cdSlot v + j = cdSlot s + (j + 1) := by
            simp only [cdSlot]
            omega
          rw [hslot, hvb, hvt, hvy, hvp] at h1
          exact h1
    · have hk' : laneEmits mask s.baseX k = false := by simpa using hk
      rw [if_neg hk]
      simp only [List.filter_cons, hk', Bool.false_eq_true, if_false] at hroom ⊢
      exact ih s hy ht hroom

/-! ## Where the lanes stop -/

/-- The lanes of a word complete where no length they pass is the capacity. -/
theorem expandLanes_completes {n : Nat} (mask : BitVec n) (ks : List Nat) :
    ∀ s : State, (∀ j, j < ks.length → s.cdLen + BitVec.ofNat 64 j ≠ s.cdCap) →
      ∃ u, expandLanes mask ks s = some u := by
  induction ks with
  | nil => exact fun s _ => ⟨s, rfl⟩
  | cons k ks ih =>
    intro s h
    simp only [List.length_cons] at h
    have hne : s.cdLen ≠ s.cdCap := by simpa using h 0 (by omega)
    have hkeep : ∃ u, expandLanes mask ks s = some u := ih s fun j hj => h j (by omega)
    simp only [expandLanes, expandLane]
    by_cases hk : laneEmits mask s.baseX k = true
    · rw [if_pos hk]
      by_cases hy : s.haveY = true
      · by_cases ht : s.haveTimeHigh = true
        · obtain ⟨v, hv, -, -, -, hl, hc⟩ :=
            emitCd_takes (laneColumn s.baseX k) s.vectPolarity hy ht fun e => absurd e hne
          rw [hv]
          refine ih v fun j hj => ?_
          have := h (1 + j) (by omega)
          rw [BitVec.ofNat_add, ← BitVec.add_assoc] at this
          rw [hl, hc, if_neg hne]
          exact this
        · rw [emitCd_noTimeHigh _ _ hy (by simpa using ht)]
          exact hkeep
      · have hn : s.haveY = false := by simpa using hy
        rw [emitCd_noY _ _ hn]
        exact ih (countDrop s) fun j hj => h j (by omega)
    · rw [if_neg hk]
      exact hkeep

/-- Primed, within a capacity of at least the lanes of the word: the lanes stop exactly where more of them emit than
there is room for and doubling would pass the limit (R205). -/
theorem expandLanes_none_iff {n : Nat} (mask : BitVec n) (ks : List Nat) :
    ∀ s : State, s.haveY = true → s.haveTimeHigh = true → s.cdLen.toNat ≤ s.cdCap.toNat →
      ks.length ≤ s.cdCap.toNat →
      (expandLanes mask ks s = none ↔
        s.cdCap.toNat < s.cdLen.toNat + (ks.filter (laneEmits mask s.baseX)).length ∧
          ∃ m, Config.cdCapMax = some m ∧ m < s.cdCap.toNat * 2) := by
  induction ks with
  | nil =>
    intro s _ _ hle _
    have : ¬ s.cdCap.toNat < s.cdLen.toNat := by omega
    simp [expandLanes, this]
  | cons k ks ih =>
    intro s hy ht hle hlen
    simp only [List.length_cons] at hlen
    simp only [expandLanes, expandLane]
    by_cases hk : laneEmits mask s.baseX k = true
    · have hcap := s.cdCap.isLt
      rw [if_pos hk]
      simp only [List.filter_cons, hk, if_true, List.length_cons]
      by_cases hfull : s.cdLen = s.cdCap
      · have hroom : s.cdCap.toNat < s.cdLen.toNat + ((ks.filter (laneEmits mask s.baseX)).length + 1) := by
          rw [hfull]
          omega
        simp only [hroom, true_and]
        by_cases hlim : ∃ m, Config.cdCapMax = some m ∧ m < s.cdCap.toNat * 2
        · simp [(emitCd_none_iff (laneColumn s.baseX k) s.vectPolarity s).2 ⟨hy, ht, hfull, hlim⟩, hlim]
        · have hgrow : cdMayGrow s := fun m hm => by
            by_contra hc
            exact hlim ⟨m, hm, by omega⟩
          obtain ⟨v, hv, -, -, -, hl, hc⟩ :=
            emitCd_takes (laneColumn s.baseX k) s.vectPolarity hy ht fun _ => hgrow
          obtain ⟨u, hu⟩ := expandLanes_completes mask ks v fun j hj he => by
            rw [hl, hc, if_pos hfull, hfull] at he
            have h1 := congrArg BitVec.toNat he
            have hone : (1 : BitVec 64).toNat = 1 := rfl
            have htwo : (2 : BitVec 64).toNat = 2 := rfl
            simp only [BitVec.toNat_add, BitVec.toNat_mul, BitVec.toNat_ofNat, hone, htwo] at h1
            omega
          simp [hv, hu, hlim]
      · have hlt : s.cdLen.toNat < s.cdCap.toNat := by
          have : s.cdLen.toNat ≠ s.cdCap.toNat := fun e => hfull (BitVec.eq_of_toNat_eq e)
          omega
        obtain ⟨v, hv, hvy, hvt, hvb, hl, hc⟩ :=
          emitCd_takes (laneColumn s.baseX k) s.vectPolarity hy ht fun e => absurd e hfull
        have hln : v.cdLen.toNat = s.cdLen.toNat + 1 := by
          rw [hl]
          exact toNat_add_one (by omega)
        rw [if_neg hfull] at hc
        have hrec := ih v hvy hvt (by rw [hc]; omega) (by rw [hc]; omega)
        rw [hvb, hc, hln, Nat.add_assoc, Nat.add_comm 1] at hrec
        rw [hv]
        exact hrec
    · have hk' : laneEmits mask s.baseX k = false := by simpa using hk
      rw [if_neg hk]
      simp only [List.filter_cons, hk', Bool.false_eq_true, if_false]
      exact ih s hy ht hle (by omega)

end Sys2Proof.Machine
end

