-- ==== Sys2Proof/Laws/Step.lean ====
section
/-! SUPPORT. What each word does in `RUN` in terms of the shared operations, what the word reader can do, and everything
a step can do, said once. -/

namespace Sys2Proof.Machine

/-! ## The words in `RUN` -/

theorem exec_idle (i : Instr) {s : State} (h : s.phase ≠ .run) : exec i s = .next s := by
  cases i <;>
    simp [exec, execAddrY, execAddrX, execVectBaseX, execVect12, execVect8, execTimeLow, execTimeHigh, execExtTrigger,
      execReserved1, execReserved7, execReserved9, execReservedB, execReservedC, execReservedD, execReservedE,
      execReservedF, wordRule, wordRuleOrStuck, reservedWord, h]

theorem reservedWord_raises (code : TypeCode) {s : State} (h : s.phase = .run) :
    reservedWord Config.ignorableCodes code s = .next (raise (.unknownEventType code) s) := by
  simp [reservedWord, h, Config.ignorableCodes]

/-- The updates a word in `RUN` can make, by kind: the four register words, the two emissions, the two expansions, and
fault entry. -/
inductive WordEffect : Instr → State → State → Prop where
  | addrY (orig : BitVec 1) (y : BitVec 11) (s : State) :
      WordEffect (.addrY orig y) s (advanceWord (setHaveY (setRow (coordOperand y) s)))
  | addrX (p : BitVec 1) (x : BitVec 11) (s u : State) (h : emitCd (coordOperand x) (polarityOperand p) s = some u) :
      WordEffect (.addrX p x) s (advanceWord u)
  | vectBaseX (p : BitVec 1) (x : BitVec 11) (s : State) :
      WordEffect (.vectBaseX p x) s (advanceWord (setVectBase (coordOperand x) (polarityOperand p) s))
  | vect12 (mask : BitVec 12) (s u : State) (h : expandLanes mask (List.range 12) s = some u) :
      WordEffect (.vect12 mask) s (advanceWord (advanceBase 12 u))
  | vect8 (ign : BitVec 4) (mask : BitVec 8) (s u : State) (h : expandLanes mask (List.range 8) s = some u) :
      WordEffect (.vect8 ign mask) s (advanceWord (advanceBase 8 u))
  | timeLow (t : BitVec 12) (s : State) : WordEffect (.timeLow t) s (advanceWord (setTimeLow (timeOperand t) s))
  | timeHigh (t : BitVec 12) (s : State) :
      WordEffect (.timeHigh t) s (advanceWord (takeTimeHigh (timeOperand t) s))
  | extTrigger (id : BitVec 4) (pad : BitVec 7) (v : BitVec 1) (s u : State)
      (h : emitTrig (idOperand id) (valueOperand v) s = some u) : WordEffect (.extTrigger id pad v) s (advanceWord u)
  | reserved (i : Instr) (s : State)
      (h : typeCode i ∈ [0x1, 0x7, 0x9, 0xB, 0xC, 0xD, 0xE, (0xF : TypeCode)]) :
      WordEffect i s (raise (.unknownEventType (typeCode i)) s)

/-- Everything a word in `RUN` can do. -/
theorem exec_effect {i : Instr} {s t : State} (h : s.phase = .run) (ht : exec i s = .next t) : WordEffect i s t := by
  cases i with
  | addrY orig y =>
    simp only [exec, execAddrY, wordRule_run _ h, Host.Outcome.next.injEq] at ht
    exact ht ▸ .addrY orig y s
  | addrX p x =>
    obtain ⟨u, hu, rfl⟩ := wordRuleOrStuck_next h ht
    exact .addrX p x s u hu
  | vectBaseX p x =>
    simp only [exec, execVectBaseX, wordRule_run _ h, Host.Outcome.next.injEq] at ht
    exact ht ▸ .vectBaseX p x s
  | vect12 mask =>
    obtain ⟨u, hu, rfl⟩ := wordRuleOrStuck_next h ht
    obtain ⟨v, hv, rfl⟩ := expand_some hu
    exact .vect12 mask s v hv
  | vect8 ign mask =>
    obtain ⟨u, hu, rfl⟩ := wordRuleOrStuck_next h ht
    obtain ⟨v, hv, rfl⟩ := expand_some hu
    exact .vect8 ign mask s v hv
  | timeLow t' =>
    simp only [exec, execTimeLow, wordRule_run _ h, Host.Outcome.next.injEq] at ht
    exact ht ▸ .timeLow t' s
  | timeHigh t' =>
    simp only [exec, execTimeHigh, wordRule_run _ h, Host.Outcome.next.injEq] at ht
    exact ht ▸ .timeHigh t' s
  | extTrigger id pad v =>
    obtain ⟨u, hu, rfl⟩ := wordRuleOrStuck_next h ht
    exact .extTrigger id pad v s u hu
  | reserved1 | reserved7 | reserved9 | reservedB | reservedC | reservedD | reservedE | reservedF =>
    simp only [exec, execReserved1, execReserved7, execReserved9, execReservedB, execReservedC, execReservedD,
      execReservedE, execReservedF, reservedWord_raises _ h, Host.Outcome.next.injEq] at ht
    rw [← ht]
    exact WordEffect.reserved _ s (by simp [typeCode])

/-- No word is refused. -/
theorem exec_not_refused (i : Instr) (s : State) (r : Refusal) : exec i s ≠ .refused r := by
  cases i <;>
    simp only [exec, execAddrY, execAddrX, execVectBaseX, execVect12, execVect8, execTimeLow, execTimeHigh,
      execExtTrigger, execReserved1, execReserved7, execReserved9, execReservedB, execReservedC, execReservedD,
      execReservedE, execReservedF, wordRule, wordRuleOrStuck, reservedWord] <;>
    repeat' split
  all_goals simp

/-- A word in `RUN` leaves it in `RUN` with `word_index` advanced, or raises. -/
theorem WordEffect_run {i : Instr} {s t : State} (h : s.phase = .run) (he : WordEffect i s t) :
    (t.phase = .run ∧ t.errKind = s.errKind ∧ t.wordIndex = s.wordIndex + 1) ∨
      t = raise (.unknownEventType (typeCode i)) s := by
  cases he with
  | addrY | vectBaseX | timeLow | timeHigh => exact .inl ⟨h, rfl, rfl⟩
  | addrX _ _ _ u hu =>
    rw [emitCd_frame hu]
    exact .inl ⟨h, rfl, rfl⟩
  | vect12 _ _ u hu =>
    rw [expandLanes_frame hu]
    exact .inl ⟨h, rfl, rfl⟩
  | vect8 _ _ _ u hu =>
    rw [expandLanes_frame hu]
    exact .inl ⟨h, rfl, rfl⟩
  | extTrigger _ _ _ _ u hu =>
    rw [emitTrig_frame hu]
    exact .inl ⟨h, rfl, rfl⟩
  | reserved => exact .inr rfl

/-- No word touches the ingress stage or the sensor sizes. -/
theorem exec_ingress {i : Instr} {s t : State} (h : exec i s = .next t) :
    t.byteHold = s.byteHold ∧ t.haveByte = s.haveByte ∧ t.input = s.input ∧ t.headerVerdict = s.headerVerdict ∧
      t.sensorWidth = s.sensorWidth ∧ t.sensorHeight = s.sensorHeight := by
  by_cases hr : s.phase = .run
  · cases exec_effect hr h with
    | addrY | vectBaseX | timeLow | timeHigh | reserved => exact ⟨rfl, rfl, rfl, rfl, rfl, rfl⟩
    | addrX _ _ _ u hu =>
      rw [emitCd_frame hu]
      exact ⟨rfl, rfl, rfl, rfl, rfl, rfl⟩
    | vect12 _ _ u hu =>
      rw [expandLanes_frame hu]
      exact ⟨rfl, rfl, rfl, rfl, rfl, rfl⟩
    | vect8 _ _ _ u hu =>
      rw [expandLanes_frame hu]
      exact ⟨rfl, rfl, rfl, rfl, rfl, rfl⟩
    | extTrigger _ _ _ _ u hu =>
      rw [emitTrig_frame hu]
      exact ⟨rfl, rfl, rfl, rfl, rfl, rfl⟩
  · rw [exec_idle i hr] at h
    cases h
    exact ⟨rfl, rfl, rfl, rfl, rfl, rfl⟩

/-- Outside `RUN` a list of words changes nothing. -/
theorem execAll_idle (is : List Instr) {s : State} (h : s.phase ≠ .run) : execAll is s = .next s := by
  induction is with
  | nil => rfl
  | cons i is ih => simp [execAll, exec_idle i h, ih]

/-! ## The word reader -/

/-- Two bytes at the byte port, none pending: a word. -/
theorem takeToken_pair (b0 b1 : Byte) (rest : List ByteToken) {s : State} (h : s.haveByte = false) :
    takeToken (.byte b0 :: .byte b1 :: rest) s =
      (some (.word (wordOfBytes b0 b1)), withIngress b0 false rest s.headerVerdict s) := by
  simp [takeToken, h, holdByte, releaseByte, setInput, withIngress]

/-- One byte at the byte port, one pending: a word. -/
theorem takeToken_held (b : Byte) (rest : List ByteToken) {s : State} (h : s.haveByte = true) :
    takeToken (.byte b :: rest) s =
      (some (.word (wordOfBytes s.byteHold b)), withIngress s.byteHold false rest s.headerVerdict s) := by
  simp [takeToken, h, releaseByte, setInput, withIngress]

/-- `Eof` at the byte port: the end, truncated exactly when a byte is pending. -/
theorem takeToken_eof (rest : List ByteToken) (s : State) :
    takeToken (.eof :: rest) s = (some (if s.haveByte then .endTruncated else .endOfStream), setInput rest s) := rfl

/-- Where the word reader gives a token, it is the next one of the word port; what follows a word is the word port of the
bytes left. Where it gives none, the word port has none. -/
theorem takeToken_wordPort (ts : List ByteToken) (s : State) :
    match takeToken ts s with
    | (none, _) => wordPort (pendingByte s) ts = []
    | (some (.word w), u) => wordPort (pendingByte s) ts = .word w :: wordPort (pendingByte u) u.input
    | (some token, _) => wordPort (pendingByte s) ts = [token] := by
  induction ts generalizing s with
  | nil => cases s.haveByte <;> rfl
  | cons token rest ih =>
    cases token with
    | byte b =>
      cases hb : s.haveByte with
      | true =>
        rw [takeToken_held b rest hb]
        simp [pendingByte, hb, wordPort, withIngress]
      | false =>
        have h := ih (holdByte b s)
        simp only [takeToken, hb, Bool.false_eq_true, if_false, pendingByte, wordPort]
        exact h
    | eof => cases hb : s.haveByte <;> simp [takeToken, eofToken, hb, pendingByte, wordPort]
    | ioFail e => cases pendingByte s <;> rfl

/-- The word port of the bytes of words, ended by a terminator. -/
theorem wordPort_words (ws : List Word) (rest : List ByteToken) :
    wordPort none (wordTokens ws ++ rest) =
      (ws.map fun w => .word (wordOfBytes (lowByte w) (highByte w))) ++ wordPort none rest := by
  induction ws with
  | nil => rfl
  | cons w ws ih => simpa [wordTokens, bytesOfWord, wordPort] using ih

/-- `Run` does nothing outside `RUN`. -/
theorem runTokens_idle (ts : List WordToken) {s : State} (h : s.phase ≠ .run) : runTokens ts s = .next s := by
  cases ts <;> simp [runTokens, h]

/-- The word reader gives a clean end only for `Eof` next with no byte pending. -/
theorem takeToken_end (ts : List ByteToken) {s u : State} (h : takeToken ts s = (some .endOfStream, u)) :
    s.haveByte = false ∧ ∃ rest, ts = .eof :: rest ∧ u = setInput rest s := by
  match ts with
  | [] => simp [takeToken] at h
  | .eof :: rest =>
    simp only [takeToken, eofToken, Prod.mk.injEq] at h
    by_cases hb : s.haveByte = true
    · simp [hb] at h
    · exact ⟨by simpa using hb, rest, rfl, h.2.symm⟩
  | .ioFail e :: rest => simp [takeToken] at h
  | [.byte b] => by_cases hb : s.haveByte = true <;> simp [takeToken, hb] at h
  | .byte b :: .byte c :: rest => by_cases hb : s.haveByte = true <;> simp [takeToken, hb] at h
  | .byte b :: .eof :: rest => by_cases hb : s.haveByte = true <;> simp [takeToken, hb, eofToken] at h
  | .byte b :: .ioFail e :: rest => by_cases hb : s.haveByte = true <;> simp [takeToken, hb] at h

/-- What the word reader changes: the ingress stage only. -/
theorem takeToken_frame (ts : List ByteToken) (s : State) :
    ∃ b f r, (takeToken ts s).2 = withIngress b f r s.headerVerdict s := by
  induction ts generalizing s with
  | nil => exact ⟨s.byteHold, s.haveByte, [], rfl⟩
  | cons token rest ih =>
    cases token with
    | byte b =>
      by_cases hb : s.haveByte = true
      · simp only [takeToken, hb, if_true]
        exact ⟨s.byteHold, false, rest, rfl⟩
      · simp only [takeToken, hb]
        obtain ⟨b', f, r, h⟩ := ih (holdByte b s)
        exact ⟨b', f, r, h⟩
    | eof => exact ⟨s.byteHold, s.haveByte, rest, rfl⟩
    | ioFail e => exact ⟨s.byteHold, s.haveByte, rest, rfl⟩

/-- A step in `RUN` is the decoder's step on the token the word reader gives. -/
theorem step_token {s u : State} {token : WordToken} (h : s.phase = .run) (hr : formatRejected s = false)
    (hu : takeToken s.input s = (some token, u)) : step s = decoderStep token u := by
  simp [step, h, runStep, hr, hu]

/-- Everything a step can do (R120, R126, R131): outside `RUN` nothing; else the header's rejection, the wait for a
token, or one word-port token applied to the state whose ingress stage has taken it. -/
theorem step_cases {s t : State} (ht : step s = .next t) :
    (s.phase ≠ .run ∧ t = s) ∨
    (s.phase = .run ∧ formatRejected s = true ∧ t = raise .unsupportedFormat s) ∨
    (s.phase = .run ∧ formatRejected s = false ∧ takeToken s.input s = (none, t)) ∨
    (s.phase = .run ∧ formatRejected s = false ∧
      ∃ token u, takeToken s.input s = (some token, u) ∧ decoderStep token u = .next t) := by
  simp only [step] at ht
  split_ifs at ht with h
  · simp only [runStep] at ht
    split_ifs at ht with hr
    · exact .inr (.inl ⟨h, hr, by simpa using ht.symm⟩)
    · have hr : formatRejected s = false := by simpa using hr
      split at ht
      · rename_i token u hu
        exact .inr (.inr (.inr ⟨h, hr, token, u, hu, ht⟩))
      · rename_i u hu
        have : u = t := by simpa using ht
        exact .inr (.inr (.inl ⟨h, hr, this ▸ hu⟩))
  · exact .inl ⟨h, by simpa using ht.symm⟩

/-- A property of the next state holds when it holds of every state a step can answer: the state itself where nothing
happens, a change of the ingress stage, and on top of such a change a word, the end or fault entry. -/
theorem step_to {Q : State → Prop} {s t : State} (ht : step s = .next t) (idle : s.phase ≠ .run → Q s)
    (ingress : ∀ b f r, s.phase = .run → Q (withIngress b f r s.headerVerdict s))
    (word : ∀ b f r i u, s.phase = .run → exec i (withIngress b f r s.headerVerdict s) = .next u → Q u)
    (finish : ∀ b f r, s.phase = .run → Q (endSession (withIngress b f r s.headerVerdict s)))
    (fail : ∀ e b f r, s.phase = .run → Q (raise e (withIngress b f r s.headerVerdict s))) : Q t := by
  rcases step_cases ht with ⟨h, rfl⟩ | ⟨h, -, rfl⟩ | ⟨h, -, hn⟩ | ⟨h, -, token, u, hu, hd⟩
  · exact idle h
  · exact fail _ s.byteHold s.haveByte s.input h
  · obtain ⟨b, f, r, hf⟩ := takeToken_frame s.input s
    rw [hn] at hf
    simp only at hf
    exact hf ▸ ingress b f r h
  · obtain ⟨b, f, r, hf⟩ := takeToken_frame s.input s
    rw [hu] at hf
    simp only at hf
    subst hf
    cases token with
    | word w => exact word b f r _ _ h hd
    | endOfStream => exact (Host.Outcome.next.inj hd) ▸ finish b f r h
    | endTruncated => exact (Host.Outcome.next.inj hd) ▸ fail _ b f r h
    | ioFail e => exact (Host.Outcome.next.inj hd) ▸ fail _ b f r h

/-- A property that ingress changes, every word, the end and fault entry keep, is kept by every step. -/
theorem step_preserves {P : State → Prop} (ingress : ∀ b f r v s, P s → P (withIngress b f r v s))
    (word : ∀ i s t, P s → s.phase = .run → exec i s = .next t → P t)
    (finish : ∀ s, P s → s.phase = .run → P (endSession s))
    (fail : ∀ e s, P s → s.phase = .run → P (raise e s)) {s t : State} (hs : P s) (ht : step s = .next t) : P t :=
  step_to ht (fun _ => hs) (fun b f r _ => ingress b f r _ s hs)
    (fun b f r i u h he => word i _ u (ingress b f r _ s hs) h he)
    (fun b f r h => finish _ (ingress b f r _ s hs) h) (fun e b f r h => fail e _ (ingress b f r _ s hs) h)

end Sys2Proof.Machine
end

