-- ==== Sys2Proof/Laws/Invariants.lean ====
section
/-! SUPPORT. Each shared operation and the invariants of 10_state.md R44. -/

namespace Sys2Proof.Machine

theorem now_toNat {s : State} (h : s.timeLow.toNat < 4096) :
    (now s).toNat = s.timeHigh.toNat * 4096 + s.timeLow.toNat := by
  have h1 : (s.timeHigh.setWidth 64).toNat = s.timeHigh.toNat := by
    simp only [BitVec.toNat_setWidth]
    omega
  have h2 : (s.timeLow.setWidth 64).toNat = s.timeLow.toNat := by
    simp only [BitVec.toNat_setWidth]
    omega
  have h3 : s.timeHigh.toNat <<< 12 % 2 ^ 64 = s.timeHigh.toNat <<< 12 := by
    rw [Nat.shiftLeft_eq]
    omega
  rw [now, BitVec.toNat_or, BitVec.toNat_shiftLeft, h1, h2, h3, ← Nat.shiftLeft_add_eq_or_of_lt (by omega),
    Nat.shiftLeft_eq]

theorem now_bound {s : State} (h : s.timeLow.toNat < 4096) : (now s).toNat < 2 ^ 44 := by
  have := s.timeHigh.isLt
  rw [now_toNat h]
  omega

theorem elementsBelow_colWrite {w : Nat} {c : Column w} {n : Nat} (h : elementsBelow n c = true) (i : Nat)
    {v : BitVec w} (hv : v.toNat < n) : elementsBelow n (colWrite c i v) = true :=
  colWrite_all _ _ _ _ h (by simpa using hv)

theorem filled_colWrite {w : Nat} {c : Column w} {len : BitVec 64} (h : filled c len) (v : BitVec w)
    (hl : len.toNat + 1 < 2 ^ 64) : filled (colWrite c len.toNat v) (len + 1) := by
  simp only [filled, toNat_add_one hl]
  exact map_fst_colWrite_range _ _ _ h

theorem isCapacity_double {c : BitVec 64} (h : isCapacity c) (hl : c.toNat < 2 ^ 63) : isCapacity (c * 2) := by
  obtain ⟨j, hj⟩ := h
  exact ⟨j + 1, by rw [toNat_double hl, hj]; ring⟩

/-- The capacity an append leaves has the form of a capacity and room for the new element. -/
theorem isCapacity_grown {len cap c : BitVec 64} (h : (len ≠ cap ∧ c = cap) ∨ (len = cap ∧ c = cap * 2))
    (hform : isCapacity cap) (hroom : len.toNat ≤ cap.toNat) (hl : len.toNat < 2 ^ 63) :
    isCapacity c ∧ len.toNat + 1 ≤ c.toNat := by
  rcases h with ⟨hne, rfl⟩ | ⟨rfl, rfl⟩
  · have : len.toNat ≠ c.toNat := fun e => hne (BitVec.eq_of_toNat_eq e)
    exact ⟨hform, by omega⟩
  · obtain ⟨j, hj⟩ := hform
    have hpos : 0 < 2 ^ j := Nat.pow_pos (by omega)
    exact ⟨isCapacity_double ⟨j, hj⟩ hl, by rw [toNat_double hl]; omega⟩

theorem stateInv_emitCd {x : BitVec 16} {p : BitVec 8} {s u : State} (h : emitCd x p s = some u) (hi : StateInv s)
    (hl : s.cdLen.toNat < 2 ^ 63) (hx : x.toNat < 2048) (hp : p.toNat < 2) : StateInv u := by
  rcases emitCd_some h with ⟨-, rfl⟩ | ⟨-, -, rfl⟩ | ⟨-, -, ha⟩
  · exact { hi with }
  · exact hi
  · obtain ⟨c, hc, rfl⟩ := appendCdUnder_some ha
    have hcap := isCapacity_grown hc hi.cdCapForm hi.cdRoom hl
    have hlen : s.cdLen.toNat + 1 < 2 ^ 64 := by omega
    rw [noteCdOrder_eq]
    exact { hi with
      cdXFilled := filled_colWrite hi.cdXFilled _ hlen
      cdYFilled := filled_colWrite hi.cdYFilled _ hlen
      cdPFilled := filled_colWrite hi.cdPFilled _ hlen
      cdTFilled := filled_colWrite hi.cdTFilled _ hlen
      cdXRange := elementsBelow_colWrite hi.cdXRange _ hx
      cdYRange := elementsBelow_colWrite hi.cdYRange _ hi.curY
      cdPRange := elementsBelow_colWrite hi.cdPRange _ hp
      cdTRange := elementsBelow_colWrite hi.cdTRange _ (now_bound hi.timeLow)
      cdRoom := (le_of_eq (toNat_add_one hlen)).trans hcap.2
      cdCapForm := hcap.1 }

theorem stateInv_emitTrig {i v : BitVec 8} {s u : State} (h : emitTrig i v s = some u) (hi : StateInv s)
    (hl : s.trigLen.toNat < 2 ^ 63) (hid : i.toNat < 16) (hv : v.toNat < 2) : StateInv u := by
  rcases emitTrig_some h with ⟨-, rfl⟩ | ⟨-, ha⟩
  · exact hi
  · obtain ⟨c, hc, rfl⟩ := appendTrigUnder_some ha
    have hcap := isCapacity_grown hc hi.trigCapForm hi.trigRoom hl
    have hlen : s.trigLen.toNat + 1 < 2 ^ 64 := by omega
    rw [noteTrigOrder_eq]
    exact { hi with
      trTFilled := filled_colWrite hi.trTFilled _ hlen
      trIdFilled := filled_colWrite hi.trIdFilled _ hlen
      trVFilled := filled_colWrite hi.trVFilled _ hlen
      trIdRange := elementsBelow_colWrite hi.trIdRange _ hid
      trVRange := elementsBelow_colWrite hi.trVRange _ hv
      trTRange := elementsBelow_colWrite hi.trTRange _ (now_bound hi.timeLow)
      trigRoom := (le_of_eq (toNat_add_one hlen)).trans hcap.2
      trigCapForm := hcap.1 }

theorem stateInv_expandLanes {n : Nat} {mask : BitVec n} {ks : List Nat} {s u : State}
    (h : expandLanes mask ks s = some u) (hi : StateInv s) (hl : s.cdLen.toNat < 2 ^ 62) (hks : ks.length ≤ 12) :
    StateInv u := by
  have key := expandLanes_induction (mask := mask)
    (fun m v => m ≤ 12 → StateInv v ∧ v.cdLen.toNat < 2 ^ 62 + m)
    (fun m v hv hm => ⟨(hv (by omega)).1, by have := (hv (by omega)).2; omega⟩)
    (fun m k v w hv hk he hm => by
      obtain ⟨hinv, hlen⟩ := hv (by omega)
      have hle := (emitCd_cdLen_le he (by omega)).2
      have hcol : (laneColumn v.baseX k).toNat < 2048 := by
        rw [laneColumn_toNat hk]
        exact ((laneEmits_iff _ _ _).1 hk).2
      exact ⟨stateInv_emitCd he hinv (by omega) hcol hinv.vectPolarity, by omega⟩)
    ks 0 s u (fun _ => ⟨hi, by omega⟩) h
  exact (key (by omega)).1

theorem stateInv_raise (e : FatalError) {s : State} (h : StateInv s) : StateInv (raise e s) :=
  { h with faultRecord := by cases e <;> simp [errorKind] }

end Sys2Proof.Machine
end

