-- ==== Sys2Proof/Laws/PerInstr.lean ====
section
/-! SUPPORT. Statements made of every instruction, one lemma per constructor. Family CodeField: the code field of an
instruction's word is its type code, and the rest of the word its payload bits (30_encoding.md R91). -/

namespace Sys2Proof.Laws.CodeField

/-- The word of `i` carries its type code in bits 15:12 and its payload in bits 11:0. -/
def Statement (i : Instr) : Prop := codeOf (encode i) = typeCode i ∧ payloadOf (encode i) = payloadBits i

theorem of_append (c : TypeCode) (pl : Payload) :
    codeOf (c ++ pl : BitVec (4 + 12)) = c ∧ payloadOf (c ++ pl : BitVec (4 + 12)) = pl := by
  constructor <;> apply BitVec.eq_of_getLsbD_eq <;> intro k hk
  · unfold codeOf
    rw [BitVec.getLsbD_extractLsb', BitVec.getLsbD_append]
    simp [hk]
  · unfold payloadOf
    rw [BitVec.getLsbD_extractLsb', BitVec.getLsbD_append]
    simp [hk]

theorem addrY (o : BitVec 1) (y : BitVec 11) : Statement (.addrY o y) := of_append _ _
theorem reserved1 (pl : Payload) : Statement (.reserved1 pl) := of_append _ _
theorem addrX (p : BitVec 1) (x : BitVec 11) : Statement (.addrX p x) := of_append _ _
theorem vectBaseX (p : BitVec 1) (x : BitVec 11) : Statement (.vectBaseX p x) := of_append _ _
theorem vect12 (m : BitVec 12) : Statement (.vect12 m) := of_append _ _
theorem vect8 (g : BitVec 4) (m : BitVec 8) : Statement (.vect8 g m) := of_append _ _
theorem timeLow (t : BitVec 12) : Statement (.timeLow t) := of_append _ _
theorem reserved7 (pl : Payload) : Statement (.reserved7 pl) := of_append _ _
theorem timeHigh (t : BitVec 12) : Statement (.timeHigh t) := of_append _ _
theorem reserved9 (pl : Payload) : Statement (.reserved9 pl) := of_append _ _
theorem extTrigger (i : BitVec 4) (z : BitVec 7) (v : BitVec 1) : Statement (.extTrigger i z v) := of_append _ _
theorem reservedB (pl : Payload) : Statement (.reservedB pl) := of_append _ _
theorem reservedC (pl : Payload) : Statement (.reservedC pl) := of_append _ _
theorem reservedD (pl : Payload) : Statement (.reservedD pl) := of_append _ _
theorem reservedE (pl : Payload) : Statement (.reservedE pl) := of_append _ _
theorem reservedF (pl : Payload) : Statement (.reservedF pl) := of_append _ _

end Sys2Proof.Laws.CodeField
end

