-- ==== Sys2Proof/Laws/Unread.lean ====
section
/-! SUPPORT. Updates of fields that no word rule reads: every word gives the same with them as without them. -/

namespace Sys2Proof.Machine

/-- An update that every operation of the word rules passes through unchanged. -/
structure Unread (φ : State → State) : Prop where
  row : ∀ y s, setHaveY (setRow y (φ s)) = φ (setHaveY (setRow y s))
  vectBase : ∀ x p s, setVectBase x p (φ s) = φ (setVectBase x p s)
  baseAdvance : ∀ n s, advanceBase n (φ s) = φ (advanceBase n s)
  lowTime : ∀ n s, setTimeLow n (φ s) = φ (setTimeLow n s)
  highTime : ∀ n s, takeTimeHigh n (φ s) = φ (takeTimeHigh n s)
  wordAdvance : ∀ s, advanceWord (φ s) = φ (advanceWord s)
  drop : ∀ s, countDrop (φ s) = φ (countDrop s)
  cdStore : ∀ x y p t c s,
    storeCd x y p t (noteCdOrder t (setCdCap c (φ s))) = φ (storeCd x y p t (noteCdOrder t (setCdCap c s)))
  trigStore : ∀ t i v c s,
    storeTrig t i v (noteTrigOrder t (setTrigCap c (φ s))) = φ (storeTrig t i v (noteTrigOrder t (setTrigCap c s)))
  faultEntry : ∀ e s, raise e (φ s) = φ (raise e s)
  haveY : ∀ s, (φ s).haveY = s.haveY
  haveTimeHigh : ∀ s, (φ s).haveTimeHigh = s.haveTimeHigh
  curY : ∀ s, (φ s).curY = s.curY
  baseX : ∀ s, (φ s).baseX = s.baseX
  vectPolarity : ∀ s, (φ s).vectPolarity = s.vectPolarity
  now : ∀ s, now (φ s) = now s
  cdLen : ∀ s, (φ s).cdLen = s.cdLen
  cdCap : ∀ s, (φ s).cdCap = s.cdCap
  trigLen : ∀ s, (φ s).trigLen = s.trigLen
  trigCap : ∀ s, (φ s).trigCap = s.trigCap
  phase : ∀ s, (φ s).phase = s.phase

variable {φ : State → State}

theorem emitCd_unread (h : Unread φ) (x : BitVec 16) (p : BitVec 8) (s : State) :
    emitCd x p (φ s) = (emitCd x p s).map φ := by
  simp only [emitCd, h.haveY, h.haveTimeHigh, h.curY, h.now, h.drop]
  split_ifs
  · rfl
  · rfl
  · simp only [appendCd, appendCdUnder, h.cdLen, h.cdCap]
    split <;> simp [h.cdStore]

theorem emitTrig_unread (h : Unread φ) (i v : BitVec 8) (s : State) :
    emitTrig i v (φ s) = (emitTrig i v s).map φ := by
  simp only [emitTrig, h.haveTimeHigh, h.now]
  split_ifs
  · simp only [appendTrig, appendTrigUnder, h.trigLen, h.trigCap]
    split <;> simp [h.trigStore]
  · rfl

theorem expandLanes_unread (h : Unread φ) {n : Nat} (mask : BitVec n) (ks : List Nat) :
    ∀ s, expandLanes mask ks (φ s) = (expandLanes mask ks s).map φ := by
  induction ks with
  | nil => intro s; rfl
  | cons k ks ih =>
    intro s
    simp only [expandLanes, expandLane, h.baseX, h.vectPolarity, emitCd_unread h]
    split_ifs
    · cases emitCd (laneColumn s.baseX k) s.vectPolarity s <;> simp [ih]
    · simp [ih]

theorem expand_unread (h : Unread φ) {n : Nat} (mask : BitVec n) (s : State) :
    expand mask (φ s) = (expand mask s).map φ := by
  simp only [expand, expandLanes_unread h]
  cases expandLanes mask (List.range n) s <;> simp [h.baseAdvance]

theorem wordRule_unread (h : Unread φ) {f : State → State} (hf : ∀ s, f (φ s) = φ (f s)) (s : State) :
    wordRule f (φ s) = mapNext φ (wordRule f s) := by
  simp only [wordRule, h.phase, hf, h.wordAdvance]
  split_ifs <;> rfl

theorem wordRuleOrStuck_unread (h : Unread φ) (k : Fault) {f : State → Option State}
    (hf : ∀ s, f (φ s) = (f s).map φ) (s : State) :
    wordRuleOrStuck k f (φ s) = mapNext φ (wordRuleOrStuck k f s) := by
  simp only [wordRuleOrStuck, h.phase, hf]
  split_ifs
  · cases f s <;> simp [mapNext, h.wordAdvance]
  · rfl

theorem reservedWord_unread (h : Unread φ) (code : TypeCode) (s : State) :
    reservedWord Config.ignorableCodes code (φ s) = mapNext φ (reservedWord Config.ignorableCodes code s) := by
  by_cases hr : s.phase = .run
  · rw [reservedWord_raises _ hr, reservedWord_raises _ (by rw [h.phase]; exact hr), h.faultEntry]
    rfl
  · simp [reservedWord, h.phase, hr, mapNext]

/-- Every word gives the same with the update as without it. -/
theorem exec_unread (h : Unread φ) (i : Instr) (s : State) : exec i (φ s) = mapNext φ (exec i s) := by
  cases i with
  | addrY orig y => exact wordRule_unread h (f := fun s => setHaveY (setRow (coordOperand y) s)) (h.row _) s
  | addrX p x => exact wordRuleOrStuck_unread h _ (emitCd_unread h _ _) s
  | vectBaseX p x => exact wordRule_unread h (h.vectBase _ _) s
  | vect12 mask => exact wordRuleOrStuck_unread h _ (expand_unread h _) s
  | vect8 ign mask => exact wordRuleOrStuck_unread h _ (expand_unread h _) s
  | timeLow t => exact wordRule_unread h (h.lowTime _) s
  | timeHigh t => exact wordRule_unread h (h.highTime _) s
  | extTrigger id pad v => exact wordRuleOrStuck_unread h _ (emitTrig_unread h _ _) s
  | reserved1 | reserved7 | reserved9 | reservedB | reservedC | reservedD | reservedE | reservedF =>
    exact reservedWord_unread h _ s

theorem unread_withSensor (width height : BitVec 16) : Unread (withSensor width height) := by
  constructor <;> intros <;> first | rfl | (simp only [noteCdOrder_eq, noteTrigOrder_eq]; rfl)

theorem unread_withIngress (b : Byte) (f : Bool) (r : List ByteToken) (v : HeaderVerdict) :
    Unread (withIngress b f r v) := by
  constructor <;> intros <;> first | rfl | (simp only [noteCdOrder_eq, noteTrigOrder_eq]; rfl)

end Sys2Proof.Machine
end

