-- ==== Sys2Proof/Tests/Slice0.lean ====
section
/-! SUPPORT. Tests and witnesses. Expected results are the vectors of 95_test_vectors.md and the worked examples of the
rules, each named in its comment; a witness shows a state and operands that meet a statement's hypotheses. -/

namespace Sys2Proof.Tests

open Sys2Proof Sys2Proof.Machine

/-! ## Helpers -/

/-- The next state of an outcome, if there is one. -/
def nextOf (r : Result) : Option State :=
  match r with
  | .next s => some s
  | .fault _ => none
  | .refused _ => none

/-- After the words of `PR` (95 section 2): row 5, time 0, both flags. -/
def primedState : State := { State.reset with curY := 5, haveY := true, haveTimeHigh := true, wordIndex := 3 }

/-- A state with bytes at its byte port. -/
def fedState (bs : List Byte) (rest : List ByteToken) : State :=
  { State.reset with input := bs.map ByteToken.byte ++ rest }

/-- A field of the next state of one word. -/
def afterWord {α : Type} (w : Word) (s : State) (f : State → α) : Option α := (nextOf (exec (decode w) s)).map f

/-- A field of the next state of one step. -/
def afterStep {α : Type} (s : State) (f : State → α) : Option α := (nextOf (step s)).map f

/-! ## Well-formedness: R106 and R107, one term out of range per check -/

theorem test_illFormed_addrY :
    Stmt.wellFormed (.addrY 2048) = false ∧ assembleWord (.addrY 2048) = none := by decide
theorem test_illFormed_addrYOrig_y :
    Stmt.wellFormed (.addrYOrig 2048 0) = false ∧ assembleWord (.addrYOrig 2048 0) = none := by decide
theorem test_illFormed_addrYOrig_orig :
    Stmt.wellFormed (.addrYOrig 0 2) = false ∧ assembleWord (.addrYOrig 0 2) = none := by decide
theorem test_illFormed_addrX_x :
    Stmt.wellFormed (.addrX 2048 0) = false ∧ assembleWord (.addrX 2048 0) = none := by decide
theorem test_illFormed_addrX_p :
    Stmt.wellFormed (.addrX 0 2) = false ∧ assembleWord (.addrX 0 2) = none := by decide
theorem test_illFormed_vectBaseX_x :
    Stmt.wellFormed (.vectBaseX 2048 0) = false ∧ assembleWord (.vectBaseX 2048 0) = none := by decide
theorem test_illFormed_vectBaseX_p :
    Stmt.wellFormed (.vectBaseX 0 2) = false ∧ assembleWord (.vectBaseX 0 2) = none := by decide
theorem test_illFormed_vect12 :
    Stmt.wellFormed (.vect12 0x1000) = false ∧ assembleWord (.vect12 0x1000) = none := by decide
theorem test_illFormed_vect8 :
    Stmt.wellFormed (.vect8 0x100) = false ∧ assembleWord (.vect8 0x100) = none := by decide
theorem test_illFormed_timeLow :
    Stmt.wellFormed (.timeLow 4096) = false ∧ assembleWord (.timeLow 4096) = none := by decide
theorem test_illFormed_timeHigh :
    Stmt.wellFormed (.timeHigh 4096) = false ∧ assembleWord (.timeHigh 4096) = none := by decide
theorem test_illFormed_extTrigger_id :
    Stmt.wellFormed (.extTrigger 16 0) = false ∧ assembleWord (.extTrigger 16 0) = none := by decide
theorem test_illFormed_extTrigger_v :
    Stmt.wellFormed (.extTrigger 0 2) = false ∧ assembleWord (.extTrigger 0 2) = none := by decide
theorem test_illFormed_word :
    Stmt.wellFormed (.word 0x10000) = false ∧ assembleWord (.word 0x10000) = none := by decide
theorem test_illFormed_byte : Stmt.wellFormed (.byte 0x100) = false ∧ assembleWord (.byte 0x100) = none := by decide

/-! ## Decoding: words written out from the formats of R93 to R100 and from 95 section 1.3 -/

-- R93: 0000 0 00000000101
theorem test_decode_addrY_five : decode 0b0000000000000101 = .addrY 0 5 := by decide
-- R93: 0000 1 00000000101 (0x0805)
theorem test_decode_addrY_origin : decode 0b0000100000000101 = .addrY 1 5 := by decide
-- R103: code 0001
theorem test_decode_reserved1 : decode 0b0001000100100011 = .reserved1 0x123 := by decide
-- R94: 0010 1 11111111111 (0x2FFF of D-A4)
theorem test_decode_addrX : decode 0b0010111111111111 = .addrX 1 2047 := by decide
-- R95: 0011 0 00000001010 (0x300A)
theorem test_decode_vectBaseX : decode 0b0011000000001010 = .vectBaseX 0 10 := by decide
-- R96: 0100 000000000111 (0x4007)
theorem test_decode_vect12 : decode 0b0100000000000111 = .vect12 7 := by decide
-- R97: 0101 1111 10000001 (0x5F81)
theorem test_decode_vect8 : decode 0b0101111110000001 = .vect8 15 0b10000001 := by decide
-- R98: 0110 101010111100 (0x6ABC)
theorem test_decode_timeLow : decode 0b0110101010111100 = .timeLow 0xABC := by decide
-- R103: code 0111
theorem test_decode_reserved7 : decode 0b0111000000000000 = .reserved7 0 := by decide
-- R99: 1000 111111111111 (0x8FFF)
theorem test_decode_timeHigh : decode 0b1000111111111111 = .timeHigh 0xFFF := by decide
-- R103: code 1001
theorem test_decode_reserved9 : decode 0b1001000100100011 = .reserved9 0x123 := by decide
-- R100: 1010 0011 1111111 1 (0xA3FF)
theorem test_decode_extTrigger : decode 0b1010001111111111 = .extTrigger 3 0x7F 1 := by decide
-- R103: code 1011
theorem test_decode_reservedB : decode 0b1011000100100011 = .reservedB 0x123 := by decide
-- R103: code 1100
theorem test_decode_reservedC : decode 0b1100000100100011 = .reservedC 0x123 := by decide
-- R103: code 1101
theorem test_decode_reservedD : decode 0b1101000100100011 = .reservedD 0x123 := by decide
-- R103: code 1110
theorem test_decode_reservedE : decode 0b1110000100100011 = .reservedE 0x123 := by decide
-- R103: code 1111
theorem test_decode_reservedF : decode 0b1111000100100011 = .reservedF 0x123 := by decide
-- 95 section 1.3
theorem test_decodeTableWord : decodeTableWord 16 0xA301 = some (.extTrigger 3 0 1) := by decide
-- R62: bytes `00 80` are 0x8000
theorem test_decodeBytes_order : decodeBytes [0x00, 0x80, 0x05] = .ok (.timeHigh 0, [0x05]) := rfl
-- R64
theorem test_decodeBytes_short : decodeBytes [0x05] = .error .truncated := rfl
-- 95 P1: the first four words
theorem test_encode_program :
    [Instr.timeHigh 1, .timeLow 100, .addrY 0 10, .addrX 1 300].flatMap encodeBytes =
      [0x01, 0x80, 0x64, 0x60, 0x0A, 0x00, 0x2C, 0x29] := by decide
-- R108
theorem test_disassemble_ignored : disassemble 0x0805 = .word 0x0805 := by decide

/-! ## One word each (95 sections 1 and 2) -/

-- D-A1
theorem test_addrY :
    afterWord 0x0805 State.reset (fun t => (t.curY, t.haveY, t.cdLen)) = some (5, true, 0) := by decide
-- D-A3
theorem test_addrY_bit11 : afterWord 0x0FFF State.reset State.curY = some 2047 := by decide
-- D-A4
theorem test_addrX :
    afterWord 0x2FFF primedState (fun t => (t.mem.cdX, t.mem.cdY, t.mem.cdP, t.mem.cdT)) =
      some ([(0, 2047)], [(0, 5)], [(0, 1)], [(0, 0)]) := rfl
-- D-A7
theorem test_addrX_neither_flag :
    afterWord 0x2003 State.reset (fun t => (t.cdLen, t.droppedBeforeY)) = some (0, 1) := by decide
-- D-V13
theorem test_vectBaseX :
    afterWord 0x3C00 State.reset (fun t => (t.baseX, t.vectPolarity, t.cdLen)) = some (1024, 1, 0) := by decide
-- S-B
theorem test_vect12 :
    afterWord 0x4007 { primedState with baseX := 10 } (fun t => (t.mem.cdX, t.baseX)) =
      some ([(0, 10), (1, 11), (2, 12)], 22) := by decide
-- D-V12
theorem test_vect12_past_the_edge :
    afterWord 0x4FFF { primedState with baseX := 65530 } (fun t => (t.cdLen, t.baseX)) = some (0, 6) := by decide
-- R153
theorem test_vect8 :
    afterWord 0x5081 { primedState with baseX := 22, vectPolarity := 1 }
      (fun t => (t.mem.cdX, t.mem.cdP, t.baseX)) = some ([(0, 22), (1, 29)], [(0, 1), (1, 1)], 30) := by decide
-- R155, D15: lanes 0 and 1 counted, the others past the edge
theorem test_vect8_edge :
    afterWord 0x5FFF { State.reset with baseX := 2046 } (fun t => (t.droppedBeforeY, t.baseX)) =
      some (2, 2054) := by decide
-- D-T13
theorem test_timeLow :
    afterWord 0x6ABC { State.reset with timeHigh := 1 } (fun t => (t.timeLow, now t)) =
      some (0xABC, 6844) := by decide
-- S-C
theorem test_timeHigh_wrap :
    afterWord 0x8000 { State.reset with haveTimeHigh := true, timeHigh := 0xFFF, lastTimeHighPayload := 0xFFF }
      (fun t => (t.timeHigh, t.timeHighLoops, t.lastTimeHighPayload)) = some (0x1000, 1, 0) := by decide
-- D-T14
theorem test_timeHigh_width :
    afterWord 0x8000
      { State.reset with haveTimeHigh := true, timeHighLoops := 0xFFFFF, lastTimeHighPayload := 0xFFF }
      (fun t => (t.timeHigh, t.timeHighLoops)) = some (0, 0x100000) := by decide
-- D-T15, D-T16, D-T17
theorem test_reconstruct :
    reconstruct none 0 0x5A5 = (0x5A5, 0) ∧ reconstruct (some 0xFFF) 3 0x001 = (0x4001, 4) ∧
      reconstruct (some 0x001) 3 0xFFF = (0x3FFF, 3) := by decide
-- D-T3, D-T5
theorem test_reconstruct_boundary :
    reconstruct (some 0x7FF) 0 0 = (0, 0) ∧ reconstruct (some 0x800) 0 0 = (0x1000, 1) := by decide
-- D-X2
theorem test_extTrigger :
    afterWord 0xAF00 { State.reset with haveTimeHigh := true, timeHigh := 1, timeLow := 2 }
      (fun t => (t.mem.trT, t.mem.trId, t.mem.trV)) = some ([(0, 4098)], [(0, 15)], [(0, 0)]) := by decide
-- D-X3
theorem test_extTrigger_unprimed :
    afterWord 0xA301 State.reset (fun t => (t.trigLen, t.droppedBeforeY)) = some (0, 0) := by decide
-- D-R1
theorem test_reserved1 :
    afterWord 0x1123 { State.reset with wordIndex := 1 }
      (fun t => (t.phase, t.errKind, t.errCode, t.errWordIndex, t.wordIndex)) =
      some (.fault, .unknownEventType, 1, 1, 1) := by decide
-- D-R2
theorem test_reserved7 :
    afterWord 0x7123 { State.reset with wordIndex := 1 }
      (fun t => (t.phase, t.errKind, t.errCode, t.errWordIndex, t.wordIndex)) =
      some (.fault, .unknownEventType, 7, 1, 1) := by decide
-- D-R3
theorem test_reserved9 :
    afterWord 0x9123 { State.reset with wordIndex := 1 }
      (fun t => (t.phase, t.errKind, t.errCode, t.errWordIndex, t.wordIndex)) =
      some (.fault, .unknownEventType, 9, 1, 1) := by decide
-- D-R4
theorem test_reservedB :
    afterWord 0xB123 { State.reset with wordIndex := 1 }
      (fun t => (t.phase, t.errKind, t.errCode, t.errWordIndex, t.wordIndex)) =
      some (.fault, .unknownEventType, 11, 1, 1) := by decide
-- D-R5
theorem test_reservedC :
    afterWord 0xC123 { State.reset with wordIndex := 1 }
      (fun t => (t.phase, t.errKind, t.errCode, t.errWordIndex, t.wordIndex)) =
      some (.fault, .unknownEventType, 12, 1, 1) := by decide
-- D-R6
theorem test_reservedD :
    afterWord 0xD123 { State.reset with wordIndex := 1 }
      (fun t => (t.phase, t.errKind, t.errCode, t.errWordIndex, t.wordIndex)) =
      some (.fault, .unknownEventType, 13, 1, 1) := by decide
-- D-R7
theorem test_reservedE :
    afterWord 0xE123 { State.reset with wordIndex := 1 }
      (fun t => (t.phase, t.errKind, t.errCode, t.errWordIndex, t.wordIndex)) =
      some (.fault, .unknownEventType, 14, 1, 1) := by decide
-- D-R8
theorem test_reservedF :
    afterWord 0xF123 { State.reset with wordIndex := 1 }
      (fun t => (t.phase, t.errKind, t.errCode, t.errWordIndex, t.wordIndex)) =
      some (.fault, .unknownEventType, 15, 1, 1) := by decide
-- D-R9, the second word
theorem test_ignorable :
    (nextOf (reservedWord [7, 0xE, 0xF] 7 State.reset)).map (fun t => (t.unknownEvents, t.wordIndex, t.phase)) =
      some (1, 1, .run) := by decide
-- D-R9, the last word
theorem test_ignorable_not_listed :
    (nextOf (reservedWord [7, 0xE, 0xF] 1 State.reset)).map (fun t => (t.unknownEvents, t.errCode, t.phase)) =
      some (0, 1, .fault) := by decide

/-! ## Ingress, the end, buffers, session start -/

-- D-I1, the first word
theorem test_word_step :
    afterStep (fedState [0x00, 0x80] [.eof]) (fun t => (t.haveTimeHigh, t.wordIndex, t.input)) =
      some (true, 1, [.eof]) := by decide
-- D-I3
theorem test_truncated :
    afterStep (fedState [0x05] [.eof]) (fun t => (t.phase, t.errKind, t.errWordIndex)) =
      some (.fault, .truncatedStream, 0) := by decide
-- D-I5
theorem test_io_beats_truncation :
    afterStep (fedState [0x05] [.ioFail 9]) (fun t => (t.errKind, t.errIo, t.haveByte)) =
      some (.ioError, 9, true) := by decide
-- D-I6
theorem test_empty_input :
    afterStep (fedState [] [.eof]) (fun t => (t.phase, t.cdLen, t.trigLen)) = some (.done, 0, 0) := by decide
-- D-B2
theorem test_append_at_capacity :
    (appendCdUnder none 1 2 0 7
      { State.reset with cdLen := 65536, mem := { Memory.empty with cdT := [(65535, 7)] } }).map
      (fun t => (t.cdLen, t.cdCap, t.trigCap)) =
      some (65537, 131072, 65536) := by decide
-- D-B1
theorem test_append_below_capacity :
    (appendCdUnder none 1 2 0 7
      { State.reset with cdLen := 65535, mem := { Memory.empty with cdT := [(65534, 7)] } }).map
      (fun t => (t.cdLen, t.cdCap)) =
      some (65536, 65536) := by decide
-- D-B4
theorem test_out_of_order :
    (appendCdUnder none 3 4 1 7
      { State.reset with cdLen := 1, mem := { Memory.empty with cdT := [(0, 10)] } }).map
      (fun t => (t.outOfOrderEvents, t.mem.cdT)) = some (1, [(0, 10), (1, 7)]) := by decide
-- R205
theorem test_exhausted :
    (appendTrigUnder (some 65536) 7 1 1 { State.reset with trigLen := 65536 }).isNone = true := by decide
-- R286
theorem test_header_eats_a_percent_byte :
    skipHeader false [0x25, 0x00, 0x07, 0x0A, 0x00, 0x80] = ([0x25, 0x00, 0x07, 0x0A], [0x00, 0x80]) := by decide
-- the very next step from reset runs the word
theorem test_withFetchWord :
    afterStep (State.reset.withFetchWord 16 0x0005) (fun t => (t.curY, t.haveY)) = some (5, true) := by decide
-- 95 P4
theorem test_program_tokens :
    programTokens [.timeHigh 0, .addrY 7, .byte 0x20, .endOfStream] =
      some [.byte 0x00, .byte 0x80, .byte 0x07, .byte 0x00, .byte 0x20, .eof] := by decide
-- 95 P4, D-I2
theorem test_word_port :
    wordPort none [.byte 0x00, .byte 0x80, .byte 0x07, .byte 0x00, .byte 0x20, .eof] =
      [.word 0x8000, .word 0x0007, .endTruncated] := by decide
-- 95 P4: nothing after the end is consumed (R126)
theorem test_run :
    (nextOf (runTokens [.word 0x8000, .word 0x0007, .endTruncated, .word 0x0005] State.reset)).map
      (fun t => (t.phase, t.errKind, t.errWordIndex, t.curY)) = some (.fault, .truncatedStream, 2, 7) := by decide

/-! ## Witnesses: states and operands that meet the hypotheses of the statements -/

/-- Both flags set, one CD element of capacity, and it is used: the smallest full buffer. -/
def fullState : State := { primedState with cdLen := 1, cdCap := 1, trigLen := 1, trigCap := 1 }

theorem cdMayGrow_fullState : cdMayGrow fullState := by
  intro m hm
  simp only [Config.cdCapMax, Option.map_eq_some_iff] at hm
  obtain ⟨a, -, rfl⟩ := hm
  exact (by decide : 2 ≤ 65536).trans (le_max_left _ _)

theorem trigMayGrow_fullState : trigMayGrow fullState := by
  intro m hm
  simp only [Config.trigCapMax, Option.map_eq_some_iff] at hm
  obtain ⟨a, -, rfl⟩ := hm
  exact (by decide : 2 ≤ 65536).trans (le_max_left _ _)

theorem witness_StatementEncodings :
    assembleWord (.addrY 2047) = some 0x07FF ∧ assembleWord (.addrYOrig 2047 1) = some 0x0FFF ∧
    assembleWord (.addrX 2047 1) = some 0x2FFF ∧ assembleWord (.vectBaseX 2047 1) = some 0x3FFF ∧
    assembleWord (.vect12 0xFFF) = some 0x4FFF ∧ assembleWord (.vect8 0xFF) = some 0x50FF ∧
    assembleWord (.timeLow 4095) = some 0x6FFF ∧ assembleWord (.timeHigh 4095) = some 0x8FFF ∧
    assembleWord (.extTrigger 15 1) = some 0xAF01 ∧ assembleWord (.word 0xFFFF) = some 0xFFFF ∧
    stmtTokens (.byte 0xFF) = some [.byte 0xFF] := by decide

theorem witness_StatementEncodings_outOfRange :
    assembleWord (.addrY 2048) = none ∧ assembleWord (.addrYOrig 2047 2) = none ∧
    assembleWord (.addrX 2048 1) = none ∧
    assembleWord (.vectBaseX 2047 2) = none ∧ assembleWord (.vect12 0x1000) = none ∧
    assembleWord (.vect8 0x100) = none ∧ assembleWord (.timeLow 4096) = none ∧ assembleWord (.timeHigh 4096) = none ∧
    assembleWord (.extTrigger 16 1) = none ∧ assembleWord (.extTrigger 15 2) = none ∧
    assembleWord (.word 0x10000) = none ∧ stmtTokens (.byte 0x100) = none := by decide

theorem witness_WordFormats :
    (0x0FFF : Word).toNat / 4096 = 0x0 ∧ (0x2FFF : Word).toNat / 4096 = 0x2 ∧ (0x3FFF : Word).toNat / 4096 = 0x3 ∧
    (0x4000 : Word).toNat / 4096 = 0x4 ∧ (0x5FFF : Word).toNat / 4096 = 0x5 ∧ (0x6000 : Word).toNat / 4096 = 0x6 ∧
    (0x8FFF : Word).toNat / 4096 = 0x8 ∧ (0xAFFF : Word).toNat / 4096 = 0xA := by decide

theorem witness_StepRunsDecodedWord :
    State.reset.phase = .run ∧ formatRejected (fedState [0, 0x80] []) = false ∧
    (fedState [0, 0x80] []).haveByte = false ∧
    (fedState [0, 0x80] []).input = .byte 0 :: .byte 0x80 :: [] ∧
    (fedState (encodeBytes (.timeHigh 0)) [.eof]).input = (encodeBytes (.timeHigh 0)).map ByteToken.byte ++ [.eof] := by decide

theorem witness_StepRunsDecodedWord_held :
    ({ fedState [0x80] [] with haveByte := true }).phase = .run ∧
    ({ fedState [0x80] [] with haveByte := true }).haveByte = true ∧
    ({ fedState [0x80] [] with haveByte := true }).input = [.byte 0x80] := by decide

theorem witness_PlacedWordIsTheNextStep :
    State.reset.phase = .run := rfl

theorem witness_CleanEndFinishesTheSession :
    (fedState [] [.eof]).phase = .run ∧ formatRejected (fedState [] [.eof]) = false ∧
    (fedState [] [.eof]).haveByte = false ∧
    (fedState [] [.eof]).input = .eof :: [] := by decide

theorem witness_OddByteIsTruncation :
    ({ fedState [] [.eof] with haveByte := true }).phase = .run ∧
    ({ fedState [] [.eof] with haveByte := true }).haveByte = true ∧
    ({ fedState [] [.eof] with haveByte := true }).input = .eof :: [] := by decide

theorem witness_SourceFailureIsIoError :
    (fedState [] [.ioFail 9]).phase = .run ∧ formatRejected (fedState [] [.ioFail 9]) = false ∧
    formatRejected { fedState [] [.ioFail 9] with haveByte := true } = false ∧
    (fedState [] [.ioFail 9]).input = .ioFail 9 :: [] := by decide

theorem witness_RejectedFormatFaultsAtStart :
    State.reset.phase = .run ∧ State.reset.wordIndex = 0 ∧ State.reset.haveByte = false ∧
    ({ State.reset with headerVerdict := .unsupported }).headerVerdict = .unsupported := by decide

theorem witness_NothingHappensOutsideRun :
    ({ State.reset with phase := .done }).phase ≠ .run ∧
    ({ State.reset with phase := .fault }).phase ≠ .run := by decide

theorem witness_SilentSourceWaits :
    State.reset.phase = .run ∧ formatRejected State.reset = false ∧ State.reset.input = [] ∧
    (fedState [7] []).haveByte = false ∧ (fedState [7] []).input = [.byte 7] := by decide

theorem witness_StreamRunsItsWords :
    (fedState [0, 0x80, 5, 0] [.eof]).phase = .run ∧ (fedState [0, 0x80, 5, 0] [.eof]).haveByte = false ∧
    (fedState [0, 0x80, 5, 0] [.eof]).headerVerdict = .ok ∧
    (fedState [0, 0x80, 5, 0] [.eof]).input = wordTokens [0x8000, 0x0005] ++ [.eof] := by decide

theorem witness_SessionReachesItsEnd :
    (fedState [0, 0x80, 5] [.eof]).phase = .run ∧ (fedState [0, 0x80, 5] [.eof]).haveByte = false ∧
    (fedState [0, 0x80, 5] [.eof]).headerVerdict = .ok ∧ (fedState [0, 0x80, 5] [.eof]).errKind = .none ∧
    (fedState [0, 0x80, 5] [.eof]).input = ([0, 0x80, 5] : List Byte).map ByteToken.byte ++ [.eof] ∧
    cdRoomFor (12 * (3 / 2)) (fedState [0, 0x80, 5] [.eof]) ∧ trigRoomFor (3 / 2) (fedState [0, 0x80, 5] [.eof]) ∧
    3 % 2 = 1 ∧ cdRoomFor (12 * (2 / 2)) (fedState [0, 0x80] [.eof]) ∧ 2 % 2 = 0 := by
  unfold cdRoomFor trigRoomFor
  decide

theorem witness_wordsInRun :
    primedState.phase = .run ∧ primedState.haveY = true ∧ primedState.haveTimeHigh = true := by decide

theorem witness_AddrXEmitsOneEvent :
    (primedState.cdLen = primedState.cdCap → cdMayGrow primedState) ∧
    fullState.phase = .run ∧ fullState.haveY = true ∧ fullState.haveTimeHigh = true ∧
    fullState.cdLen = fullState.cdCap ∧
    (fullState.cdLen = fullState.cdCap → cdMayGrow fullState) ∧
    State.reset.haveY = false ∧
    ({ primedState with haveTimeHigh := false }).haveTimeHigh = false :=
  ⟨fun h => absurd h (by decide), rfl, rfl, rfl, rfl, fun _ => cdMayGrow_fullState, rfl, rfl⟩

/-- Both flags, and one element in each buffer whose timestamp 10 is above `now()` = 0. -/
def lateState : State :=
  { primedState with cdLen := 1, trigLen := 1, mem := { Memory.empty with cdT := [(0, 10)], trT := [(0, 10)] } }

/-- The last elements that the append statements' inner premises speak of, with and without a late timestamp. -/
theorem witness_lastTimestamp :
    colRead lateState.mem.cdT (lateState.cdLen - 1).toNat = some 10 ∧
    colRead lateState.mem.trT (lateState.trigLen - 1).toNat = some 10 ∧ now lateState = 0 ∧
    (lateState.cdLen = lateState.cdCap → cdMayGrow lateState) ∧ trigTakes lateState :=
  ⟨rfl, rfl, rfl, fun h => absurd h (by decide), fun h => absurd h (by decide)⟩

-- R200, D-B4: 0 < 10
theorem test_addrX_out_of_order : afterWord 0x2001 lateState State.outOfOrderEvents = some 1 := by decide
-- R201: 0 < 10
theorem test_extTrigger_out_of_order : afterWord 0xA001 lateState State.outOfOrderEvents = some 1 := by decide

theorem witness_AddrXMemoryFrame :
    ∃ t, exec (.addrX 1 2047) primedState = .next t := ⟨_, rfl⟩

theorem witness_AddrXDropCounts :
    State.reset.phase = .run ∧ State.reset.haveY = false ∧
    ({ State.reset with haveY := true }).haveY = true ∧
    ({ State.reset with haveY := true }).haveTimeHigh = false := by decide

/-- A CD buffer with two places, one of them used. -/
def nearlyFullState : State := { primedState with cdLen := 1, cdCap := 2 }

/-- One emitting lane fits with no growth in the last free place, and none fits in a full buffer, whatever the limit. -/
theorem witness_VectorWordAppendsItsLanes :
    cdTakes (emittingLanes (0xFFF : BitVec 12) primedState.baseX).length primedState ∧
    cdTakes (emittingLanes (0b100 : BitVec 12) nearlyFullState.baseX).length nearlyFullState ∧
    cdTakes (emittingLanes (0b100 : BitVec 8) nearlyFullState.baseX).length nearlyFullState ∧
    cdTakes (emittingLanes (0 : BitVec 12) fullState.baseX).length fullState ∧
    (emittingLanes (0b101 : BitVec 12) 2046)[0]? = some 0 ∧
    (emittingLanes (0b10000001 : BitVec 8) 10)[1]? = some 7 := by
  refine ⟨.inl ?_, .inl ?_, .inl ?_, .inl ?_, by decide, by decide⟩ <;> (unfold cdRoomFor; decide)

/-- A CD buffer of twelve elements, full, which takes a vector word by one growth. -/
theorem witness_VectorWordAppendsItsLanes_growth :
    cdTakes (emittingLanes (0xFFF : BitVec 12) 0).length { primedState with cdLen := 12, cdCap := 12 } ∧
    cdTakes (emittingLanes (0xFF : BitVec 8) 0).length { primedState with cdLen := 12, cdCap := 12 } := by
  have h : cdMayGrow { primedState with cdLen := 12, cdCap := 12 } := by
    intro m hm
    simp only [Config.cdCapMax, Option.map_eq_some_iff] at hm
    obtain ⟨a, -, rfl⟩ := hm
    exact (by decide : 24 ≤ 65536).trans (le_max_left _ _)
  exact ⟨.inr ⟨by decide, by decide, by decide, h⟩, .inr ⟨by decide, by decide, by decide, h⟩⟩

theorem witness_VectorWordMemoryFrame :
    (∃ t, exec (.vect12 0x801) primedState = .next t) ∧ (∃ t, exec (.vect8 0 0x81) primedState = .next t) ∧
    primedState.cdLen.toNat + 12 < 2 ^ 64 := ⟨⟨_, rfl⟩, ⟨_, rfl⟩, by decide⟩

theorem witness_VectorWordsNotPrimed :
    State.reset.haveY = false ∧ ({ State.reset with haveY := true }).haveTimeHigh = false := by decide

theorem witness_VectorPastTheLastColumn :
    ({ State.reset with baseX := 2048 }).phase = .run ∧
    2048 ≤ ({ State.reset with baseX := 2048 }).baseX.toNat := by decide

theorem witness_ConsecutiveVectorsContinue :
    ∃ t, execAll ([VectorWord.twelve 0x001, .eight 0 0x81, .twelve 0xFFF].map VectorWord.instr) primedState = .next t := ⟨_, rfl⟩

theorem witness_ReconstructCases :
    (0xFFF : BitVec 16).toNat < 4096 ∧ (0xFFF : BitVec 16).toNat ≤ (0xFFF : BitVec 16).toNat ∧
    (0x800 : BitVec 16).toNat < (0xFFF : BitVec 16).toNat ∧
    (0xFFF : BitVec 16).toNat - (0x800 : BitVec 16).toNat < 2048 ∧
    (0x7FF : BitVec 16).toNat < (0xFFF : BitVec 16).toNat ∧
    2048 ≤ (0xFFF : BitVec 16).toNat - (0x7FF : BitVec 16).toNat := by decide

theorem witness_NowCountsMicroseconds :
    ({ State.reset with timeLow := 4095 }).timeLow.toNat < 4096 := by decide

theorem witness_WraparoundDeterminism :
    ∃ t, execAll [.timeHigh 0xFFF, .addrY 0 5, .timeHigh 0] State.reset = .next t ∧ t.phase = .run := ⟨_, rfl, rfl⟩

theorem witness_ExtTriggerRecordsAnEdge :
    fullState.phase = .run ∧ fullState.haveTimeHigh = true ∧ fullState.trigLen = fullState.trigCap ∧
    trigTakes fullState ∧
    trigTakes primedState ∧
    State.reset.haveTimeHigh = false :=
  ⟨rfl, rfl, rfl, fun _ => trigMayGrow_fullState, fun h => absurd h (by decide), rfl⟩

theorem witness_ExtTriggerMemoryFrame :
    ∃ t, exec (.extTrigger 15 0 1) primedState = .next t := ⟨_, rfl⟩

theorem witness_ReservedCodeRaises :
    Instr.reservedF 0x123 ∈ [Instr.reserved1 0x123, .reserved7 0x123, .reserved9 0x123, .reservedB 0x123, .reservedC 0x123,
      .reservedD 0x123, .reservedE 0x123, .reservedF 0x123] := by decide

theorem witness_IgnorableCodeIsCounted :
    State.reset.phase = .run ∧ (7 : TypeCode) ∈ [7, 0xE, (0xF : TypeCode)] := by decide

theorem witness_AppendsStoreAndCount :
    ({ State.reset with cdLen := 65535 }).cdLen ≠ ({ State.reset with cdLen := 65535 }).cdCap ∧
    State.reset.trigLen ≠ State.reset.trigCap := by decide

theorem witness_FullBufferDoublesOrStops :
    fullState.cdLen = fullState.cdCap ∧ fullState.trigLen = fullState.trigCap ∧
    (∀ m, some 2 = some m → fullState.cdCap.toNat * 2 ≤ m) ∧
    (∀ m, some 2 = some m → fullState.trigCap.toNat * 2 ≤ m) := by
  refine ⟨rfl, rfl, ?_, ?_⟩ <;> rintro m ⟨⟩ <;> decide

theorem witness_EveryWordCompletes :
    State.reset.phase = .run ∧ typeCode (.timeHigh 1) ∉ [0x2, 0x4, 0x5, (0xA : TypeCode)] ∧
    (fullState.haveY = true → fullState.haveTimeHigh = true → fullState.cdLen = fullState.cdCap → cdMayGrow fullState) ∧
    (nearlyFullState.haveY = true → nearlyFullState.haveTimeHigh = true →
      cdTakes (emittingLanes (0b100 : BitVec 12) nearlyFullState.baseX).length nearlyFullState) ∧
    (nearlyFullState.haveY = true → nearlyFullState.haveTimeHigh = true →
      cdTakes (emittingLanes (0b100 : BitVec 8) nearlyFullState.baseX).length nearlyFullState) ∧
    (fullState.haveTimeHigh = true → trigTakes fullState) :=
  ⟨rfl, by decide, fun _ _ _ => cdMayGrow_fullState, fun _ _ => witness_VectorWordAppendsItsLanes.2.1,
    fun _ _ => witness_VectorWordAppendsItsLanes.2.2.1, fun _ _ => trigMayGrow_fullState⟩

theorem witness_WordsStopOnlyOnAFullBuffer :
    ({ State.reset with phase := .done }).phase ≠ .run ∧ State.reset.haveTimeHigh = false ∧
    (State.reset.haveY = false ∧ typeCode (.vect12 1) ≠ 0xA) ∧
    typeCode (.timeHigh 1) ∉ [0x2, 0x4, 0x5, (0xA : TypeCode)] ∧
    ({ primedState with cdLen := 12, cdCap := 12 }).cdLen.toNat ≤ ({ primedState with cdLen := 12, cdCap := 12 }).cdCap.toNat ∧
    12 ≤ ({ primedState with cdLen := 12, cdCap := 12 }).cdCap.toNat ∧
    ({ primedState with cdLen := 8, cdCap := 8 }).cdLen.toNat ≤ ({ primedState with cdLen := 8, cdCap := 8 }).cdCap.toNat ∧
    8 ≤ ({ primedState with cdLen := 8, cdCap := 8 }).cdCap.toNat := by decide

/-- Clause by clause at the boundary: the vector word's stop condition on the buffer can be met and missed. -/
theorem witness_vectorStopBoundary :
    ({ primedState with cdLen := 11, cdCap := 12 }).cdCap.toNat <
      ({ primedState with cdLen := 11, cdCap := 12 }).cdLen.toNat + (emittingLanes (0b11 : BitVec 12) 0).length ∧
    ¬ ({ primedState with cdLen := 11, cdCap := 12 }).cdCap.toNat <
      ({ primedState with cdLen := 11, cdCap := 12 }).cdLen.toNat + (emittingLanes (0b11 : BitVec 12) 2047).length := by
  decide

theorem witness_stepsOfASession :
    (∃ t, step (fedState [0, 0x80] [.eof]) = .next t) ∧ (fedState [0, 0x80] [.eof]).cdLen.toNat + 12 < 2 ^ 64 ∧
    (fedState [0, 0x80] [.eof]).trigLen.toNat + 1 < 2 ^ 64 ∧ (fedState [0, 0x80] [.eof]).mem.wf = true ∧
    Feasible (fedState [0, 0x80] [.eof]) ∧ OutOfOrderBounded (fedState [0, 0x80] [.eof]) := by
  refine ⟨⟨_, rfl⟩, by decide, by decide, by decide, ?_, ?_⟩
  · unfold Feasible
    decide
  · unfold OutOfOrderBounded
    decide

theorem witness_StepsKeepInvariants : StateInv (fedState [0, 0x80] [.eof]) := by
  constructor <;> first | decide | exact ⟨0, rfl⟩ | rfl

theorem witness_FlagsAreSetOnceAndKept :
    (∃ t, step primedState = .next t) ∧ primedState.haveY = true ∧ primedState.haveTimeHigh = true ∧
    (∃ t, exec (.addrY 0 5) State.reset = .next t) := ⟨⟨_, rfl⟩, rfl, rfl, ⟨_, rfl⟩⟩

theorem witness_WordIndexCountsWords :
    (∃ t, exec (.addrY 0 5) State.reset = .next t ∧ t.phase = .run) ∧
    (∃ t, exec (.reserved7 0) State.reset = .next t ∧ t.phase = .fault) := ⟨⟨_, rfl, rfl⟩, ⟨_, rfl, rfl⟩⟩

theorem witness_OnlyCleanEndFinishes :
    ∃ t, (fedState [] [.eof]).phase = .run ∧ step (fedState [] [.eof]) = .next t ∧
    t.phase = .done := ⟨_, rfl, rfl, rfl⟩

theorem witness_FaultsArePrecise :
    ∃ t, (fedState [0, 0x70] []).phase = .run ∧ step (fedState [0, 0x70] []) = .next t ∧
    t.phase = .fault := ⟨_, rfl, rfl, rfl⟩

theorem witness_HeaderLinesAreConsumed :
    (0x80 : Byte) ≠ 0x25 ∧ (0x0A : Byte) ∉ ([0x20, 0x78] : List Byte) := by decide

theorem witness_EmptyInputGivesEmptyResult :
    (skipHeader false []).2 = [] ∧ headerReport [] = .ok := ⟨rfl, rfl⟩

theorem witness_StepsFoldTheWordPort :
    (fedState [0, 0x80, 5] [.eof]).phase = .run ∧ (fedState [0, 0x80, 5] [.eof]).headerVerdict = .ok ∧
    ({ fedState [0x80] [.eof] with haveByte := true }).headerVerdict = .ok ∧
    ∃ t, runTokens [.endOfStream] State.reset = .next t ∧ t.phase ≠ .run := ⟨rfl, rfl, rfl, _, rfl, by decide⟩

end Sys2Proof.Tests
end

section
/-! PROOFS. The statements of 00_scope.md: the invariants of 10_state.md R44 and the bound of 45_buffers.md R209 along
the steps of a feasible session, the elements a step or a vector word leaves alone, and the words that complete. -/

namespace Sys2Proof.Machine

/-! ## Operand ranges (30_encoding.md R101) -/

theorem toNat_setWidth_lt {n : Nat} (m : Nat) (v : BitVec n) : (v.setWidth m).toNat < 2 ^ n := by
  rw [BitVec.toNat_setWidth]
  exact (Nat.mod_le _ _).trans_lt v.isLt

theorem coordOperand_lt (v : BitVec 11) : (coordOperand v).toNat < 2048 := toNat_setWidth_lt 16 v

theorem polarityOperand_lt (p : BitVec 1) : (polarityOperand p).toNat < 2 := toNat_setWidth_lt 8 p

theorem timeOperand_lt (t : BitVec 12) : (timeOperand t).toNat < 4096 := toNat_setWidth_lt 16 t

theorem idOperand_lt (id : BitVec 4) : (idOperand id).toNat < 16 := toNat_setWidth_lt 8 id

theorem valueOperand_lt (v : BitVec 1) : (valueOperand v).toNat < 2 := toNat_setWidth_lt 8 v

/-! ## The invariants of R44 along a step -/

theorem stateInv_withIngress (b : Byte) (f : Bool) (r : List ByteToken) (v : HeaderVerdict) {s : State}
    (h : StateInv s) : StateInv (withIngress b f r v s) := { h with }

theorem stateInv_advanceWord {s : State} (h : StateInv s) : StateInv (advanceWord s) := { h with }

theorem stateInv_advanceBase (n : Nat) {s : State} (h : StateInv s) : StateInv (advanceBase n s) := { h with }

/-- A clean end keeps the invariants: in `RUN` no fault is recorded, and in `DONE` none need be. -/
theorem stateInv_endSession {s : State} (hrun : s.phase = .run) (h : StateInv s) : StateInv (endSession s) :=
  have hnone : s.errKind = .none := by simpa [hrun] using h.faultRecord
  { h with faultRecord := by simp [hnone] }

/-- Every word in `RUN` keeps the invariants. TIME_HIGH makes (e) true whatever the registers held (R172); an emission
stores operands within the ranges of (g) and (h). -/
theorem stateInv_wordEffect {i : Instr} {s t : State} (he : WordEffect i s t) (h : StateInv s) (hf : Feasible s) :
    StateInv t := by
  obtain ⟨hcd, htrig⟩ := hf
  cases he with
  | addrY orig y => exact { h with curY := coordOperand_lt y }
  | addrX p x _ u hu =>
    exact stateInv_advanceWord (stateInv_emitCd hu h (by omega) (coordOperand_lt x) (polarityOperand_lt p))
  | vectBaseX p x => exact { h with vectPolarity := polarityOperand_lt p }
  | vect12 mask _ u hu => exact stateInv_advanceWord (stateInv_advanceBase 12 (stateInv_expandLanes hu h hcd (by simp)))
  | vect8 ign mask _ u hu =>
    exact stateInv_advanceWord (stateInv_advanceBase 8 (stateInv_expandLanes hu h hcd (by simp)))
  | timeLow t => exact { h with timeLow := timeOperand_lt t }
  | timeHigh t => exact { h with lastPayload := timeOperand_lt t, timeHigh := fun _ => rfl }
  | extTrigger id pad v _ u hu =>
    exact stateInv_advanceWord (stateInv_emitTrig hu h (by omega) (idOperand_lt id) (valueOperand_lt v))
  | reserved => exact stateInv_raise _ h

/-- Settles O53, by the cases of a step: the ingress stage, a word, the end, fault entry. -/
theorem stepsKeepInvariants : Obligations.StepsKeepInvariants := by
  intro s t h hf ht
  exact step_to ht (fun _ => h) (fun b f r _ => stateInv_withIngress b f r _ h)
    (fun b f r i u hrun hu =>
      stateInv_wordEffect (exec_effect (s := withIngress b f r _ s) hrun hu) (stateInv_withIngress b f r _ h) hf)
    (fun b f r hrun => stateInv_endSession hrun (stateInv_withIngress b f r _ h))
    (fun e b f r _ => stateInv_raise e (stateInv_withIngress b f r _ h))

/-! ## The bound of R209 along a step -/

/-- A counter advanced by one, modulo its width, is no more than one higher. -/
theorem toNat_add_one_le (n : BitVec 64) : (n + 1).toNat ≤ n.toNat + 1 := by
  rw [BitVec.toNat_add]
  exact Nat.mod_le _ _

/-- An append counts at most one event, and only on a buffer that is not empty (decision D16), where the bound rises by
one with the length. -/
theorem outOfOrderBounded_emitCd {x : BitVec 16} {p : BitVec 8} {s u : State} (h : emitCd x p s = some u)
    (hb : OutOfOrderBounded s) (hl : s.cdLen.toNat + 1 < 2 ^ 64) : OutOfOrderBounded u := by
  rcases emitCd_some h with ⟨-, rfl⟩ | ⟨-, -, rfl⟩ | ⟨-, -, ha⟩
  · exact hb
  · exact hb
  · obtain ⟨c, -, rfl⟩ := appendCdUnder_some ha
    unfold OutOfOrderBounded at hb
    rcases noteCdOrder_cases (now s) (setCdCap c s) with ⟨hn, -⟩ | ⟨hn, hne, -⟩ <;> rw [hn]
    · change s.outOfOrderEvents.toNat ≤ ((s.cdLen + 1).toNat - 1) + (s.trigLen.toNat - 1)
      rw [toNat_add_one hl]
      omega
    · have hpos : s.cdLen.toNat ≠ 0 := fun e => hne (BitVec.eq_of_toNat_eq e)
      have hcount := toNat_add_one_le s.outOfOrderEvents
      change (s.outOfOrderEvents + 1).toNat ≤ ((s.cdLen + 1).toNat - 1) + (s.trigLen.toNat - 1)
      rw [toNat_add_one hl]
      omega

theorem outOfOrderBounded_emitTrig {i v : BitVec 8} {s u : State} (h : emitTrig i v s = some u)
    (hb : OutOfOrderBounded s) (hl : s.trigLen.toNat + 1 < 2 ^ 64) : OutOfOrderBounded u := by
  rcases emitTrig_some h with ⟨-, rfl⟩ | ⟨-, ha⟩
  · exact hb
  · obtain ⟨c, -, rfl⟩ := appendTrigUnder_some ha
    unfold OutOfOrderBounded at hb
    rcases noteTrigOrder_cases (now s) (setTrigCap c s) with ⟨hn, -⟩ | ⟨hn, hne, -⟩ <;> rw [hn]
    · change s.outOfOrderEvents.toNat ≤ (s.cdLen.toNat - 1) + ((s.trigLen + 1).toNat - 1)
      rw [toNat_add_one hl]
      omega
    · have hpos : s.trigLen.toNat ≠ 0 := fun e => hne (BitVec.eq_of_toNat_eq e)
      have hcount := toNat_add_one_le s.outOfOrderEvents
      change (s.outOfOrderEvents + 1).toNat ≤ (s.cdLen.toNat - 1) + ((s.trigLen + 1).toNat - 1)
      rw [toNat_add_one hl]
      omega

/-- The lanes of a word keep the bound: one emission after another, each adding at most one to the length. -/
theorem outOfOrderBounded_expandLanes {n : Nat} {mask : BitVec n} {ks : List Nat} {s u : State}
    (h : expandLanes mask ks s = some u) (hb : OutOfOrderBounded s) (hl : s.cdLen.toNat + ks.length < 2 ^ 64) :
    OutOfOrderBounded u := by
  have key := expandLanes_induction (mask := mask)
    (fun m v => m ≤ ks.length → OutOfOrderBounded v ∧ v.cdLen.toNat ≤ s.cdLen.toNat + m)
    (fun m v hv hm => ⟨(hv (by omega)).1, by have := (hv (by omega)).2; omega⟩)
    (fun m k v w hv _ he hm => by
      obtain ⟨hbv, hlen⟩ := hv (by omega)
      have hle := (emitCd_cdLen_le he (by omega)).2
      exact ⟨outOfOrderBounded_emitCd he hbv (by omega), by omega⟩)
    ks 0 s u (fun _ => ⟨hb, le_refl _⟩) h
  exact (key (by omega)).1

/-- Every word in `RUN` keeps the bound: only an emission counts, and only an emission changes a length. -/
theorem outOfOrderBounded_wordEffect {i : Instr} {s t : State} (he : WordEffect i s t) (hb : OutOfOrderBounded s)
    (hf : Feasible s) : OutOfOrderBounded t := by
  obtain ⟨hcd, htrig⟩ := hf
  cases he with
  | addrY | vectBaseX | timeLow | timeHigh | reserved => exact hb
  | addrX p x _ u hu => exact (outOfOrderBounded_emitCd hu hb (by omega) :)
  | vect12 mask _ u hu => exact (outOfOrderBounded_expandLanes hu hb (by simp only [List.length_range]; omega) :)
  | vect8 ign mask _ u hu => exact (outOfOrderBounded_expandLanes hu hb (by simp only [List.length_range]; omega) :)
  | extTrigger id pad v _ u hu => exact (outOfOrderBounded_emitTrig hu hb (by omega) :)

/-- Settles O54, by the cases of a step: all but a word leave the counter and both lengths alone. -/
theorem stepsKeepOutOfOrderBound : Obligations.StepsKeepOutOfOrderBound := by
  intro s t hb hf ht
  exact step_to ht (fun _ => hb) (fun _ _ _ _ => hb)
    (fun b f r i u hrun hu => outOfOrderBounded_wordEffect (exec_effect (s := withIngress b f r _ s) hrun hu) hb hf)
    (fun _ _ _ _ => hb) (fun _ _ _ _ _ => hb)

/-! ## The elements a vector word leaves alone -/

/-- A completed expansion of either width stores to the CD columns only, from `cd_len` up to the emitting lanes. -/
theorem wordRuleOrStuck_expand_reads {n : Nat} {mask : BitVec n} {k : Fault} {s t : State}
    (hl : s.cdLen.toNat + n < 2 ^ 64) (ht : wordRuleOrStuck k (expand mask) s = .next t) :
    (∀ i, i < cdSlot s ∨ cdSlot s + (emittingLanes mask s.baseX).length ≤ i →
      colRead t.mem.cdX i = colRead s.mem.cdX i ∧ colRead t.mem.cdY i = colRead s.mem.cdY i ∧
      colRead t.mem.cdP i = colRead s.mem.cdP i ∧ colRead t.mem.cdT i = colRead s.mem.cdT i) ∧
    t.mem.trT = s.mem.trT ∧ t.mem.trId = s.mem.trId ∧ t.mem.trV = s.mem.trV := by
  by_cases hrun : s.phase = .run
  · obtain ⟨u, hu, rfl⟩ := wordRuleOrStuck_next hrun ht
    obtain ⟨v, hv, rfl⟩ := expand_some hu
    have hframe := congrArg State.mem (expandLanes_frame hv)
    refine ⟨(expandLanes_reads mask _ s v (by simpa using hl) hv).2, ?_, ?_, ?_⟩ <;>
      simp only [advanceWord_mem, advanceBase_mem] <;> rw [hframe]
  · rw [wordRuleOrStuck_idle hrun] at ht
    cases ht
    simp

/-- Settles O26: both vector words are the one expansion, at their widths. -/
theorem vectorWordMemoryFrame : Obligations.VectorWordMemoryFrame :=
  ⟨fun _ _ _ hl ht => wordRuleOrStuck_expand_reads hl ht, fun _ _ _ _ hl ht => wordRuleOrStuck_expand_reads hl ht⟩

/-! ## Elements are written once (20_memory.md R69) -/

/-- From `s` to `t` no length decreases and every element below a length of `s` is kept. -/
structure ElementsKept (s t : State) : Prop where
  cdLen : s.cdLen.toNat ≤ t.cdLen.toNat
  trigLen : s.trigLen.toNat ≤ t.trigLen.toNat
  cdElements : ∀ i, i < s.cdLen.toNat →
    colRead t.mem.cdX i = colRead s.mem.cdX i ∧ colRead t.mem.cdY i = colRead s.mem.cdY i ∧
    colRead t.mem.cdP i = colRead s.mem.cdP i ∧ colRead t.mem.cdT i = colRead s.mem.cdT i
  trigElements : ∀ i, i < s.trigLen.toNat →
    colRead t.mem.trT i = colRead s.mem.trT i ∧ colRead t.mem.trId i = colRead s.mem.trId i ∧
    colRead t.mem.trV i = colRead s.mem.trV i

/-- An update of neither a column nor a length keeps every element. -/
theorem elementsKept_of_eq {s t : State} (hm : t.mem = s.mem) (hc : t.cdLen = s.cdLen) (ht : t.trigLen = s.trigLen) :
    ElementsKept s t where
  cdLen := by rw [hc]
  trigLen := by rw [ht]
  cdElements := by simp [hm]
  trigElements := by simp [hm]

theorem elementsKept_emitCd {x : BitVec 16} {p : BitVec 8} {s u : State} (h : emitCd x p s = some u)
    (hl : s.cdLen.toNat + 1 < 2 ^ 64) : ElementsKept s u where
  cdLen := (emitCd_cdLen_le h hl).1
  trigLen := by rw [emitCd_frame h]
  cdElements := fun _ hi => emitCd_reads h (Nat.ne_of_lt hi)
  trigElements := fun _ _ => by rw [emitCd_frame h]; exact ⟨rfl, rfl, rfl⟩

theorem elementsKept_expandLanes {n : Nat} {mask : BitVec n} {ks : List Nat} {s u : State}
    (h : expandLanes mask ks s = some u) (hl : s.cdLen.toNat + ks.length < 2 ^ 64) : ElementsKept s u :=
  have hreads := expandLanes_reads mask ks s u hl h
  { cdLen := hreads.1.1
    trigLen := by rw [expandLanes_frame h]
    cdElements := fun i hi => hreads.2 i (.inl hi)
    trigElements := fun _ _ => by rw [expandLanes_frame h]; exact ⟨rfl, rfl, rfl⟩ }

theorem elementsKept_emitTrig {i v : BitVec 8} {s u : State} (h : emitTrig i v s = some u)
    (hl : s.trigLen.toNat + 1 < 2 ^ 64) : ElementsKept s u := by
  rcases emitTrig_some h with ⟨-, rfl⟩ | ⟨-, ha⟩
  · exact elementsKept_of_eq rfl rfl rfl
  · obtain ⟨hT, hId, hV⟩ := appendTrigUnder_reads ha
    obtain ⟨c, -, hu⟩ := appendTrigUnder_some ha
    have hlen : u.trigLen = s.trigLen + 1 := by rw [hu, noteTrigOrder_eq]; rfl
    exact
      { cdLen := by rw [emitTrig_frame h]
        trigLen := by rw [hlen, toNat_add_one hl]; omega
        cdElements := fun _ _ => by rw [emitTrig_frame h]; exact ⟨rfl, rfl, rfl, rfl⟩
        trigElements := fun j hj => by simp [hT, hId, hV, trigSlot, Nat.ne_of_lt hj] }

/-- Every word in `RUN` keeps the elements below the lengths. -/
theorem elementsKept_wordEffect {i : Instr} {s t : State} (he : WordEffect i s t)
    (hcd : s.cdLen.toNat + 12 < 2 ^ 64) (htrig : s.trigLen.toNat + 1 < 2 ^ 64) : ElementsKept s t := by
  cases he with
  | addrY | vectBaseX | timeLow | timeHigh | reserved => exact elementsKept_of_eq rfl rfl rfl
  | addrX p x _ u hu => exact { elementsKept_emitCd hu (by omega) with }
  | vect12 mask _ u hu => exact { elementsKept_expandLanes hu (by simpa using hcd) with }
  | vect8 ign mask _ u hu => exact { elementsKept_expandLanes hu (by simp only [List.length_range]; omega) with }
  | extTrigger id pad v _ u hu => exact { elementsKept_emitTrig hu htrig with }

/-- Settles O44, by the cases of a step: only a word changes a column or a length. -/
theorem elementsAreWrittenOnce : Obligations.ElementsAreWrittenOnce := by
  intro s t hcd htrig ht
  have h : ElementsKept s t :=
    step_to ht (fun _ => elementsKept_of_eq rfl rfl rfl) (fun _ _ _ _ => elementsKept_of_eq rfl rfl rfl)
      (fun b f r i u hrun hu =>
        { elementsKept_wordEffect (exec_effect (s := withIngress b f r _ s) hrun hu) hcd htrig with })
      (fun _ _ _ _ => elementsKept_of_eq rfl rfl rfl) (fun _ _ _ _ _ => elementsKept_of_eq rfl rfl rfl)
  exact ⟨h.cdLen, h.trigLen, h.cdElements, h.trigElements⟩

/-! ## The words that complete (00_scope.md R12) -/

theorem wordRuleOrStuck_completes {k : Fault} {f : State → Option State} {s : State} (h : s.phase = .run)
    (hf : f s ≠ none) : ∃ t, wordRuleOrStuck k f s = .next t := by
  obtain ⟨u, hu⟩ := Option.ne_none_iff_exists'.1 hf
  exact ⟨_, wordRuleOrStuck_run_some h hu⟩

/-- ADDR_X's emission is not stuck where a full buffer may grow, if the gates are open. -/
theorem emitCd_ne_none (x : BitVec 16) (p : BitVec 8) {s : State}
    (h : s.haveY = true → s.haveTimeHigh = true → s.cdLen = s.cdCap → cdMayGrow s) : emitCd x p s ≠ none := by
  intro hn
  obtain ⟨hy, ht, hfull, m, hm, hlt⟩ := (emitCd_none_iff x p s).1 hn
  exact absurd (h hy ht hfull m hm) (by omega)

/-- EXT_TRIGGER's emission is not stuck where the trigger buffer takes one more, if the gate is open. -/
theorem emitTrig_ne_none (i v : BitVec 8) {s : State} (h : s.haveTimeHigh = true → trigTakes s) :
    emitTrig i v s ≠ none := by
  intro hn
  obtain ⟨ht, hfull, m, hm, hlt⟩ := (emitTrig_none_iff i v s).1 hn
  exact absurd (h ht hfull m hm) (by omega)

/-- An expansion is not stuck where the buffer takes its emitting lanes, if the gates are open; with a gate closed it
stores nothing. -/
theorem expand_ne_none {n : Nat} (mask : BitVec n) {s : State}
    (h : s.haveY = true → s.haveTimeHigh = true → cdTakes (emittingLanes mask s.baseX).length s) :
    expand mask s ≠ none := by
  suffices hu : ∃ u, expandLanes mask (List.range n) s = some u by
    obtain ⟨u, hu⟩ := hu
    simp [expand_of hu]
  cases hy : s.haveY with
  | false => exact ⟨_, expandLanes_noY mask _ s hy⟩
  | true =>
    cases ht : s.haveTimeHigh with
    | false => exact ⟨_, expandLanes_noTimeHigh mask _ hy ht⟩
    | true =>
      obtain ⟨u, hu, -⟩ := expandLanes_primed mask (List.range n) s hy ht (h hy ht)
      exact ⟨u, hu⟩

/-- The words that append nothing always complete; a reserved one by its fault entry. -/
theorem exec_completes_of_no_append {i : Instr} {s : State} (h : s.phase = .run)
    (hi : typeCode i ∉ [0x2, 0x4, 0x5, (0xA : TypeCode)]) : ∃ t, exec i s = .next t := by
  cases i with
  | addrX | vect12 | vect8 | extTrigger => simp [typeCode] at hi
  | addrY | vectBaseX | timeLow | timeHigh =>
    simp [exec, execAddrY, execVectBaseX, execTimeLow, execTimeHigh, wordRule_run _ h]
  | reserved1 | reserved7 | reserved9 | reservedB | reservedC | reservedD | reservedE | reservedF =>
    exact ⟨_, reservedWord_raises _ h⟩

/-- Settles O42, by the four kinds of words: no append, one CD event, the lanes of a mask, one trigger. -/
theorem everyWordCompletes : Obligations.EveryWordCompletes :=
  ⟨fun _ _ hrun hi => exec_completes_of_no_append hrun hi,
    fun _ _ _ hrun h => wordRuleOrStuck_completes hrun (emitCd_ne_none _ _ h),
    fun mask _ hrun h => wordRuleOrStuck_completes hrun (expand_ne_none mask h),
    fun _ mask _ hrun h => wordRuleOrStuck_completes hrun (expand_ne_none mask h),
    fun _ _ _ _ hrun h => wordRuleOrStuck_completes hrun (emitTrig_ne_none _ _ h)⟩

end Sys2Proof.Machine
end

section
/-! PROOFS. The statements of 10_state.md: what a word stores to, where a word stops, the time registers along a list of
words, the flags, the position and the phase along a step, the sensor sizes, and the state after reset. -/

namespace Sys2Proof.Machine

/-! ## The elements ADDR_X and EXT_TRIGGER leave alone -/

/-- Settles O21: in `RUN` the word is one emission, which stores at `cd_len` only; outside `RUN` it
changes nothing. -/
theorem addrXMemoryFrame : Obligations.AddrXMemoryFrame := by
  intro p x s t ht
  by_cases hrun : s.phase = .run
  · obtain ⟨u, hu, rfl⟩ := wordRuleOrStuck_next hrun ht
    have hframe := congrArg State.mem (emitCd_frame hu)
    refine ⟨fun i hi => emitCd_reads hu hi, ?_, ?_, ?_⟩ <;> rw [advanceWord_mem, hframe]
  · rw [exec_idle _ hrun] at ht
    cases ht
    simp

/-- The elements the trigger path leaves alone: all but the one at `trig_len`. -/
theorem emitTrig_reads {i v : BitVec 8} {s u : State} (h : emitTrig i v s = some u) {j : Nat} (hj : j ≠ trigSlot s) :
    colRead u.mem.trT j = colRead s.mem.trT j ∧ colRead u.mem.trId j = colRead s.mem.trId j ∧
      colRead u.mem.trV j = colRead s.mem.trV j := by
  rcases emitTrig_some h with ⟨-, rfl⟩ | ⟨-, ha⟩
  · simp
  · obtain ⟨hT, hId, hV⟩ := appendTrigUnder_reads ha
    simp [hT, hId, hV, hj]

/-- Settles O36, as O21: the trigger path stores at `trig_len` only. -/
theorem extTriggerMemoryFrame : Obligations.ExtTriggerMemoryFrame := by
  intro id pad v s t ht
  by_cases hrun : s.phase = .run
  · obtain ⟨u, hu, rfl⟩ := wordRuleOrStuck_next hrun ht
    have hframe := congrArg State.mem (emitTrig_frame hu)
    refine ⟨fun i hi => emitTrig_reads hu hi, ?_, ?_, ?_, ?_⟩ <;> rw [advanceWord_mem, hframe]
  · rw [exec_idle _ hrun] at ht
    cases ht
    simp

/-! ## Where a word stops (45_buffers.md R205) -/

/-- A word rule stops only in `RUN`, where its effect is stuck, and by the name given to it. -/
theorem wordRuleOrStuck_fault_iff (k : Fault) (f : State → Option State) (s : State) (e : Fault) :
    wordRuleOrStuck k f s = .fault e ↔ e = k ∧ s.phase = .run ∧ f s = none := by
  by_cases hrun : s.phase = .run
  · cases hf : f s <;> simp [wordRuleOrStuck, hrun, hf, eq_comm]
  · simp [wordRuleOrStuck_idle hrun, hrun]

theorem expand_eq_none_iff {n : Nat} (mask : BitVec n) (s : State) :
    expand mask s = none ↔ expandLanes mask (List.range n) s = none := by
  unfold expand
  split <;> simp [*]

/-- An expansion can only be stuck in a decoder that is primed. -/
theorem primed_of_expand_none {n : Nat} {mask : BitVec n} {s : State} (h : expand mask s = none) :
    s.haveY = true ∧ s.haveTimeHigh = true := by
  by_contra hp
  exact expand_ne_none mask (fun hy ht => absurd ⟨hy, ht⟩ hp) h

/-- Within a capacity of at least the width, an expansion is stuck exactly where it is primed, more lanes emit than
there is room for, and doubling would pass the limit. -/
theorem expand_none_iff {n : Nat} (mask : BitVec n) {s : State} (hle : s.cdLen.toNat ≤ s.cdCap.toNat)
    (hn : n ≤ s.cdCap.toNat) :
    expand mask s = none ↔ s.haveY = true ∧ s.haveTimeHigh = true ∧
      s.cdCap.toNat < s.cdLen.toNat + (emittingLanes mask s.baseX).length ∧
      ∃ m, Config.cdCapMax = some m ∧ m < s.cdCap.toNat * 2 := by
  have hlanes := fun hy ht => expandLanes_none_iff mask (List.range n) s hy ht hle (by simpa using hn)
  rw [← expand_eq_none_iff] at hlanes
  constructor
  · intro h
    obtain ⟨hy, ht⟩ := primed_of_expand_none h
    exact ⟨hy, ht, (hlanes hy ht).1 h⟩
  · rintro ⟨hy, ht, h⟩
    exact (hlanes hy ht).2 h

/-- Whatever the buffers, a word that stops is in `RUN`, appends, and has the gates of its emission open. -/
theorem exec_fault_gates {i : Instr} {s : State} {f : Fault} (h : exec i s = .fault f) :
    s.phase = .run ∧ s.haveTimeHigh = true ∧ (s.haveY = true ∨ typeCode i = 0xA) ∧
      typeCode i ∈ [0x2, 0x4, 0x5, (0xA : TypeCode)] := by
  have hrun : s.phase = .run := by
    by_contra hrun
    simp [exec_idle i hrun] at h
  have happ : typeCode i ∈ [0x2, 0x4, 0x5, (0xA : TypeCode)] := by
    by_contra hi
    obtain ⟨t, ht⟩ := exec_completes_of_no_append hrun hi
    simp [ht] at h
  suffices hg : s.haveTimeHigh = true ∧ (s.haveY = true ∨ typeCode i = 0xA) from ⟨hrun, hg.1, hg.2, happ⟩
  cases i with
  | addrX =>
    obtain ⟨-, -, hn⟩ := (wordRuleOrStuck_fault_iff _ _ _ _).1 h
    obtain ⟨hy, ht, -⟩ := (emitCd_none_iff _ _ _).1 hn
    exact ⟨ht, .inl hy⟩
  | vect12 | vect8 =>
    obtain ⟨-, -, hn⟩ := (wordRuleOrStuck_fault_iff _ _ _ _).1 h
    obtain ⟨hy, ht⟩ := primed_of_expand_none hn
    exact ⟨ht, .inl hy⟩
  | extTrigger =>
    obtain ⟨-, -, hn⟩ := (wordRuleOrStuck_fault_iff _ _ _ _).1 h
    obtain ⟨ht, -⟩ := (emitTrig_none_iff _ _ _).1 hn
    exact ⟨ht, .inr rfl⟩
  | _ => simp [typeCode] at happ

/-- Settles O43: the four appending words stop where their emission is stuck, and no stop gets past the gates. -/
theorem wordsStopOnlyOnAFullBuffer : Obligations.WordsStopOnlyOnAFullBuffer := by
  refine ⟨fun p x s f => ?_, fun id pad v s f => ?_, fun mask s f hle hn => ?_, fun ign mask s f hle hn => ?_,
    fun i s f hgate h => ?_, exec_not_refused⟩
  · rw [← emitCd_none_iff]
    exact wordRuleOrStuck_fault_iff _ _ s f
  · rw [← emitTrig_none_iff]
    exact wordRuleOrStuck_fault_iff _ _ s f
  · rw [← expand_none_iff mask hle hn]
    exact wordRuleOrStuck_fault_iff _ _ s f
  · rw [← expand_none_iff mask hle hn]
    exact wordRuleOrStuck_fault_iff _ _ s f
  · obtain ⟨hrun, ht, hy, happ⟩ := exec_fault_gates h
    rcases hgate with hg | hg | ⟨hg, hcode⟩ | hg
    · exact hg hrun
    · simp [ht] at hg
    · exact hy.elim (by simp [hg]) hcode
    · exact hg happ

/-! ## The time registers along a list of words (43_time.md R175) -/

/-- A word that stays in `RUN` leaves the time registers the reconstructor gives on its own payload if it is a
TIME_HIGH, and as they were if it is not. -/
theorem timeRegs_wordEffect {i : Instr} {s t : State} (he : WordEffect i s t) (hrun : t.phase = .run) :
    timeRegs t = reconstructAll (timeHighPayloads [i]) (timeRegs s) := by
  cases he with
  | addrY | vectBaseX | timeLow | timeHigh => rfl
  | addrX _ _ _ u hu => rw [emitCd_frame hu]; rfl
  | vect12 _ _ u hu => rw [expandLanes_frame hu]; rfl
  | vect8 _ _ _ u hu => rw [expandLanes_frame hu]; rfl
  | extTrigger _ _ _ _ u hu => rw [emitTrig_frame hu]; rfl
  | reserved => cases hrun

theorem reconstructAll_timeHighPayloads_cons (i : Instr) (is : List Instr) (r : TimeRegs) :
    reconstructAll (timeHighPayloads (i :: is)) r =
      reconstructAll (timeHighPayloads is) (reconstructAll (timeHighPayloads [i]) r) := by
  cases i <;> rfl

/-- Settles O34, by induction over the words: as the last state is in `RUN`, every state before it is. -/
theorem wraparoundDeterminism : Obligations.WraparoundDeterminism := by
  intro is
  induction is with
  | nil =>
    intro s t h _
    cases h
    rfl
  | cons i is ih =>
    intro s t h hrun
    have hs : s.phase = .run := by
      by_contra hs
      rw [execAll_idle _ hs] at h
      cases h
      exact hs hrun
    simp only [execAll] at h
    split at h
    · next u hu =>
      have hurun : u.phase = .run := by
        by_contra hurun
        rw [execAll_idle _ hurun] at h
        cases h
        exact hurun hrun
      rw [ih u t h hrun, timeRegs_wordEffect (exec_effect hs hu) hurun, ← reconstructAll_timeHighPayloads_cons]
    · cases h
    · cases h

/-- Settles O33: the low time fills the twelve bits the high time leaves free. -/
theorem nowCountsMicroseconds : Obligations.NowCountsMicroseconds := fun _ h => ⟨now_toNat h, now_bound h⟩

/-! ## The flags, the position and the phase -/

/-- A word in `RUN` opens `have_y` exactly where it is an ADDR_Y, and `have_time_high` exactly where it is a
TIME_HIGH. -/
theorem flags_wordEffect {i : Instr} {s t : State} (he : WordEffect i s t) :
    (t.haveY = true ↔ s.haveY = true ∨ ∃ orig y, i = .addrY orig y) ∧
    (t.haveTimeHigh = true ↔ s.haveTimeHigh = true ∨ ∃ p, i = .timeHigh p) := by
  cases he with
  | addrY | vectBaseX | timeLow => simp
  | timeHigh => simp [takeTimeHigh]
  | addrX _ _ _ u hu => rw [emitCd_frame hu]; simp
  | vect12 _ _ u hu => rw [expandLanes_frame hu]; simp
  | vect8 _ _ _ u hu => rw [expandLanes_frame hu]; simp
  | extTrigger _ _ _ _ u hu => rw [emitTrig_frame hu]; simp
  | reserved _ _ hcode =>
    have hy : ¬ ∃ orig y, i = .addrY orig y := by
      rintro ⟨orig, y, rfl⟩
      simp [typeCode] at hcode
    have ht : ¬ ∃ p, i = .timeHigh p := by
      rintro ⟨p, rfl⟩
      simp [typeCode] at hcode
    simp [hy, ht, raise]

/-- Settles O45: only a word writes a flag, and a word only opens one. -/
theorem flagsAreSetOnceAndKept : Obligations.FlagsAreSetOnceAndKept := by
  refine ⟨rfl, rfl, fun s t ht => ?_, fun i s t hrun ht => flags_wordEffect (exec_effect hrun ht)⟩
  refine step_preserves
    (P := fun u => (s.haveY = true → u.haveY = true) ∧ (s.haveTimeHigh = true → u.haveTimeHigh = true))
    (fun _ _ _ _ _ h => h) (fun i u v h hrun he => ?_) (fun _ h _ => h) (fun _ _ h _ => h) ⟨id, id⟩ ht
  obtain ⟨hy, ht⟩ := flags_wordEffect (exec_effect hrun he)
  exact ⟨fun hs => hy.2 (.inl (h.1 hs)), fun hs => ht.2 (.inl (h.2 hs))⟩

/-- Settles O46: a word stays in `RUN` with the position advanced, or is a fault entry, which keeps the position. -/
theorem wordIndexCountsWords : Obligations.WordIndexCountsWords := by
  intro i s t hrun ht
  rcases WordEffect_run hrun (exec_effect hrun ht) with ⟨hphase, -, hindex⟩ | rfl
  · simp [hphase, hindex]
  · simp [raise]

/-- A word in `RUN` stays there or enters `FAULT`. -/
theorem exec_phase {i : Instr} {s t : State} (hrun : s.phase = .run) (ht : exec i s = .next t) :
    t.phase = .run ∨ t.phase = .fault := by
  rcases WordEffect_run hrun (exec_effect hrun ht) with ⟨hphase, -⟩ | rfl
  · exact .inl hphase
  · exact .inr rfl

/-- Settles O47, by the cases of a step. -/
theorem phaseLeavesRunOnly : Obligations.PhaseLeavesRunOnly := by
  intro s t ht
  refine step_to (Q := fun u => u.phase = s.phase ∨ (s.phase = .run ∧ (u.phase = .done ∨ u.phase = .fault))) ht
    (fun _ => .inl rfl) (fun _ _ _ _ => .inl rfl) (fun b f r i u hrun hu => ?_)
    (fun _ _ _ hrun => .inr ⟨hrun, .inl rfl⟩) (fun _ _ _ _ hrun => .inr ⟨hrun, .inr rfl⟩)
  rcases exec_phase (s := withIngress b f r _ s) hrun hu with h | h
  · exact .inl (h.trans hrun.symm)
  · exact .inr ⟨hrun, .inr h⟩

theorem takeToken_phase (ts : List ByteToken) (s : State) : (takeToken ts s).2.phase = s.phase := by
  obtain ⟨b, f, r, h⟩ := takeToken_frame ts s
  rw [h, withIngress_phase]

/-- Settles O48: of the tokens only `End` leads to `DONE`, and the word reader gives `End` only for `Eof` with no byte
pending. -/
theorem onlyCleanEndFinishes : Obligations.OnlyCleanEndFinishes := by
  intro s t hrun ht hdone
  rcases step_cases ht with ⟨hs, -⟩ | ⟨-, -, rfl⟩ | ⟨-, -, hn⟩ | ⟨-, -, token, u, hu, hd⟩
  · exact absurd hrun hs
  · cases hdone
  · have htrun : t.phase = .run := by simpa [hn, hrun] using takeToken_phase s.input s
    rw [htrun] at hdone
    cases hdone
  · cases token with
    | word w =>
      have hurun : u.phase = .run := by simpa [hu, hrun] using takeToken_phase s.input s
      rcases exec_phase hurun hd with h | h <;> rw [h] at hdone <;> cases hdone
    | endOfStream =>
      obtain ⟨hb, rest, hinput, rfl⟩ := takeToken_end s.input hu
      cases hd
      exact ⟨hb, rest, hinput, rfl⟩
    | endTruncated | ioFail =>
      cases hd
      cases hdone

/-! ## The sensor sizes (10_state.md R36) -/

/-- The word reader neither reads nor writes the sensor sizes. -/
theorem takeToken_withSensor (width height : BitVec 16) (ts : List ByteToken) (s : State) :
    takeToken ts (withSensor width height s) =
      ((takeToken ts s).1, withSensor width height (takeToken ts s).2) := by
  induction ts generalizing s with
  | nil => rfl
  | cons token rest ih =>
    cases token with
    | byte b =>
      cases hb : s.haveByte with
      | true => simp only [takeToken, withSensor_haveByte, hb, if_true]; rfl
      | false =>
        simp only [takeToken, withSensor_haveByte, hb, Bool.false_eq_true, if_false]
        exact ih (holdByte b s)
    | eof | ioFail => rfl

/-- Neither does the decoder's step, on any token. -/
theorem decoderStep_withSensor (width height : BitVec 16) (token : WordToken) (s : State) :
    decoderStep token (withSensor width height s) = mapNext (withSensor width height) (decoderStep token s) := by
  cases token with
  | word w => exact exec_unread (unread_withSensor width height) (decode w) s
  | endOfStream | endTruncated | ioFail => rfl

/-- A step of a state with other sensor sizes is the step of the state, with those sizes. -/
theorem step_withSensor (width height : BitVec 16) (s : State) :
    step (withSensor width height s) = mapNext (withSensor width height) (step s) := by
  by_cases hrun : s.phase = .run
  · simp only [step, withSensor_phase, hrun, if_true, runStep, withSensor_input, takeToken_withSensor]
    by_cases hr : formatRejected s = true
    · rw [if_pos hr, if_pos (show formatRejected (withSensor width height s) = true from hr)]
      rfl
    · rw [if_neg hr, if_neg (show ¬ formatRejected (withSensor width height s) = true from hr)]
      obtain ⟨token | _, u⟩ := takeToken s.input s
      · rfl
      · exact decoderStep_withSensor width height _ u
  · simp [step, hrun, mapNext]

/-- Settles O50: the step passes the sizes through, no word writes them, and the result view copies them. -/
theorem sensorSizesAreNeverRead : Obligations.SensorSizesAreNeverRead := by
  refine ⟨fun w h s => step_withSensor w h s, fun s t ht => ?_, fun _ => ⟨rfl, rfl⟩⟩
  refine step_to (Q := fun u => u.sensorWidth = s.sensorWidth ∧ u.sensorHeight = s.sensorHeight) ht
    (fun _ => ⟨rfl, rfl⟩) (fun _ _ _ _ => ⟨rfl, rfl⟩) (fun b f r i u _ hu => ?_)
    (fun _ _ _ _ => ⟨rfl, rfl⟩) (fun _ _ _ _ _ => ⟨rfl, rfl⟩)
  obtain ⟨-, -, -, -, hw, hh⟩ := exec_ingress hu
  exact ⟨hw, hh⟩

/-! ## The columns of the result (10_state.md R41) -/

/-- A filled column reads as the whole array of its elements, one per index below the length. -/
theorem columnElements_filled {w : Nat} {col : Column w} {len : BitVec 64} (h : filled col len) :
    columnElements col len = col.map Prod.snd ∧ (columnElements col len).length = len.toNat := by
  have hread : columnElements col len = col.map Prod.snd := by
    rw [columnElements, ← h, filterMap_colRead col (colWf_of_filled h)]
  refine ⟨hread, ?_⟩
  calc (columnElements col len).length = (col.map Prod.fst).length := by rw [hread]; simp
    _ = len.toNat := by rw [h, List.length_range]

/-- Settles O59: the invariants say that each of the seven columns is filled up to its length. -/
theorem resultColumnsAreWhole : Obligations.ResultColumnsAreWhole := fun _ h =>
  ⟨columnElements_filled h.cdXFilled, columnElements_filled h.cdYFilled, columnElements_filled h.cdPFilled,
    columnElements_filled h.cdTFilled, columnElements_filled h.trTFilled, columnElements_filled h.trIdFilled,
    columnElements_filled h.trVFilled⟩

/-! ## Reset (10_state.md R42) -/

theorem isCapacity_initial : isCapacity 65536 := ⟨0, rfl⟩

theorem stateInv_reset : StateInv State.reset where
  curY := by decide
  vectPolarity := by decide
  timeLow := by decide
  lastPayload := by decide
  timeHigh := nofun
  cdXFilled := rfl
  cdYFilled := rfl
  cdPFilled := rfl
  cdTFilled := rfl
  trTFilled := rfl
  trIdFilled := rfl
  trVFilled := rfl
  cdXRange := rfl
  cdYRange := rfl
  cdPRange := rfl
  trIdRange := rfl
  trVRange := rfl
  cdTRange := rfl
  trTRange := rfl
  cdRoom := Nat.zero_le _
  trigRoom := Nat.zero_le _
  cdCapForm := isCapacity_initial
  trigCapForm := isCapacity_initial
  faultRecord := ⟨nofun, fun h => absurd rfl h⟩
  noUnknown := rfl

/-- What a host reset keeps are inputs and the model's own counter, of which the invariants say nothing. -/
theorem stateInv_hostReset (s : State) : StateInv (hostReset s) := { stateInv_reset with }

/-- Settles O52: no element is stored, no event counted, and each register is 0. -/
theorem invariantsHoldAtReset : Obligations.InvariantsHoldAtReset :=
  ⟨stateInv_reset, by unfold Feasible; decide, Nat.zero_le _, reset_mem_wf,
    fun s => ⟨stateInv_hostReset s, reset_mem_wf⟩⟩

/-- Settles O55: each element of the table is a field of the state after reset; the sensor sizes are kept. -/
theorem resetTable : Obligations.ResetTable := by
  intro s
  simp [hostReset, State.reset, Config.cdInitCap, Config.trigInitCap]

end Sys2Proof.Machine
end

section
/-! PROOFS. The statements of 20_memory.md: the bytes of a word and their decoding (R62, R64), the appends to the column
memories (R67), the canonical form of the memories along a step, and the reads of a host (R72). -/

namespace Sys2Proof

/-! ## The two bytes of a word (20_memory.md R62) -/

@[simp] theorem lowByte_wordOfBytes (b0 b1 : Byte) : lowByte (wordOfBytes b0 b1) = b0 :=
  BitVec.extractLsb'_append_eq_right (a := b1)

@[simp] theorem highByte_wordOfBytes (b0 b1 : Byte) : highByte (wordOfBytes b0 b1) = b1 :=
  BitVec.extractLsb'_append_eq_left (b := b0)

@[simp] theorem wordOfBytes_low_high (w : Word) : wordOfBytes (lowByte w) (highByte w) = w :=
  BitVec.extractLsb'_append_extractLsb' (w := 8) (len := 8)

@[simp] theorem bytesOfWord_wordOfBytes (b0 b1 : Byte) : bytesOfWord (wordOfBytes b0 b1) = [b0, b1] := by
  simp [bytesOfWord]

theorem wordOfBytes_eq_shiftLeft_or (b0 b1 : Byte) :
    wordOfBytes b0 b1 = (b1.setWidth 16 <<< 8) ||| b0.setWidth 16 :=
  (BitVec.setWidth_eq (wordOfBytes b0 b1)).symm.trans BitVec.setWidth_append_eq_shiftLeft_setWidth_or

theorem codeOf_wordOfBytes (b0 b1 : Byte) : codeOf (wordOfBytes b0 b1) = b1.extractLsb' 4 4 :=
  BitVec.extractLsb'_append_eq_of_le (by decide)

@[simp] theorem decodeBytes_bytesOfWord (w : Word) (rest : List Byte) :
    decodeBytes (bytesOfWord w ++ rest) = .ok (decode w, rest) := by
  simp [bytesOfWord, decodeBytes]

/-- Settles O8: the word is the second byte put above the first. -/
theorem littleEndianPairing : Obligations.LittleEndianPairing :=
  ⟨fun b0 b1 => ⟨wordOfBytes_eq_shiftLeft_or b0 b1, codeOf_wordOfBytes b0 b1, bytesOfWord_wordOfBytes b0 b1⟩, rfl, rfl⟩

/-- Settles O7, by the number of bytes: none, one, or a complete word, which decodes. -/
theorem onlyShortBytesRefused : Obligations.OnlyShortBytesRefused
  | [] => by simp [decodeBytes]
  | [_] => by simp [decodeBytes]
  | _ :: _ :: _ => by simp [decodeBytes]

/-! ## The fields of a payload (30_encoding.md R93 to R100) -/

@[simp] theorem topField_append (f : BitVec 1) (c : BitVec 11) : topField (f ++ c) = f :=
  BitVec.extractLsb'_append_eq_left

@[simp] theorem coordField_append (f : BitVec 1) (c : BitVec 11) : coordField (f ++ c) = c :=
  BitVec.extractLsb'_append_eq_right

@[simp] theorem highNibbleField_append (n : BitVec 4) (m : BitVec 8) : highNibbleField (n ++ m) = n :=
  BitVec.extractLsb'_append_eq_left

@[simp] theorem mask8Field_append (n : BitVec 4) (m : BitVec 8) : mask8Field (n ++ m) = m :=
  BitVec.extractLsb'_append_eq_right

@[simp] theorem highNibbleField_append_append (id : BitVec 4) (pad : BitVec 7) (v : BitVec 1) :
    highNibbleField (id ++ pad ++ v) = id :=
  (BitVec.extractLsb'_append_eq_of_le (xhi := id ++ pad) (xlo := v) (start := 8) (by decide)).trans
    BitVec.extractLsb'_append_eq_left

@[simp] theorem padField_append_append (id : BitVec 4) (pad : BitVec 7) (v : BitVec 1) :
    padField (id ++ pad ++ v) = pad :=
  (BitVec.extractLsb'_append_eq_of_le (xhi := id ++ pad) (xlo := v) (start := 1) (by decide)).trans
    BitVec.extractLsb'_append_eq_right

@[simp] theorem valueField_append_append (id : BitVec 4) (pad : BitVec 7) (v : BitVec 1) :
    valueField (id ++ pad ++ v) = v :=
  BitVec.extractLsb'_append_eq_right (a := id ++ pad)

/-! ## Decoding an encoded word (30_encoding.md R105) -/

/-- The type code selects the row of R92 that the instruction came from, and the fields of its payload are its
operands. -/
theorem decodeFields_typeCode_payloadBits (i : Instr) : decodeFields (typeCode i) (payloadBits i) = i := by
  cases i with
  | addrY | addrX | vectBaseX | vect8 | extTrigger => simp [decodeFields, typeCode, payloadBits]
  | vect12 | timeLow | timeHigh => rfl
  | reserved1 | reserved7 | reserved9 | reservedB | reservedC | reservedD | reservedE | reservedF => rfl

@[simp] theorem decode_encode (i : Instr) : decode (encode i) = i := by
  obtain ⟨hcode, hpayload⟩ : Laws.CodeField.Statement i := Laws.CodeField.of_append _ _
  rw [decode, hcode, hpayload, decodeFields_typeCode_payloadBits]

/-- Settles O1: the bytes of a word give the word, and decoding undoes its encoding. -/
theorem decodeEncodeRoundTrip : Obligations.DecodeEncodeRoundTrip := fun i rest =>
  calc decodeBytes (encodeBytes i ++ rest) = .ok (decode (encode i), rest) := decodeBytes_bytesOfWord _ _
    _ = .ok (i, rest) := by rw [decode_encode]

end Sys2Proof

namespace Sys2Proof.Machine

/-! ## The appends to a buffer with room (45_buffers.md R200, R201) -/

/-- Settles O40: with room an append counts the order and stores, and its reads are those of any append. -/
theorem appendsStoreAndCount : Obligations.AppendsStoreAndCount := by
  refine ⟨fun _ _ => lastCdTime_written, fun _ _ => lastTrigTime_written, fun x y p t s hroom => ?_,
    fun t id v s hroom => ?_⟩
  · have ha := appendCd_room x y p t hroom
    exact ⟨_, ha, by rw [noteCdOrder_eq]; rfl, appendCdUnder_reads ha⟩
  · have ha := appendTrig_room t id v hroom
    exact ⟨_, ha, by rw [noteTrigOrder_eq]; rfl, appendTrigUnder_reads ha⟩

/-! ## The canonical form of the memories along a step -/

theorem emitCd_mem_wf {x : BitVec 16} {p : BitVec 8} {s u : State} (h : emitCd x p s = some u)
    (hs : s.mem.wf = true) : u.mem.wf = true := by
  rcases emitCd_some h with ⟨-, rfl⟩ | ⟨-, -, rfl⟩ | ⟨-, -, ha⟩
  · exact hs
  · exact hs
  · obtain ⟨c, -, rfl⟩ := appendCdUnder_some ha
    exact storeCd_mem_wf _ _ _ _ _ (by rwa [noteCdOrder_eq])

theorem emitTrig_mem_wf {i v : BitVec 8} {s u : State} (h : emitTrig i v s = some u) (hs : s.mem.wf = true) :
    u.mem.wf = true := by
  rcases emitTrig_some h with ⟨-, rfl⟩ | ⟨-, ha⟩
  · exact hs
  · obtain ⟨c, -, rfl⟩ := appendTrigUnder_some ha
    exact storeTrig_mem_wf _ _ _ _ (by rwa [noteTrigOrder_eq])

theorem expandLanes_mem_wf {n : Nat} {mask : BitVec n} {ks : List Nat} {s u : State}
    (h : expandLanes mask ks s = some u) (hs : s.mem.wf = true) : u.mem.wf = true :=
  expandLanes_induction (fun _ v => v.mem.wf = true) (fun _ _ hv => hv) (fun _ _ _ _ hv _ he => emitCd_mem_wf he hv)
    ks 0 s u hs h

/-- Only an emission writes a column. -/
theorem wordEffect_mem_wf {i : Instr} {s t : State} (he : WordEffect i s t) (hs : s.mem.wf = true) :
    t.mem.wf = true := by
  cases he with
  | addrY | vectBaseX | timeLow | timeHigh | reserved => exact hs
  | addrX _ _ _ u hu => exact (emitCd_mem_wf hu hs :)
  | vect12 _ _ u hu => exact (expandLanes_mem_wf hu hs :)
  | vect8 _ _ _ u hu => exact (expandLanes_mem_wf hu hs :)
  | extTrigger _ _ _ _ u hu => exact (emitTrig_mem_wf hu hs :)

/-- Settles O51, by the cases of a step: all but a word leave the columns alone. -/
theorem stepsKeepMemoryCanonical : Obligations.StepsKeepMemoryCanonical := fun _ _ hs ht =>
  step_preserves (P := fun u => u.mem.wf = true) (fun _ _ _ _ _ h => h)
    (fun _ _ _ h hrun he => wordEffect_mem_wf (exec_effect hrun he) h) (fun _ h _ => h) (fun _ _ h _ => h) hs ht

/-! ## The reads of a host (20_memory.md R72) -/

/-- Settles O58, by the three phases. -/
theorem hostReadsFollowThePhase : Obligations.HostReadsFollowThePhase := by
  intro s
  cases h : s.phase <;> simp [readResult, readFaultRecord, readPartial, doneOutput, faultOutput, h]

end Sys2Proof.Machine
end

section
/-! PROOFS. The statements of 30_encoding.md: a word and the instruction it decodes to (R91 to R105), the statements of
the assembler syntax (R106 to R108), and what a reserved code and the ignored bits of a word do (R102, R103). -/

namespace Sys2Proof

/-! ## The fields of a word put together again (30_encoding.md R91 to R100) -/

@[simp] theorem codeOf_append_payloadOf (w : Word) : codeOf w ++ payloadOf w = w :=
  BitVec.extractLsb'_append_extractLsb' (w := 4) (len := 12)

@[simp] theorem topField_append_coordField (pl : Payload) : topField pl ++ coordField pl = pl :=
  BitVec.extractLsb'_append_extractLsb' (w := 1) (len := 11)

@[simp] theorem highNibbleField_append_mask8Field (pl : Payload) : highNibbleField pl ++ mask8Field pl = pl :=
  BitVec.extractLsb'_append_extractLsb' (w := 4) (len := 8)

@[simp] theorem highNibbleField_append_padField_append_valueField (pl : Payload) :
    highNibbleField pl ++ padField pl ++ valueField pl = pl := by
  have hhigh : highNibbleField pl ++ padField pl = pl.extractLsb' 1 11 :=
    BitVec.extractLsb'_append_extractLsb'_eq_extractLsb' rfl
  rw [hhigh]
  exact BitVec.extractLsb'_append_extractLsb' (w := 11) (len := 1)

/-! ## Encoding a decoded word (30_encoding.md R105) -/

/-- The row that a code selects is the row of that code (R92). -/
@[simp] theorem typeCode_decodeFields (c : TypeCode) (pl : Payload) : typeCode (decodeFields c pl) = c := by
  obtain ⟨⟨n, hn⟩⟩ := c
  interval_cases n <;> rfl

@[simp] theorem payloadBits_decodeFields (c : TypeCode) (pl : Payload) : payloadBits (decodeFields c pl) = pl := by
  unfold decodeFields
  split <;> simp [payloadBits]

@[simp] theorem encode_decode (w : Word) : encode (decode w) = w := by
  simp [encode, decode]

/-- Settles O2: the row gives the code back, and its operands the payload. -/
theorem encodeDecodeRoundTrip : Obligations.EncodeDecodeRoundTrip := encode_decode

/-! ## The fields of a word as numbers (30_encoding.md R91, R93 to R100) -/

theorem toNat_codeOf (w : Word) : (codeOf w).toNat = w.toNat / 4096 := by
  rw [codeOf, BitVec.extractLsb'_toNat, Nat.shiftRight_eq_div_pow]
  omega

theorem toNat_payloadOf (w : Word) : (payloadOf w).toNat = w.toNat % 4096 :=
  BitVec.extractLsb'_toNat 0 12 w

/-- A field of the payload stands at the same bits of the word. -/
theorem extractLsb'_payloadOf (w : Word) {start len : Nat} (h : start + len ≤ 12) :
    (payloadOf w).extractLsb' start len = BitVec.ofNat len (w.toNat / 2 ^ start) := by
  rw [payloadOf, BitVec.extractLsb'_extractLsb'_of_le h, BitVec.extractLsb', Nat.shiftRight_eq_div_pow]

theorem topField_payloadOf (w : Word) : topField (payloadOf w) = BitVec.ofNat 1 (w.toNat / 2048) :=
  extractLsb'_payloadOf w (by decide)

theorem coordField_payloadOf (w : Word) : coordField (payloadOf w) = BitVec.ofNat 11 w.toNat :=
  BitVec.extractLsb'_extractLsb'_of_le (by decide)

theorem highNibbleField_payloadOf (w : Word) : highNibbleField (payloadOf w) = BitVec.ofNat 4 (w.toNat / 256) :=
  extractLsb'_payloadOf w (by decide)

theorem mask8Field_payloadOf (w : Word) : mask8Field (payloadOf w) = BitVec.ofNat 8 w.toNat :=
  BitVec.extractLsb'_extractLsb'_of_le (by decide)

theorem padField_payloadOf (w : Word) : padField (payloadOf w) = BitVec.ofNat 7 (w.toNat / 2) :=
  extractLsb'_payloadOf w (by decide)

theorem valueField_payloadOf (w : Word) : valueField (payloadOf w) = BitVec.ofNat 1 w.toNat :=
  BitVec.extractLsb'_extractLsb'_of_le (by decide)

/-- The word divided by 4096 selects the row. -/
theorem decode_of_div {w : Word} {c : Nat} (h : w.toNat / 4096 = c) :
    decode w = decodeFields (BitVec.ofNat 4 c) (payloadOf w) := by
  rw [decode, ← h, ← toNat_codeOf, BitVec.ofNat_toNat, BitVec.setWidth_eq]

/-- Settles O3: the code selects the row, and each operand is a field of the payload. -/
theorem wordFormats : Obligations.WordFormats :=
  ⟨fun w => ⟨toNat_codeOf w, toNat_payloadOf w⟩, fun _ => typeCode_decodeFields _ _,
    fun w h => (decode_of_div h).trans (congrArg₂ Instr.addrY (topField_payloadOf w) (coordField_payloadOf w)),
    fun w h => (decode_of_div h).trans (congrArg₂ Instr.addrX (topField_payloadOf w) (coordField_payloadOf w)),
    fun w h => (decode_of_div h).trans (congrArg₂ Instr.vectBaseX (topField_payloadOf w) (coordField_payloadOf w)),
    fun _ h => decode_of_div h,
    fun w h => (decode_of_div h).trans (congrArg₂ Instr.vect8 (highNibbleField_payloadOf w) (mask8Field_payloadOf w)),
    fun _ h => decode_of_div h,
    fun _ h => decode_of_div h,
    fun w h => by
      rw [← highNibbleField_payloadOf, ← padField_payloadOf, ← valueField_payloadOf]
      exact decode_of_div h⟩

/-- Settles O6: each of the words is the encoding of its instruction. -/
theorem sampleWordsDecode : Obligations.SampleWordsDecode :=
  ⟨decode_encode (.addrY 1 5), decode_encode (.addrX 1 5), decode_encode (.vectBaseX 0 10), decode_encode (.vect12 7),
    decode_encode (.vect8 15 0x81), decode_encode (.timeLow 0xABC), decode_encode (.timeHigh 0xFFF),
    decode_encode (.extTrigger 3 0x7F 1), decode_encode (.reserved7 0)⟩

/-! ## Assembling the disassembly of a word (30_encoding.md R108) -/

theorem encode_of_decode {w : Word} {i : Instr} (h : decode w = i) : encode i = w := h ▸ encode_decode w

/-- The operands of the disassembly are fields of the word, so their widths keep them in range (R101). -/
theorem disassemble_wellFormed (w : Word) : (disassemble w).wellFormed = true := by
  have hword : (Stmt.word w.toNat).wellFormed = true := decide_eq_true (Nat.le_of_lt_succ w.isLt)
  cases hi : decode w with
  | addrX | vectBaseX | vect12 | timeLow | timeHigh =>
    simp only [disassemble, hi, Stmt.wellFormed, Bool.and_eq_true, decide_eq_true_eq]
    omega
  | addrY | vect8 | extTrigger =>
    simp only [disassemble, hi]
    split
    · simp only [Stmt.wellFormed, Bool.and_eq_true, decide_eq_true_eq]
      omega
    · exact hword
  | reserved1 | reserved7 | reserved9 | reservedB | reservedC | reservedD | reservedE | reservedF =>
    simpa only [disassemble, hi] using hword

/-- The statement encodes what the word decodes to: ignored bits that it does not write are zero (R102). -/
theorem stmtWord_disassemble (w : Word) : stmtWord (disassemble w) = some w := by
  cases hi : decode w with
  | addrX | vectBaseX | vect12 | timeLow | timeHigh => simp [disassemble, stmtWord, hi, encode_of_decode hi]
  | addrY | vect8 | extTrigger =>
    simp only [disassemble, hi]
    split
    case isTrue hzero =>
      subst hzero
      simpa [stmtWord] using encode_of_decode hi
    case isFalse => simp [stmtWord]
  | reserved1 | reserved7 | reserved9 | reservedB | reservedC | reservedD | reservedE | reservedF =>
    simp [disassemble, stmtWord, hi]

/-- Settles O4: the disassembly is well formed and encodes the word. -/
theorem disassemblyAssemblesBack : Obligations.DisassemblyAssemblesBack := fun w => by
  rw [assembleWord, if_pos (disassemble_wellFormed w), stmtWord_disassemble]

/-! ## What each statement assembles to (30_encoding.md R106, R107) -/

/-- A field above another counts as its number times two to the width of the lower one. -/
theorem ofNat_append_ofNat {m n a b : Nat} (hb : b < 2 ^ n) :
    BitVec.ofNat m a ++ BitVec.ofNat n b = BitVec.ofNat (m + n) (a * 2 ^ n + b) := by
  apply BitVec.eq_of_toNat_eq
  have hmod : (a * 2 ^ n + b) % 2 ^ n = b := by rw [Nat.mul_add_mod', Nat.mod_eq_of_lt hb]
  have hdiv : (a * 2 ^ n + b) / 2 ^ n = a := by
    rw [Nat.mul_comm, Nat.mul_add_div (Nat.two_pow_pos n), Nat.div_eq_of_lt hb, Nat.add_zero]
  calc (BitVec.ofNat m a ++ BitVec.ofNat n b).toNat
      = a % 2 ^ m * 2 ^ n + b := by
        rw [BitVec.toNat_append, BitVec.toNat_ofNat, BitVec.toNat_ofNat, Nat.mod_eq_of_lt hb,
          ← Nat.shiftLeft_add_eq_or_of_lt hb, Nat.shiftLeft_eq]
    _ = (a * 2 ^ n + b) % 2 ^ (m + n) := by
        rw [Nat.add_comm m, Nat.pow_add, Nat.mod_mul, hmod, hdiv, Nat.add_comm, Nat.mul_comm]
    _ = (BitVec.ofNat (m + n) (a * 2 ^ n + b)).toNat := (BitVec.toNat_ofNat ..).symm

/-- Assembling, where the range of a statement is `p` and the word in range is `w` (R106). -/
theorem assembleWord_eq_ite {st : Stmt} {w : Word} {p : Prop} [Decidable p] (hp : st.wellFormed = true ↔ p)
    (hw : p → stmtWord st = some w) : assembleWord st = if p then some w else none := by
  by_cases h : p <;> simp [assembleWord, hp, h, hw]

/-- The word of an instruction as a number: its type code times 4096, plus its payload (R91). -/
theorem encode_eq_ofNat (c : Nat) {i : Instr} {n w : Nat} (hc : typeCode i = BitVec.ofNat 4 c)
    (hn : payloadBits i = BitVec.ofNat 12 n) (hlt : n < 4096) (hw : c * 4096 + n = w) :
    encode i = BitVec.ofNat 16 w := by
  rw [encode, hc, hn, ← hw]
  exact ofNat_append_ofNat hlt

/-- A flag above a coordinate (R93 to R95). -/
theorem ofNat_flag_append_coord {f c : Nat} (hc : c ≤ 2047) :
    (BitVec.ofNat 1 f ++ BitVec.ofNat 11 c : Payload) = BitVec.ofNat 12 (f * 2048 + c) :=
  ofNat_append_ofNat (by omega)

/-- The mask of VECT_8 below its ignored bits (R97). -/
theorem zero_append_mask8 {mask : Nat} (h : mask ≤ 0xFF) :
    (0#4 ++ BitVec.ofNat 8 mask : BitVec (4 + 8)) = BitVec.ofNat 12 mask := by
  simpa using ofNat_append_ofNat (m := 4) (n := 8) (a := 0) (b := mask) (by omega)

/-- The id of EXT_TRIGGER above its padding and its value (R100). -/
theorem id_append_pad_append_value {id v : Nat} (hv : v ≤ 1) :
    (BitVec.ofNat 4 id ++ 0#7 ++ BitVec.ofNat 1 v : BitVec (4 + 7 + 1)) = BitVec.ofNat 12 (id * 256 + v) := by
  have hpad : (BitVec.ofNat 4 id ++ 0#7 : BitVec (4 + 7)) = BitVec.ofNat 11 (id * 128) :=
    ofNat_append_ofNat (Nat.two_pow_pos 7)
  calc (BitVec.ofNat 4 id ++ 0#7 ++ BitVec.ofNat 1 v : BitVec (4 + 7 + 1))
      = BitVec.ofNat 12 (id * 128 * 2 + v) := by rw [hpad]; exact ofNat_append_ofNat (n := 1) (by omega)
    _ = BitVec.ofNat 12 (id * 256 + v) := by rw [Nat.mul_assoc]

theorem assembleWord_addrY (y : Nat) :
    assembleWord (.addrY y) = if y ≤ 2047 then some (BitVec.ofNat 16 y) else none :=
  assembleWord_eq_ite (by simp [Stmt.wellFormed]) fun h =>
    congrArg some (encode_eq_ofNat 0x0 rfl (ofNat_flag_append_coord (f := 0) h) (by omega) (by omega))

theorem assembleWord_addrYOrig (y orig : Nat) : assembleWord (.addrYOrig y orig) =
    if y ≤ 2047 ∧ orig ≤ 1 then some (BitVec.ofNat 16 (orig * 2048 + y)) else none :=
  assembleWord_eq_ite (by simp [Stmt.wellFormed]) fun ⟨hy, horig⟩ =>
    congrArg some (encode_eq_ofNat 0x0 rfl (ofNat_flag_append_coord hy) (by omega) (by omega))

theorem assembleWord_addrX (x p : Nat) : assembleWord (.addrX x p) =
    if x ≤ 2047 ∧ p ≤ 1 then some (BitVec.ofNat 16 (0x2000 + p * 2048 + x)) else none :=
  assembleWord_eq_ite (by simp [Stmt.wellFormed]) fun ⟨hx, hp⟩ =>
    congrArg some (encode_eq_ofNat 0x2 rfl (ofNat_flag_append_coord hx) (by omega) (by omega))

theorem assembleWord_vectBaseX (x p : Nat) : assembleWord (.vectBaseX x p) =
    if x ≤ 2047 ∧ p ≤ 1 then some (BitVec.ofNat 16 (0x3000 + p * 2048 + x)) else none :=
  assembleWord_eq_ite (by simp [Stmt.wellFormed]) fun ⟨hx, hp⟩ =>
    congrArg some (encode_eq_ofNat 0x3 rfl (ofNat_flag_append_coord hx) (by omega) (by omega))

theorem assembleWord_vect12 (mask : Nat) :
    assembleWord (.vect12 mask) = if mask ≤ 0xFFF then some (BitVec.ofNat 16 (0x4000 + mask)) else none :=
  assembleWord_eq_ite (by simp [Stmt.wellFormed]) fun h =>
    congrArg some (encode_eq_ofNat 0x4 rfl rfl (by omega) (by omega))

theorem assembleWord_vect8 (mask : Nat) :
    assembleWord (.vect8 mask) = if mask ≤ 0xFF then some (BitVec.ofNat 16 (0x5000 + mask)) else none :=
  assembleWord_eq_ite (by simp [Stmt.wellFormed]) fun h =>
    congrArg some (encode_eq_ofNat 0x5 rfl (zero_append_mask8 h) (by omega) (by omega))

theorem assembleWord_timeLow (t : Nat) :
    assembleWord (.timeLow t) = if t ≤ 4095 then some (BitVec.ofNat 16 (0x6000 + t)) else none :=
  assembleWord_eq_ite (by simp [Stmt.wellFormed]) fun h =>
    congrArg some (encode_eq_ofNat 0x6 rfl rfl (by omega) (by omega))

theorem assembleWord_timeHigh (t : Nat) :
    assembleWord (.timeHigh t) = if t ≤ 4095 then some (BitVec.ofNat 16 (0x8000 + t)) else none :=
  assembleWord_eq_ite (by simp [Stmt.wellFormed]) fun h =>
    congrArg some (encode_eq_ofNat 0x8 rfl rfl (by omega) (by omega))

theorem assembleWord_extTrigger (id v : Nat) : assembleWord (.extTrigger id v) =
    if id ≤ 15 ∧ v ≤ 1 then some (BitVec.ofNat 16 (0xA000 + id * 256 + v)) else none :=
  assembleWord_eq_ite (by simp [Stmt.wellFormed]) fun ⟨hid, hv⟩ =>
    congrArg some (encode_eq_ofNat 0xA rfl (id_append_pad_append_value hv) (by omega) (by omega))

theorem assembleWord_word (n : Nat) :
    assembleWord (.word n) = if n ≤ 0xFFFF then some (BitVec.ofNat 16 n) else none :=
  assembleWord_eq_ite (by simp [Stmt.wellFormed]) fun _ => rfl

theorem stmtTokens_byte (n : Nat) :
    Machine.stmtTokens (.byte n) = if n ≤ 0xFF then some [.byte (BitVec.ofNat 8 n)] else none := by
  simp [Machine.stmtTokens, Stmt.wellFormed]

/-- Settles O5: of each statement's equation, the clause in range and the clause above it. -/
theorem statementEncodings : Obligations.StatementEncodings := by
  simp only [Obligations.StatementEncodings, assembleWord_addrY, assembleWord_addrYOrig, assembleWord_addrX,
    assembleWord_vectBaseX, assembleWord_vect12, assembleWord_vect8, assembleWord_timeLow, assembleWord_timeHigh,
    assembleWord_extTrigger, assembleWord_word, stmtTokens_byte]
  exact ⟨fun _ h => if_pos h, fun _ _ hy ho => if_pos ⟨hy, ho⟩, fun _ _ hx hp => if_pos ⟨hx, hp⟩,
    fun _ _ hx hp => if_pos ⟨hx, hp⟩, fun _ h => if_pos h, fun _ h => if_pos h, fun _ h => if_pos h,
    fun _ h => if_pos h, fun _ _ hid hv => if_pos ⟨hid, hv⟩, fun _ h => if_pos h, fun _ h => if_neg (by omega),
    fun _ _ h => if_neg (by omega), fun _ _ h => ⟨if_neg (by omega), if_neg (by omega)⟩,
    fun _ h => if_neg (by omega), fun _ h => if_neg (by omega), fun _ h => ⟨if_neg (by omega), if_neg (by omega)⟩,
    fun _ _ h => if_neg (by omega), fun _ h => if_neg (by omega), fun _ h => if_pos h, fun _ h => if_neg (by omega)⟩

end Sys2Proof

namespace Sys2Proof.Machine

/-! ## Reserved codes and ignored bits (30_encoding.md R102, R103) -/

/-- Settles O37: each of the eight words is the reserved-word operation of its code, which raises. -/
theorem reservedCodeRaises : Obligations.ReservedCodeRaises := by
  intro pl i s hrun hi
  have hexec : exec i s = reservedWord Config.ignorableCodes (typeCode i) s := by
    simp only [List.mem_cons, List.not_mem_nil, or_false] at hi
    rcases hi with rfl | rfl | rfl | rfl | rfl | rfl | rfl | rfl <;> rfl
  exact ⟨_, hexec.trans (reservedWord_raises _ hrun), rfl⟩

/-- Settles O39: no meaning takes the ignored operand. -/
theorem ignoredBitsHaveNoEffect : Obligations.IgnoredBitsHaveNoEffect :=
  ⟨fun _ _ _ => rfl, fun _ _ _ => rfl, fun _ _ _ _ => rfl⟩

end Sys2Proof.Machine
end

section
/-! PROOFS. The statements of 40_ingress.md: the word reader and the step on the token it gives (R120 to R126), the step
and `Run` (R134), the end of a session (R289), and the header skipper (R128 to R133). -/

namespace Sys2Proof.Machine

/-! ## The step on each kind of byte-port input (40_ingress.md R120 to R126) -/

/-- An accepted header is never rejected. -/
theorem formatRejected_of_ok {s : State} (h : s.headerVerdict = .ok) : formatRejected s = false := by
  simp [formatRejected, h]

/-- With a byte pending the session has started, and the header's report is no longer read. -/
theorem formatRejected_of_held {s : State} (h : s.haveByte = true) : formatRejected s = false := by
  simp [formatRejected, atSessionStart, h]

theorem step_idle {s : State} (h : s.phase ≠ .run) : step s = .next s := by simp [step, h]

theorem step_rejected {s : State} (h : s.phase = .run) (hr : formatRejected s = true) :
    step s = .next (raise .unsupportedFormat s) := by
  simp [step, h, runStep, hr]

/-- Where the word reader gives no token, the step is its change of the ingress stage (log entry 3). -/
theorem step_wait {s u : State} (h : s.phase = .run) (hr : formatRejected s = false)
    (hu : takeToken s.input s = (none, u)) : step s = .next u := by
  simp [step, h, runStep, hr, hu]

/-- Two bytes at the byte port, none pending: the step is the instruction of their word. -/
theorem step_pair {s : State} {b0 b1 : Byte} {rest : List ByteToken} (hrun : s.phase = .run)
    (hr : formatRejected s = false) (hb : s.haveByte = false) (hin : s.input = .byte b0 :: .byte b1 :: rest) :
    step s = exec (decode (wordOfBytes b0 b1)) (withIngress b0 false rest s.headerVerdict s) := by
  have htake := takeToken_pair b0 b1 rest hb
  rw [← hin] at htake
  exact step_token hrun hr htake

/-- Settles O9: the word reader pairs the two bytes, or the held one and the next. -/
theorem stepRunsDecodedWord : Obligations.StepRunsDecodedWord := by
  refine ⟨fun s b0 b1 rest => step_pair, fun s b rest hrun hb hin => ?_, fun s i rest hrun hr hb hin => ?_⟩
  · have htake := takeToken_held b rest hb
    rw [← hin] at htake
    exact step_token hrun (formatRejected_of_held hb) htake
  · have hstep := step_pair hrun hr hb hin
    rwa [wordOfBytes_low_high, decode_encode] at hstep

/-- Settles O10: the placed bytes are a fresh pair at the head of the byte port, with the header accepted. -/
theorem placedWordIsTheNextStep : Obligations.PlacedWordIsTheNextStep := by
  intro s nbits w hrun
  have hstep := step_pair (s := s.withFetchWord nbits w) hrun (formatRejected_of_ok rfl) rfl rfl
  rwa [wordOfBytes_low_high] at hstep

/-- Settles O12: the word reader gives a truncated end, on which the decoder raises. -/
theorem oddByteIsTruncation : Obligations.OddByteIsTruncation := by
  intro s rest hrun hb hin
  have htake : takeToken s.input s = (some .endTruncated, setInput rest s) := by
    rw [hin, takeToken_eof, if_pos hb]
  exact ⟨_, step_token hrun (formatRejected_of_held hb) htake, rfl⟩

/-- Settles O13: the word reader passes the failure on, whatever it holds (D27), and the decoder raises. -/
theorem sourceFailureIsIoError : Obligations.SourceFailureIsIoError := by
  intro s e rest hrun hr hin
  have htake : takeToken s.input s = (some (.ioFail e), setInput rest s) := by rw [hin]; rfl
  exact ⟨_, step_token hrun hr htake, rfl⟩

/-- Settles O14: the report is read before the word reader looks at the byte port. -/
theorem rejectedFormatFaultsAtStart : Obligations.RejectedFormatFaultsAtStart := by
  intro s hrun hindex hb hv
  have hr : formatRejected s = true := by simp [formatRejected, atSessionStart, hindex, hb, hv]
  exact ⟨_, step_rejected hrun hr, by rw [← hindex]; rfl⟩

/-- Settles O15: both the step and every word ask for `RUN` first. -/
theorem nothingHappensOutsideRun : Obligations.NothingHappensOutsideRun :=
  fun _ h => ⟨step_idle h, fun i => exec_idle i h⟩

/-- Settles O16: the word reader gives no token. -/
theorem silentSourceWaits : Obligations.SilentSourceWaits := by
  intro s hrun hr
  refine ⟨fun hin => step_wait hrun hr ?_, fun b hb hin => step_wait hrun hr ?_⟩
  · rw [hin, takeToken, ← hin]
    rfl
  · rw [hin]
    simp [takeToken, hb, holdByte, setInput]

/-! ## The decoder core does not see the ingress stage (40_ingress.md R124) -/

@[simp] theorem corePart_phase (s : State) : (corePart s).phase = s.phase := rfl
@[simp] theorem corePart_errKind (s : State) : (corePart s).errKind = s.errKind := rfl

/-- The word reader leaves the decoder core as it is. -/
@[simp] theorem corePart_takeToken (ts : List ByteToken) (s : State) : corePart (takeToken ts s).2 = corePart s := by
  obtain ⟨b, f, r, h⟩ := takeToken_frame ts s
  rw [h]
  rfl

theorem takeToken_headerVerdict (ts : List ByteToken) (s : State) :
    (takeToken ts s).2.headerVerdict = s.headerVerdict := by
  obtain ⟨b, f, r, h⟩ := takeToken_frame ts s
  rw [h, withIngress_headerVerdict]

theorem decoderStep_corePart (token : WordToken) (s : State) :
    decoderStep token (corePart s) = mapNext corePart (decoderStep token s) := by
  cases token with
  | word w => exact exec_unread (unread_withIngress 0 false [] .ok) (decode w) s
  | endOfStream | endTruncated | ioFail => rfl

theorem runTokens_corePart (ts : List WordToken) (s : State) :
    runTokens ts (corePart s) = mapNext corePart (runTokens ts s) := by
  induction ts generalizing s with
  | nil => rfl
  | cons token ts ih =>
    simp only [runTokens, corePart_phase, decoderStep_corePart]
    split
    · cases decoderStep token s with
      | next t => exact ih t
      | fault | refused => rfl
    · rfl

/-! ## Stepping and `Run` (40_ingress.md R134) -/

/-- Any number of steps outside `RUN` changes nothing. -/
theorem runSteps_idle (n : Nat) {s : State} (h : s.phase ≠ .run) : runSteps n s = .next s := by
  induction n with
  | zero => rfl
  | succ n ih => simp [runSteps, step_idle h, ih]

/-- A decoder that stays in `RUN` has run a word, and its ingress stage is as it was. -/
theorem decoderStep_run {token : WordToken} {s t : State} (h : decoderStep token s = .next t) (ht : t.phase = .run) :
    (∃ w, token = .word w) ∧ pendingByte t = pendingByte s ∧ t.input = s.input ∧ t.headerVerdict = s.headerVerdict := by
  cases token with
  | word w =>
    obtain ⟨hhold, hbyte, hinput, hverdict, -⟩ := exec_ingress h
    exact ⟨⟨w, rfl⟩, by rw [pendingByte, hhold, hbyte, pendingByte], hinput, hverdict⟩
  | endOfStream | endTruncated | ioFail =>
    cases h
    cases ht

/-- The word reader takes the next token of the word port, and after a word leaves the byte port at the tokens after
it. -/
theorem takeToken_of_wordPort {ts : List ByteToken} {s : State} {token : WordToken} {rest : List WordToken}
    (h : wordPort (pendingByte s) ts = token :: rest) :
    ∃ u, takeToken ts s = (some token, u) ∧ ∀ w, token = .word w → wordPort (pendingByte u) u.input = rest := by
  have htake := takeToken_wordPort ts s
  rw [h] at htake
  generalize takeToken ts s = taken at htake ⊢
  obtain ⟨_ | token', u⟩ := taken
  · cases htake
  · cases token' with
    | word w =>
      cases htake
      exact ⟨u, rfl, fun _ _ => rfl⟩
    | endOfStream | endTruncated | ioFail =>
      cases htake
      exact ⟨u, rfl, nofun⟩

/-- One step takes the next token of the word port: on the decoder core it is `Step` of that token, and if it stays in
`RUN` it leaves the byte port at the tokens after it. -/
theorem step_wordPort {s : State} {token : WordToken} {ts : List WordToken} (hrun : s.phase = .run)
    (hok : s.headerVerdict = .ok) (hport : wordPort (pendingByte s) s.input = token :: ts) :
    mapNext corePart (step s) = decoderStep token (corePart s) ∧
      ∀ t, step s = .next t → t.phase = .run →
        t.headerVerdict = .ok ∧ wordPort (pendingByte t) t.input = ts := by
  obtain ⟨u, hu, hrest⟩ := takeToken_of_wordPort hport
  have hcore : corePart u = corePart s := by simpa only [hu] using corePart_takeToken s.input s
  have hverdict : u.headerVerdict = s.headerVerdict := by simpa only [hu] using takeToken_headerVerdict s.input s
  rw [step_token hrun (formatRejected_of_ok hok) hu]
  refine ⟨by rw [← decoderStep_corePart, hcore], fun t ht htrun => ?_⟩
  obtain ⟨⟨w, hw⟩, hpending, hinput, hv⟩ := decoderStep_run ht htrun
  exact ⟨hv.trans (hverdict.trans hok), by rw [hpending, hinput, hrest w hw]⟩

/-- As many steps as tokens, over a byte port whose word port begins with those tokens, are `Run` over them on the decoder
core. -/
theorem runSteps_wordPort (ts us : List WordToken) {s : State} (hrun : s.phase = .run) (hok : s.headerVerdict = .ok)
    (hport : wordPort (pendingByte s) s.input = ts ++ us) :
    mapNext corePart (runSteps ts.length s) = mapNext corePart (runTokens ts s) := by
  rw [← runTokens_corePart]
  induction ts generalizing s with
  | nil => rfl
  | cons token ts ih =>
    obtain ⟨hstep, hnext⟩ := step_wordPort hrun hok hport
    simp only [List.length_cons, runSteps, runTokens, corePart_phase, hrun, if_true, ← hstep]
    cases ht : step s with
    | next t =>
      by_cases htrun : t.phase = .run
      · obtain ⟨htok, htport⟩ := hnext t ht htrun
        exact ih htrun htok htport
      · simp only [runSteps_idle _ htrun, mapNext]
        exact (runTokens_idle ts (s := corePart t) htrun).symm
    | fault | refused => rfl

/-- `Run` over tokens after those that gave a next state goes on from that state. -/
theorem runTokens_append {ts : List WordToken} (us : List WordToken) {s t : State} (h : runTokens ts s = .next t) :
    runTokens (ts ++ us) s = runTokens us t := by
  induction ts generalizing s with
  | nil =>
    cases h
    rfl
  | cons token ts ih =>
    by_cases hrun : s.phase = .run
    · simp only [runTokens, hrun, if_true, List.cons_append] at h ⊢
      cases hd : decoderStep token s with
      | next u => exact ih (by simpa only [hd] using h)
      | fault | refused => simp [hd] at h
    · rw [runTokens_idle _ hrun] at h
      cases h
      rw [runTokens_idle _ hrun, runTokens_idle _ hrun]

/-- The word port of the bytes of words begins with those words. -/
theorem wordPort_wordTokens (ws : List Word) (rest : List ByteToken) :
    wordPort none (wordTokens ws ++ rest) = ws.map .word ++ wordPort none rest := by
  rw [wordPort_words]
  simp only [wordOfBytes_low_high]

/-- Settles O60: each step takes one token of the word port, and the words end where their bytes do. -/
theorem stepsFoldTheWordPort : Obligations.StepsFoldTheWordPort := by
  refine ⟨fun s hrun hok => runSteps_wordPort _ [] hrun hok (List.append_nil _).symm, fun ws => ?_,
    fun ts us s t h ht => ?_⟩
  · exact ⟨wordPort_wordTokens ws _, fun _ => wordPort_wordTokens ws _, fun _ => wordPort_wordTokens ws _,
      fun _ _ => wordPort_wordTokens ws _⟩
  · rw [runTokens_append us h, runTokens_idle us ht]

/-- `Run` over words alone is their word rules in turn. -/
theorem runTokens_words (ws : List Word) (s : State) :
    runTokens (ws.map .word) s = execAll (ws.map decode) s := by
  induction ws generalizing s with
  | nil => rfl
  | cons w ws ih =>
    by_cases hrun : s.phase = .run
    · simp only [List.map_cons, runTokens, hrun, if_true, decoderStep, execAll]
      cases exec (decode w) s with
      | next t => exact ih t
      | fault | refused => rfl
    · rw [runTokens_idle _ hrun, execAll_idle _ hrun]

/-- Settles O17: the word port of the bytes begins with the words, and `Run` over them is their word rules. -/
theorem streamRunsItsWords : Obligations.StreamRunsItsWords := by
  intro ws rest s hrun hb hok hin
  have hport : wordPort (pendingByte s) s.input = ws.map .word ++ wordPort none rest := by
    simpa [pendingByte, hb, hin] using wordPort_wordTokens ws rest
  simpa [runTokens_words] using runSteps_wordPort (ws.map .word) _ hrun hok hport

/-! ## The end of a session (70_reset_and_hazards.md R289) -/

theorem cdRoomFor_mono {m n : Nat} (h : m ≤ n) {s : State} (hn : cdRoomFor n s) : cdRoomFor m s := by
  unfold cdRoomFor at *
  omega

/-- An emission takes the room of at most one CD event. -/
theorem cdRoomFor_emitCd {x : BitVec 16} {p : BitVec 8} {s u : State} {n : Nat} (h : emitCd x p s = some u)
    (hr : cdRoomFor (n + 1) s) : cdRoomFor n u := by
  rcases emitCd_some h with ⟨-, rfl⟩ | ⟨-, -, rfl⟩ | ⟨-, -, ha⟩
  · exact cdRoomFor_mono (Nat.le_succ n) hr
  · exact cdRoomFor_mono (Nat.le_succ n) hr
  · have hcap := s.cdCap.isLt
    unfold cdRoomFor at *
    have hne : s.cdLen ≠ s.cdCap := fun e => by rw [e] at hr; omega
    rw [appendCd_room _ _ _ _ hne, noteCdOrder_eq] at ha
    cases ha
    change (s.cdLen + 1).toNat + n ≤ s.cdCap.toNat
    rw [toNat_add_one (by omega)]
    omega

theorem trigRoomFor_emitTrig {i v : BitVec 8} {s u : State} {n : Nat} (h : emitTrig i v s = some u)
    (hr : trigRoomFor (n + 1) s) : trigRoomFor n u := by
  have hcap := s.trigCap.isLt
  unfold trigRoomFor at *
  rcases emitTrig_some h with ⟨-, rfl⟩ | ⟨-, ha⟩
  · omega
  · have hne : s.trigLen ≠ s.trigCap := fun e => by rw [e] at hr; omega
    rw [appendTrig_room _ _ _ hne, noteTrigOrder_eq] at ha
    cases ha
    change (s.trigLen + 1).toNat + n ≤ s.trigCap.toNat
    rw [toNat_add_one (by omega)]
    omega

/-- The lanes of a word take the room of at most one CD event each. -/
theorem cdRoomFor_expandLanes {k : Nat} {mask : BitVec k} {ks : List Nat} {s u : State} {n : Nat}
    (h : expandLanes mask ks s = some u) (hr : cdRoomFor (n + ks.length) s) : cdRoomFor n u := by
  have key := expandLanes_induction (mask := mask) (fun m v => m ≤ ks.length → cdRoomFor (n + (ks.length - m)) v)
    (fun m v hv hm => cdRoomFor_mono (by omega) (hv (by omega)))
    (fun m _ v _ hv _ he hm => cdRoomFor_emitCd he (cdRoomFor_mono (by omega) (hv (by omega))))
    ks 0 s u (fun _ => hr) h
  exact cdRoomFor_mono (by omega) (key (by omega))

/-- A word in `RUN` takes the room of at most twelve CD events and one trigger. -/
theorem room_wordEffect {i : Instr} {s t : State} {m n : Nat} (he : WordEffect i s t) (hcd : cdRoomFor (m + 12) s)
    (htrig : trigRoomFor (n + 1) s) : cdRoomFor m t ∧ trigRoomFor n t := by
  have hcd' : cdRoomFor m s := cdRoomFor_mono (by omega) hcd
  have htrig' : trigRoomFor n s := by
    unfold trigRoomFor at *
    omega
  cases he with
  | addrY | vectBaseX | timeLow | timeHigh | reserved => exact ⟨hcd', htrig'⟩
  | addrX _ _ _ u hu =>
    refine ⟨(cdRoomFor_emitCd (n := m) hu (cdRoomFor_mono (by omega) hcd) :), ?_⟩
    rw [emitCd_frame hu]
    exact htrig'
  | vect12 _ _ u hu =>
    refine ⟨(cdRoomFor_expandLanes hu hcd :), ?_⟩
    rw [expandLanes_frame hu]
    exact htrig'
  | vect8 _ _ _ u hu =>
    refine ⟨(cdRoomFor_expandLanes (n := m) hu (cdRoomFor_mono (by simp) hcd) :), ?_⟩
    rw [expandLanes_frame hu]
    exact htrig'
  | extTrigger _ _ _ _ u hu =>
    refine ⟨?_, (trigRoomFor_emitTrig hu htrig :)⟩
    rw [emitTrig_frame hu]
    exact hcd'

/-- With room for the lanes of its mask, an expansion is not stuck. -/
theorem expand_ne_none_of_room {n : Nat} (mask : BitVec n) {s : State} (h : cdRoomFor n s) : expand mask s ≠ none :=
  expand_ne_none mask fun _ _ => .inl (cdRoomFor_mono ((List.length_filter_le _ _).trans (by simp)) h)

/-- Any word in `RUN` completes with room for twelve CD events and one trigger. -/
theorem exec_completes_of_room (i : Instr) {s : State} (hrun : s.phase = .run) (hcd : cdRoomFor 12 s)
    (htrig : trigRoomFor 1 s) : ∃ t, exec i s = .next t := by
  have hcdne : s.cdLen ≠ s.cdCap := fun e => by
    rw [cdRoomFor, e] at hcd
    omega
  have htrigne : s.trigLen ≠ s.trigCap := fun e => by
    rw [trigRoomFor, e] at htrig
    omega
  cases i with
  | addrX => exact wordRuleOrStuck_completes hrun (emitCd_ne_none _ _ fun _ _ e => absurd e hcdne)
  | vect12 mask => exact wordRuleOrStuck_completes hrun (expand_ne_none_of_room mask hcd)
  | vect8 _ mask =>
    exact wordRuleOrStuck_completes hrun (expand_ne_none_of_room mask (cdRoomFor_mono (by omega) hcd))
  | extTrigger => exact wordRuleOrStuck_completes hrun (emitTrig_ne_none _ _ fun _ e => absurd e htrigne)
  | _ => exact exec_completes_of_no_append hrun (by simp [typeCode])

/-- With room in the buffers, `Run` over words completes: in `RUN`, with no fault recorded that was not, or at a reserved
code. -/
theorem runTokens_words_completes (ws : List Word) {s : State} (hrun : s.phase = .run)
    (hcd : cdRoomFor (12 * ws.length) s) (htrig : trigRoomFor ws.length s) :
    ∃ t, runTokens (ws.map .word) s = .next t ∧
      ((t.phase = .run ∧ t.errKind = s.errKind) ∨ (t.phase = .fault ∧ t.errKind = .unknownEventType)) := by
  induction ws generalizing s with
  | nil => exact ⟨s, rfl, .inl ⟨hrun, rfl⟩⟩
  | cons w ws ih =>
    rw [List.length_cons] at hcd htrig
    have htrig1 : trigRoomFor 1 s := by
      unfold trigRoomFor at *
      omega
    obtain ⟨u, hu⟩ := exec_completes_of_room (decode w) hrun (cdRoomFor_mono (by omega) hcd) htrig1
    simp only [List.map_cons, runTokens, hrun, if_true, decoderStep, hu]
    rcases WordEffect_run hrun (exec_effect hrun hu) with ⟨hurun, hkind, -⟩ | rfl
    · obtain ⟨hcdu, htrigu⟩ := room_wordEffect (exec_effect hrun hu) (m := 12 * ws.length) hcd htrig
      obtain ⟨t, ht, hend⟩ := ih hurun hcdu htrigu
      exact ⟨t, ht, hkind ▸ hend⟩
    · exact ⟨_, runTokens_idle _ nofun, .inr ⟨rfl, rfl⟩⟩

/-- The word port of bytes ended by `Eof`: a word for each pair, and the end, truncated where a byte is left over. -/
theorem wordPort_bytes_eof : ∀ bs : List Byte, ∃ ws : List Word, ws.length = bs.length / 2 ∧
    wordPort none (bs.map .byte ++ [.eof]) =
      ws.map .word ++ [if bs.length % 2 = 1 then .endTruncated else .endOfStream]
  | [] => ⟨[], rfl, rfl⟩
  | [_] => ⟨[], (Nat.div_eq_of_lt Nat.one_lt_two).symm, rfl⟩
  | b0 :: b1 :: bs => by
    obtain ⟨ws, hlen, hport⟩ := wordPort_bytes_eof bs
    exact ⟨wordOfBytes b0 b1 :: ws, by simp [hlen, Nat.add_assoc],
      by simp [wordPort, hport, Nat.add_assoc]⟩

/-- After words that completed, the end of the source leaves `RUN` if no reserved code has: in `FAULT` where a byte is
left over, and with no truncation where none is. -/
theorem runTokens_end_leaves_run (n : Nat) {s : State}
    (h : (s.phase = .run ∧ s.errKind = .none) ∨ (s.phase = .fault ∧ s.errKind = .unknownEventType)) :
    ∃ t, runTokens [if n % 2 = 1 then .endTruncated else .endOfStream] s = .next t ∧
      (t.phase = .done ∨ t.phase = .fault) ∧ (n % 2 = 1 → t.phase = .fault) ∧
      (n % 2 = 0 → t.errKind ≠ .truncatedStream) := by
  rcases h with ⟨hrun, hkind⟩ | ⟨hfault, hkind⟩
  · by_cases hodd : n % 2 = 1
    · exact ⟨raise .truncatedStream s, by simp [runTokens, hrun, hodd, decoderStep], .inr rfl, fun _ => rfl, by omega⟩
    · exact ⟨endSession s, by simp [runTokens, hrun, hodd, decoderStep], .inl rfl, by omega, by simp [hkind]⟩
  · exact ⟨s, runTokens_idle _ (by simp [hfault]), .inr hfault, fun _ => hfault, by simp [hkind]⟩

theorem mapNext_eq_next {f : State → State} {r : Result} {u : State} (h : mapNext f r = .next u) :
    ∃ t, r = .next t ∧ f t = u := by
  cases r with
  | next t => exact ⟨t, rfl, Host.Outcome.next.inj h⟩
  | fault | refused => cases h

/-- Settles O18: the steps are `Run` over the words and the end; the words complete, and the end leaves `RUN` if no
reserved code has. -/
theorem sessionReachesItsEnd : Obligations.SessionReachesItsEnd := by
  intro s bs hrun hb hok hkind hin hcd htrig
  obtain ⟨ws, hlen, hbytes⟩ := wordPort_bytes_eof bs
  rw [← hlen] at hcd htrig
  obtain ⟨u, hu, hwords⟩ := runTokens_words_completes ws hrun hcd htrig
  rw [hkind] at hwords
  obtain ⟨v, hv, hphase, hodd, heven⟩ := runTokens_end_leaves_run bs.length hwords
  have hport : wordPort (pendingByte s) s.input =
      ws.map .word ++ [if bs.length % 2 = 1 then .endTruncated else .endOfStream] := by
    simpa [pendingByte, hb, hin] using hbytes
  have hsteps := runSteps_wordPort _ [] hrun hok (hport.trans (List.append_nil _).symm)
  rw [runTokens_append _ hu, hv, List.length_append, List.length_map, hlen] at hsteps
  obtain ⟨t, ht, hcore⟩ := mapNext_eq_next hsteps
  have htphase : t.phase = v.phase := by simpa using congrArg State.phase hcore
  have htkind : t.errKind = v.errKind := by simpa using congrArg State.errKind hcore
  exact ⟨t, ht, by rwa [htphase], by rwa [htphase], by rwa [htkind]⟩

/-! ## The header skipper (40_ingress.md R128) -/

/-- A `%` at the cursor begins a header line. -/
theorem skipHeader_percent (bs : List Byte) :
    skipHeader false (0x25 :: bs) = consumeByte 0x25 (skipHeader true bs) := if_pos rfl

/-- Any other byte is the first binary byte. -/
theorem skipHeader_of_ne {b : Byte} (h : b ≠ 0x25) (bs : List Byte) : skipHeader false (b :: bs) = ([], b :: bs) :=
  if_neg h

/-- Inside a header line any byte but a newline leaves the cursor inside it. -/
theorem skipHeader_inLine {b : Byte} (h : b ≠ 0x0A) (bs : List Byte) :
    skipHeader true (b :: bs) = consumeByte b (skipHeader true bs) := by
  rw [skipHeader, bne_iff_ne.2 h]

/-- The consumption splits the input and loses nothing. -/
theorem skipHeader_append (inLine : Bool) (bs : List Byte) :
    (skipHeader inLine bs).1 ++ (skipHeader inLine bs).2 = bs := by
  induction bs generalizing inLine with
  | nil => cases inLine <;> rfl
  | cons b bs ih =>
    cases inLine with
    | true => simp [skipHeader, consumeByte, ih]
    | false =>
      by_cases hb : b = 0x25
      · rw [hb, skipHeader_percent]
        exact congrArg (0x25 :: ·) (ih true)
      · rw [skipHeader_of_ne hb, List.nil_append]

/-- Inside a header line the bytes up to the newline are consumed, and the newline. -/
theorem skipHeader_line {line : List Byte} (rest : List Byte) (h : 0x0A ∉ line) :
    skipHeader true (line ++ 0x0A :: rest) =
      (line ++ 0x0A :: (skipHeader false rest).1, (skipHeader false rest).2) := by
  induction line with
  | nil => rfl
  | cons b line ih =>
    obtain ⟨hb, hline⟩ := not_or.1 (List.mem_cons.not.1 h)
    rw [List.cons_append, skipHeader_inLine (Ne.symm hb), ih hline]
    rfl

/-- A last line without newline is consumed to the end of the input (D25). -/
theorem skipHeader_unterminated {line : List Byte} (h : 0x0A ∉ line) : skipHeader true line = (line, []) := by
  induction line with
  | nil => rfl
  | cons b line ih =>
    obtain ⟨hb, hline⟩ := not_or.1 (List.mem_cons.not.1 h)
    rw [skipHeader_inLine (Ne.symm hb), ih hline]
    rfl

/-- Settles O56: a `%` enters a line, and a line ends at its newline or with the input. -/
theorem headerLinesAreConsumed : Obligations.HeaderLinesAreConsumed := by
  refine ⟨skipHeader_append false, fun _ bs hb => skipHeader_of_ne hb bs, fun line rest h => ?_, fun line h => ?_⟩
  · rw [List.cons_append, skipHeader_percent, skipHeader_line rest h]
    rfl
  · rw [skipHeader_percent, skipHeader_unterminated h]
    rfl

/-- Settles O57: all of the input is header, so the byte port offers `Eof` alone to a decoder at reset. -/
theorem emptyInputGivesEmptyResult : Obligations.EmptyInputGivesEmptyResult := by
  intro bs width height s hbinary hreport
  have hheader : (skipHeader false bs).1 = bs := by
    simpa [hbinary] using skipHeader_append false bs
  have hok : (startSession ⟨bs, none⟩ width height s).headerVerdict = .ok := by
    simp only [startSession, hheader, hreport]
  have hin : (startSession ⟨bs, none⟩ width height s).input = [.eof] := by
    simp only [startSession, hbinary]
    rfl
  have hend : takeToken (startSession ⟨bs, none⟩ width height s).input (startSession ⟨bs, none⟩ width height s) =
      (some .endOfStream, setInput [] (startSession ⟨bs, none⟩ width height s)) := by
    rw [hin]
    rfl
  exact ⟨_, step_token rfl (formatRejected_of_ok hok) hend, rfl, rfl, rfl, rfl, rfl, rfl, rfl, rfl, rfl, _, rfl, rfl,
    rfl, rfl, rfl, rfl, rfl, rfl⟩

end Sys2Proof.Machine
end

section
/-! PROOFS. The statements of 41_addr.md: the row of ADDR_Y (R140), the gated emission of ADDR_X (R141 to R143), and the
vector words that pass the same gates in a decoder that is not primed (42_vect.md R157). -/

namespace Sys2Proof.Machine

/-! ## The address words -/

/-- Settles O19: the word rule writes the row and its flag, and the origin flag takes no part. -/
theorem addrYSetsTheRow : Obligations.AddrYSetsTheRow :=
  fun _ y _ hrun => wordRule_run (fun s => setHaveY (setRow (coordOperand y) s)) hrun

/-- In `RUN`, ADDR_X is its emission and the advance of the position. -/
theorem exec_addrX_of_emitCd {p : BitVec 1} {x : BitVec 11} {s u : State} (hrun : s.phase = .run)
    (hu : emitCd (coordOperand x) (polarityOperand p) s = some u) : exec (.addrX p x) s = .next (advanceWord u) :=
  wordRuleOrStuck_run_some hrun hu

/-- Settles O22: the gate of `have_y` counts (D15), and is asked before that of `have_time_high`, which does not
(D28). -/
theorem addrXDropCounts : Obligations.AddrXDropCounts :=
  ⟨fun _ _ _ hrun hy => exec_addrX_of_emitCd hrun (emitCd_noY _ _ hy),
    fun _ _ _ hrun hy ht => exec_addrX_of_emitCd hrun (emitCd_noTimeHigh _ _ hy ht)⟩

/-- What `AppendCD` leaves where growth is allowed or not needed: one more event, the capacity doubled exactly where the
buffer was full, and the order counted against the last element before the append (D16). -/
theorem appendCd_takes_frame {x y : BitVec 16} {p : BitVec 8} {t : Timestamp} {s u : State}
    (h : s.cdLen = s.cdCap → cdMayGrow s) (hu : appendCd x y p t s = some u) :
    u = { s with
      mem := { s.mem with cdX := u.mem.cdX, cdY := u.mem.cdY, cdP := u.mem.cdP, cdT := u.mem.cdT }
      cdLen := s.cdLen + 1, cdCap := if s.cdLen = s.cdCap then s.cdCap * 2 else s.cdCap
      outOfOrderEvents :=
        if s.cdLen ≠ 0 ∧ t < lastCdTime s then s.outOfOrderEvents + 1 else s.outOfOrderEvents } := by
  rw [appendCd_takes x y p t h, noteCdOrder_eq] at hu
  rw [← Option.some.inj hu]
  rfl

/-- Settles O20: with both gates open the emission is one append at `cd_len`; with one closed it is a row of O22. -/
theorem addrXEmitsOneEvent : Obligations.AddrXEmitsOneEvent := by
  refine ⟨fun p x s hrun hy ht hgrow => ?_, fun p x s hrun hgate => ?_⟩
  · have ha := appendCd_takes (coordOperand x) s.curY (polarityOperand p) (now s) hgrow
    have hexec := exec_addrX_of_emitCd hrun ((emitCd_primed _ _ hy ht).trans ha)
    have hframe := congrArg advanceWord (appendCd_takes_frame hgrow ha)
    obtain ⟨hX, hY, hP, hT⟩ := appendCdUnder_reads ha
    exact ⟨_, hexec, hframe, fun _ => lastCdTime_written, (hX _).trans (if_pos rfl), (hY _).trans (if_pos rfl),
      (hP _).trans (if_pos rfl), (hT _).trans (if_pos rfl)⟩
  · obtain ⟨noRow, noTime⟩ := addrXDropCounts
    rcases s.haveY.eq_false_or_eq_true with hy | hy
    · exact ⟨_, noTime p x s hrun hy (hgate.resolve_left (by simp [hy])), rfl⟩
    · exact ⟨_, noRow p x s hrun hy, rfl⟩

/-! ## The vector words in a decoder that is not primed -/

/-- In `RUN`, a vector word of either width is its lanes, then the advance of the base and of the position. -/
theorem wordRuleOrStuck_expand_of_lanes {n : Nat} {mask : BitVec n} {k : Fault} {s u : State} (hrun : s.phase = .run)
    (hu : expandLanes mask (List.range n) s = some u) :
    wordRuleOrStuck k (expand mask) s = .next (advanceWord (advanceBase n u)) :=
  wordRuleOrStuck_run_some hrun (expand_of hu)

/-- Settles O27: each emitting lane meets the gates of ADDR_X, so it is a counted drop before any ADDR_Y (D15) and
nothing with a row but no TIME_HIGH (D28). -/
theorem vectorWordsNotPrimed : Obligations.VectorWordsNotPrimed :=
  ⟨fun mask s hrun hy => wordRuleOrStuck_expand_of_lanes hrun (expandLanes_noY mask _ s hy),
    fun _ mask s hrun hy => wordRuleOrStuck_expand_of_lanes hrun (expandLanes_noY mask _ s hy),
    fun mask _ hrun hy ht => wordRuleOrStuck_expand_of_lanes hrun (expandLanes_noTimeHigh mask _ hy ht),
    fun _ mask _ hrun hy ht => wordRuleOrStuck_expand_of_lanes hrun (expandLanes_noTimeHigh mask _ hy ht)⟩

end Sys2Proof.Machine
end

section
/-! PROOFS. The statements of 42_vect.md: VECT_BASE_X (R150), the lanes that emit (R154, R155), the vector words in a
primed decoder and past the last column (R152 to R156), and a run of vector words (R157). -/

namespace Sys2Proof.Machine

/-! ## The base word and the lanes of a mask -/

/-- Settles O23: the word rule writes the base and the polarity, whatever the base was. -/
theorem vectBaseXSetsTheBase : Obligations.VectBaseXSetsTheBase :=
  fun p x _ hrun => wordRule_run (setVectBase (coordOperand x) (polarityOperand p)) hrun

theorem mem_emittingLanes_iff {n : Nat} (mask : BitVec n) (base : BitVec 16) (k : Nat) :
    k ∈ emittingLanes mask base ↔ k < n ∧ mask.getLsbD k = true ∧ base.toNat + k < 2048 := by
  rw [emittingLanes, List.mem_filter, List.mem_range, laneEmits_iff]

/-- Settles O25: a filter of the lanes in ascending order keeps their order. -/
theorem emittingLanesAreTheSetBitsInRange : Obligations.EmittingLanesAreTheSetBitsInRange :=
  fun _ mask base => ⟨mem_emittingLanes_iff mask base, List.pairwise_lt_range.filter _⟩

/-! ## The vector words in a primed decoder -/

/-- Settles O24: with both gates open the lanes append what `expandLanes_primed` says; the base and the position follow
for either width. -/
theorem vectorWordAppendsItsLanes : Obligations.VectorWordAppendsItsLanes := by
  refine ⟨fun mask s hrun hy ht hroom => ?_, fun _ mask s hrun hy ht hroom => ?_⟩
  · obtain ⟨u, hu, hframe, -, hlanes⟩ := expandLanes_primed mask (List.range 12) s hy ht hroom
    exact ⟨_, wordRuleOrStuck_expand_of_lanes hrun hu, congrArg (advanceWord ∘ advanceBase 12) hframe,
      fun _ => lastCdTime_written, hlanes⟩
  · obtain ⟨u, hu, hframe, -, hlanes⟩ := expandLanes_primed mask (List.range 8) s hy ht hroom
    exact ⟨_, wordRuleOrStuck_expand_of_lanes hrun hu, congrArg (advanceWord ∘ advanceBase 8) hframe,
      fun _ => lastCdTime_written, hlanes⟩

/-! ## The vector words past the last column -/

/-- Settles O28: no lane of a base past column 2047 emits, so the gates and the buffers are never asked. -/
theorem vectorPastTheLastColumn : Obligations.VectorPastTheLastColumn :=
  ⟨fun mask _ hrun hbase => wordRuleOrStuck_expand_of_lanes hrun (expandLanes_past mask _ hbase),
    fun _ mask _ hrun hbase => wordRuleOrStuck_expand_of_lanes hrun (expandLanes_past mask _ hbase)⟩

/-! ## Vector words one after another (42_vect.md R157) -/

/-- What a vector word that completes leaves in the registers the next one reads. -/
theorem wordRuleOrStuck_expand_registers {n : Nat} {mask : BitVec n} {k : Fault} {s t : State} (hrun : s.phase = .run)
    (ht : wordRuleOrStuck k (expand mask) s = .next t) :
    t.phase = .run ∧ t.baseX = s.baseX + BitVec.ofNat 16 n ∧ t.curY = s.curY ∧ t.vectPolarity = s.vectPolarity ∧
      now t = now s := by
  obtain ⟨v, hv, rfl⟩ := wordRuleOrStuck_next hrun ht
  obtain ⟨u, hu, rfl⟩ := expand_some hv
  rw [expandLanes_frame hu]
  exact ⟨hrun, rfl, rfl, rfl, rfl⟩

theorem exec_vectorWord_registers {v : VectorWord} {s t : State} (hrun : s.phase = .run)
    (ht : exec v.instr s = .next t) :
    t.phase = .run ∧ t.baseX = s.baseX + BitVec.ofNat 16 v.width ∧ t.curY = s.curY ∧
      t.vectPolarity = s.vectPolarity ∧ now t = now s := by
  cases v with
  | twelve mask => exact wordRuleOrStuck_expand_registers hrun ht
  | eight ign mask => exact wordRuleOrStuck_expand_registers hrun ht

/-- A list of words completes exactly where its first word does and the others do from the state that one leaves. -/
theorem execAll_cons_next_iff (i : Instr) (is : List Instr) (s t : State) :
    execAll (i :: is) s = .next t ↔ ∃ u, exec i s = .next u ∧ execAll is u = .next t := by
  simp only [execAll]
  cases exec i s <;> simp

/-- Settles O29, by induction over the words: each stays in `RUN` and starts from the base the one before it left. -/
theorem consecutiveVectorsContinue : Obligations.ConsecutiveVectorsContinue := by
  intro vs
  induction vs with
  | nil =>
    intro s t _ h
    cases h
    simp
  | cons v vs ih =>
    intro s t hrun h
    obtain ⟨u, hu, hrest⟩ := (execAll_cons_next_iff _ _ s t).1 h
    obtain ⟨hurun, hbase, hy, hp, hnow⟩ := exec_vectorWord_registers hrun hu
    obtain ⟨hbase', hy', hp', hnow'⟩ := ih u t hurun hrest
    refine ⟨?_, hy'.trans hy, hp'.trans hp, hnow'.trans hnow⟩
    rw [hbase', hbase, List.map_cons, List.sum_cons, BitVec.ofNat_add, BitVec.add_assoc]

end Sys2Proof.Machine
end

section
/-! PROOFS. The statements of 43_time.md: TIME_LOW (R171), TIME_HIGH (R172, R176), and the cases of the wraparound test
with the value of the high time (R173, R174). -/

namespace Sys2Proof.Machine

/-! ## The timestamp reconstructor -/

/-- A loop is a drop by at least the threshold (D1). -/
theorem loopDetected_some_iff (q p : BitVec 16) :
    loopDetected (some q) p = true ↔ p.toNat < q.toNat ∧ 2048 ≤ q.toNat - p.toNat := by
  simp [loopDetected, Config.loopThreshold, BitVec.lt_def]

theorem nextLoops_none (loops : BitVec 32) (p : BitVec 16) : nextLoops none loops p = loops := rfl

theorem nextLoops_some (q : BitVec 16) (loops : BitVec 32) (p : BitVec 16) :
    nextLoops (some q) loops p =
      if p.toNat < q.toNat ∧ 2048 ≤ q.toNat - p.toNat then loops + 1 else loops :=
  if_congr (loopDetected_some_iff q p) rfl rfl

/-- The payload lies below the shifted loop count, so the two are added; the high time wraps modulo 2^32 (D23). -/
theorem toNat_composeHigh (loops : BitVec 32) {p : BitVec 16} (h : p.toNat < 4096) :
    (composeHigh loops p).toNat = (loops.toNat * 4096 + p.toNat) % 2 ^ 32 := by
  rw [composeHigh, BitVec.toNat_or, BitVec.toNat_shiftLeft, BitVec.toNat_setWidth, ← Nat.or_mod_two_pow,
    ← Nat.shiftLeft_add_eq_or_of_lt h, Nat.shiftLeft_eq]

/-- Settles O32: the count is `nextLoops`, whose test fails on a step forward and on a drop below 2048 and holds on a
drop of at least 2048; the high time is composed of that count. -/
theorem reconstructCases : Obligations.ReconstructCases := by
  intro prev loops p hp
  refine ⟨?_, ?_, ?_, ?_, toNat_composeHigh _ hp⟩
  · rintro rfl
    exact nextLoops_none loops p
  · rintro q rfl hle
    exact (nextLoops_some q loops p).trans (if_neg fun ⟨hlt, _⟩ => absurd hlt (Nat.not_lt.2 hle))
  · rintro q rfl _ hsmall
    exact (nextLoops_some q loops p).trans (if_neg fun ⟨_, hlarge⟩ => absurd hsmall (Nat.not_lt.2 hlarge))
  · rintro q rfl hlt hlarge
    exact (nextLoops_some q loops p).trans (if_pos ⟨hlt, hlarge⟩)

/-! ## The time words -/

/-- Settles O30: the word rule writes the low time alone. -/
theorem timeLowSetsTheLowTime : Obligations.TimeLowSetsTheLowTime :=
  fun t _ hrun => wordRule_run (setTimeLow (timeOperand t)) hrun

theorem toNat_timeOperand (t : BitVec 12) : (timeOperand t).toNat = t.toNat :=
  BitVec.toNat_setWidth_of_le (by decide)

theorem composeHigh_timeOperand (loops : BitVec 32) (t : BitVec 12) :
    composeHigh loops (timeOperand t) = (loops <<< 12) ||| t.setWidth 32 := by
  rw [composeHigh, timeOperand, BitVec.setWidth_setWidth (by decide)]

/-- The loop count TIME_HIGH leaves: the last payload is compared only where one was taken. -/
theorem nextLoops_timeOperand (t : BitVec 12) (s : State) :
    nextLoops (previousTimeHigh s) s.timeHighLoops (timeOperand t) =
      if s.haveTimeHigh = true ∧ t.toNat < s.lastTimeHighPayload.toNat ∧
          2048 ≤ s.lastTimeHighPayload.toNat - t.toNat
      then s.timeHighLoops + 1 else s.timeHighLoops := by
  cases hseen : s.haveTimeHigh with
  | false => simp [previousTimeHigh, hseen, nextLoops_none]
  | true => simp [previousTimeHigh, hseen, nextLoops_some, toNat_timeOperand]

/-- Settles O31: the word rule stores the reconstructed pair and the payload, and sets the flag. -/
theorem timeHighSetsTheHighTime : Obligations.TimeHighSetsTheHighTime := by
  intro t s hrun
  rw [← nextLoops_timeOperand, ← composeHigh_timeOperand]
  exact wordRule_run (takeTimeHigh (timeOperand t)) hrun

end Sys2Proof.Machine
end

section
/-! PROOFS. The statement of 44_trigger.md: the gate of `have_time_high` and the one append of EXT_TRIGGER (R190, R191,
with the append of 45_buffers.md R201, R204). -/

namespace Sys2Proof.Machine

/-! ## The gate of the trigger path -/

theorem emitTrig_primed (id v : BitVec 8) {s : State} (h : s.haveTimeHigh = true) :
    emitTrig id v s = appendTrig (now s) id v s := if_pos h

theorem emitTrig_noTimeHigh (id v : BitVec 8) {s : State} (h : s.haveTimeHigh = false) : emitTrig id v s = some s := by
  simp [emitTrig, h]

/-- In `RUN`, EXT_TRIGGER is its trigger path and the advance of the position, and the padding takes no part. -/
theorem exec_extTrigger_of_emitTrig {id : BitVec 4} (pad : BitVec 7) {v : BitVec 1} {s u : State}
    (hrun : s.phase = .run) (hu : emitTrig (idOperand id) (valueOperand v) s = some u) :
    exec (.extTrigger id pad v) s = .next (advanceWord u) :=
  wordRuleOrStuck_run_some hrun hu

/-! ## The trigger word -/

/-- What `AppendTrig` leaves where growth is allowed or not needed: one more trigger, the capacity doubled exactly where
the buffer was full, and the order counted against the last element before the append (D16). -/
theorem appendTrig_takes_frame {t : Timestamp} {id v : BitVec 8} {s u : State} (h : trigTakes s)
    (hu : appendTrig t id v s = some u) :
    u = { s with
      mem := { s.mem with trT := u.mem.trT, trId := u.mem.trId, trV := u.mem.trV }
      trigLen := s.trigLen + 1, trigCap := if s.trigLen = s.trigCap then s.trigCap * 2 else s.trigCap
      outOfOrderEvents :=
        if s.trigLen ≠ 0 ∧ t < lastTrigTime s then s.outOfOrderEvents + 1 else s.outOfOrderEvents } := by
  rw [appendTrig_takes t id v h, noteTrigOrder_eq] at hu
  rw [← Option.some.inj hu]
  rfl

/-- Settles O35: with the gate open the trigger path is one append at `trig_len`; with it closed the word is discarded
and only the position follows. -/
theorem extTriggerRecordsAnEdge : Obligations.ExtTriggerRecordsAnEdge := by
  refine ⟨fun id pad v s hrun ht htakes => ?_, fun id pad v s hrun ht => ?_⟩
  · have ha := appendTrig_takes (now s) (idOperand id) (valueOperand v) htakes
    have hexec := exec_extTrigger_of_emitTrig pad hrun ((emitTrig_primed _ _ ht).trans ha)
    have hframe := congrArg advanceWord (appendTrig_takes_frame htakes ha)
    obtain ⟨hT, hId, hV⟩ := appendTrigUnder_reads ha
    exact ⟨_, hexec, hframe, fun _ => lastTrigTime_written, (hT _).trans (if_pos rfl), (hId _).trans (if_pos rfl),
      (hV _).trans (if_pos rfl)⟩
  · exact exec_extTrigger_of_emitTrig pad hrun (emitTrig_noTimeHigh _ _ ht)

end Sys2Proof.Machine
end

section
/-! PROOFS. The statements of 45_buffers.md: the growth of a full buffer and its stop at the physical limit (R204, R205),
and the clean end of a session (R210). -/

namespace Sys2Proof.Machine

/-! ## Growth and exhaustion (45_buffers.md R204, R205) -/

/-- A full CD buffer whose doubling is within the limit doubles, then stores as any append. -/
theorem appendCdUnder_full {limit : Option Nat} (x y : BitVec 16) (p : BitVec 8) (t : Timestamp) {s : State}
    (hfull : s.cdLen = s.cdCap) (hlimit : ∀ m, limit = some m → s.cdCap.toNat * 2 ≤ m) :
    appendCdUnder limit x y p t s = some (storeCd x y p t (noteCdOrder t (setCdCap (s.cdCap * 2) s))) := by
  rw [appendCdUnder, grownCap_full limit hfull ((capAllowed_iff _ _).2 hlimit)]

/-- A full trigger buffer whose doubling is within the limit doubles, then stores as any append. -/
theorem appendTrigUnder_full {limit : Option Nat} (t : Timestamp) (id v : BitVec 8) {s : State}
    (hfull : s.trigLen = s.trigCap) (hlimit : ∀ m, limit = some m → s.trigCap.toNat * 2 ≤ m) :
    appendTrigUnder limit t id v s = some (storeTrig t id v (noteTrigOrder t (setTrigCap (s.trigCap * 2) s))) := by
  rw [appendTrigUnder, grownCap_full limit hfull ((capAllowed_iff _ _).2 hlimit)]

/-- Settles O41: a full buffer within the limit doubles and its reads are those of any append; an append fails exactly
where its capacity has none to grow to. -/
theorem fullBufferDoublesOrStops : Obligations.FullBufferDoublesOrStops := by
  refine ⟨fun limit x y p t s hfull hlimit => ?_, fun limit t id v s hfull hlimit => ?_,
    fun limit x y p t s => (appendCdUnder_none_iff limit x y p t s).trans (grownCap_none_iff limit _ _),
    fun limit t id v s => (appendTrigUnder_none_iff limit t id v s).trans (grownCap_none_iff limit _ _)⟩
  · have ha := appendCdUnder_full x y p t hfull hlimit
    rw [noteCdOrder_eq] at ha
    obtain ⟨hX, hY, hP, hT⟩ := appendCdUnder_reads ha
    exact ⟨_, ha, rfl, rfl, rfl, fun i hi =>
      ⟨(hX i).trans (if_neg hi), (hY i).trans (if_neg hi), (hP i).trans (if_neg hi), (hT i).trans (if_neg hi)⟩⟩
  · have ha := appendTrigUnder_full t id v hfull hlimit
    rw [noteTrigOrder_eq] at ha
    obtain ⟨hT, hId, hV⟩ := appendTrigUnder_reads ha
    exact ⟨_, ha, rfl, rfl, rfl, fun i hi =>
      ⟨(hT i).trans (if_neg hi), (hId i).trans (if_neg hi), (hV i).trans (if_neg hi)⟩⟩

/-! ## The clean end (45_buffers.md R210) -/

/-- `Eof` at the byte port, none pending: the step takes it and finishes the session. -/
theorem step_cleanEnd {s : State} {rest : List ByteToken} (hrun : s.phase = .run) (hr : formatRejected s = false)
    (hb : s.haveByte = false) (hin : s.input = .eof :: rest) : step s = .next (endSession (setInput rest s)) := by
  have htake : takeToken s.input s = (some .endOfStream, setInput rest s) := by
    rw [hin, takeToken_eof, hb]
    rfl
  exact step_token hrun hr htake

/-- Settles O11: in `DONE` the view reads the columns and counts the end left alone, and no step changes them. -/
theorem cleanEndFinishesTheSession : Obligations.CleanEndFinishesTheSession :=
  fun _ _ hrun hr hb hin => ⟨_, step_cleanEnd hrun hr hb hin, rfl, rfl, step_idle nofun⟩

end Sys2Proof.Machine
end

section
/-! PROOFS. The statement of 46_reserved.md: a reserved code that the set of ignorable codes holds (R231). -/

namespace Sys2Proof.Machine

/-- R231: a listed code takes the counting branch, the counterpart of `reservedWord_raises`. -/
theorem reservedWord_counts {codes : List TypeCode} {code : TypeCode} {s : State} (hrun : s.phase = .run)
    (hmem : code ∈ codes) : reservedWord codes code s = .next (advanceWord (countUnknown s)) :=
  (if_pos hrun).trans (if_pos (List.elem_eq_true_of_mem hmem))

/-- Settles O38: the count and the advance are the two writes of the listed code's word. -/
theorem ignorableCodeIsCounted : Obligations.IgnorableCodeIsCounted :=
  fun _ _ _ hrun hmem => reservedWord_counts hrun hmem

end Sys2Proof.Machine
end

section
/-! PROOFS. The statement of 60_exceptions.md: fault entry is precise (R246, R247). -/

namespace Sys2Proof.Machine

/-- Every fatal error has a kind (R241). -/
theorem errorKind_ne_none (e : FatalError) : errorKind e ≠ .none := by
  cases e <;> simp [errorKind]

/-- A word from `RUN` that ends in `FAULT` is the fault entry of its type code (R230). -/
theorem exec_fault {i : Instr} {s t : State} (hrun : s.phase = .run) (ht : exec i s = .next t)
    (hfault : t.phase = .fault) : t = raise (.unknownEventType (typeCode i)) s := by
  rcases WordEffect_run hrun (exec_effect hrun ht) with ⟨hphase, -⟩ | hraise
  · rw [hphase] at hfault
    cases hfault
  · exact hraise

/-- A step from `RUN` that ends in `FAULT` is a fault entry, on the state as the ingress stage left it. -/
theorem step_fault {s t : State} (hrun : s.phase = .run) (ht : step s = .next t) (hfault : t.phase = .fault) :
    ∃ e b f r, t = raise e (withIngress b f r s.headerVerdict s) := by
  have hne : s.phase ≠ .fault := by simp [hrun]
  revert hfault
  exact step_to (Q := fun u => u.phase = .fault → ∃ e b f r, u = raise e (withIngress b f r s.headerVerdict s)) ht
    (fun _ hs => absurd hs hne) (fun _ _ _ _ hs => absurd hs hne)
    (fun b f r _ _ _ hu hs => ⟨_, b, f, r, exec_fault (s := withIngress b f r _ s) hrun hu hs⟩)
    (fun _ _ _ _ hs => nomatch hs) (fun e b f r _ _ => ⟨e, b, f, r, rfl⟩)

/-- Settles O49: the step is a fault entry, which writes the record and the phase alone and gives the kind. -/
theorem faultsArePrecise : Obligations.FaultsArePrecise := by
  intro s t hrun ht hfault
  obtain ⟨e, b, f, r, rfl⟩ := step_fault hrun ht hfault
  exact ⟨errorKind_ne_none e, rfl⟩

end Sys2Proof.Machine
end
